-- ==== Sys2Proof/Word.lean ====
section
/-! DEFINITION. The machine's words: 16-bit words, bytes, 32-bit byte addresses, register numbers, and the four flags
(00_scope.md R6, 10_state.md R21, R29). -/

namespace Sys2Proof

/-- A word, "the size of one instruction word and of one register" (00_scope.md R12). -/
abbrev Word := BitVec 16

/-- A byte, the unit addresses count (00_scope.md R6). -/
abbrev Byte := BitVec 8

/-- A 32-bit byte address (20_memory.md R50). -/
abbrev Addr := BitVec 32

/-- A 3-bit register field, number 0 to 7 of a register file (30_encoding.md R86). -/
abbrev RegNo := BitVec 3

/-- The four flags (10_state.md R29). -/
structure Flags where
  /-- Carry. -/
  c : Bool
  /-- Overflow. -/
  o : Bool
  /-- Negative. -/
  n : Bool
  /-- Zero. -/
  z : Bool
  deriving DecidableEq, Repr, Inhabited

end Sys2Proof
end

