-- ==== Sys2Proof/Config.lean ====
section
/-! DEFINITION. The parameters of 00_scope.md R7: the types of all of them, and, as constants without a body, BYTE_ORDER and
LOGIC_CO together with the free values draw(1) and draw(16) of 00_scope.md R10. The two parameters whose value decides whether
an instruction is refused, SUB_CARRY and SR_LAYOUT, are fields of State; the others are definitions of Machine/Params.lean. -/

namespace Sys2Proof

/-- BYTE_ORDER: which byte of a word has the lower address (20_memory.md R52). -/
inductive ByteOrder where
  | big
  | little
  deriving DecidableEq, Repr, Inhabited

/-- ODD_ADDRESS: what a word access or fetch at an odd address does (20_memory.md R53). -/
inductive OddAddress where
  | refuse
  | ignoreBit0
  deriving DecidableEq, Repr, Inhabited

/-- PC_BASE: the value of PC an instruction reads as data (10_state.md R25). -/
inductive PcBase where
  | next
  | own
  | secondWord
  deriving DecidableEq, Repr, Inhabited

/-- JSR_SP_UPDATE: what JSR does to SP (45_jumps.md R230). -/
inductive JsrSpUpdate where
  | none
  | preDecrement4
  | postIncrement4
  deriving DecidableEq, Repr, Inhabited

/-- LDIM_EXTEND: how the 25-bit value of LDim becomes 32 bits (42_load_immediate.md R171). -/
inductive LdimExtend where
  | zero
  | sign
  deriving DecidableEq, Repr, Inhabited

/-- SUB_CARRY: the meaning of C after a subtraction (40_alu.md R111). -/
inductive SubCarry where
  | borrow
  | notBorrow
  | unspecified
  deriving DecidableEq, Repr, Inhabited

/-- LOGIC_CO: C and O after a logic operation (40_alu.md R111). -/
inductive LogicCo where
  | cleared
  | unchanged
  | unspecified
  deriving DecidableEq, Repr, Inhabited

/-- FETCH_COHERENT: whether a store is seen by a later fetch, or the fetch is refused (20_memory.md R61). -/
inductive FetchCoherent where
  | coherent
  | refuseSmc
  deriving DecidableEq, Repr, Inhabited

/-- AA_BIT4_FORM: the meaning of an Address Arithmetic word with bit 8 = 0 and bit 4 = 1 (46_address_arithmetic.md R242). -/
inductive AaBit4Form where
  | imm16
  | dontCare
  | refuse
  deriving DecidableEq, Repr, Inhabited

/-- SR_LAYOUT: the bit positions of C, O, N, Z in SR (00_scope.md R7, 10_state.md R30); whatever else SR holds has the other
bits. That SR has the 16 bits of the GPR it is moved from is a DESIGN CHOICE, unsafe (log 36). The interrupt masks have no
place in it: nothing but SETIM, CLRIM and RESET writes them, and nothing reads them (60_exceptions.md R272; log 12). -/
structure SrLayout where
  c : BitVec 4
  o : BitVec 4
  n : BitVec 4
  z : BitVec 4
  deriving DecidableEq, Repr, Inhabited

/-- The bits of SR that are a flag's (41_mov.md R155). -/
def SrLayout.positions (l : SrLayout) : List (BitVec 4) := [l.c, l.o, l.n, l.z]

/-- No two flags share a bit of SR: what SR_LAYOUT, a bit map, gives (00_scope.md R7). -/
def SrLayout.Distinct (l : SrLayout) : Prop := l.positions.Nodup

/-- BYTE_ORDER, OPEN in the spec (decision D2) and taken as an argument of the model (00_scope.md R7); nothing says which of
its values it is, and no step depends on it (20_memory.md R52). Safe (log 1). -/
opaque Config.byteOrder : ByteOrder

/-- draw(1): the n-th one-bit value the source does not determine (00_scope.md R10). DESIGN CHOICE, safe (log 22). -/
opaque Config.freeBit : Nat → Bool

/-- draw(16): the n-th 16-bit value the source does not determine (00_scope.md R10). DESIGN CHOICE, safe (log 22). -/
opaque Config.freeWord : Nat → Word

/-- LOGIC_CO, taken as an argument of the model (00_scope.md R7); nothing says which of its values it is. Safe (log 9). -/
opaque Config.logicCo : LogicCo

end Sys2Proof
end

