-- ==== Sys2Proof/Machine/Params.lean ====
section
/-! DEFINITION. The parameters of 00_scope.md R7 whose default the model adopts. Each default is the spec's own choice
(92_eei_decisions.md), not the source's; the operations that read a parameter model its other values too. -/

namespace Sys2Proof.Params

/-- ODD_ADDRESS (decision D3). DESIGN CHOICE, safe (log 2). -/
def oddAddress : OddAddress := .refuse

/-- MP_HIGH_FIRST: the even register of a pair holds address bits 31..16 (decision D4). DESIGN CHOICE, unsafe (log 3). -/
def mpHighFirst : Bool := true

/-- PC_BASE (decision D5). DESIGN CHOICE, unsafe (log 4). -/
def pcBase : PcBase := .next

/-- JSR_SP_UPDATE (decision D6). DESIGN CHOICE, unsafe (log 5). -/
def jsrSpUpdate : JsrSpUpdate := .none

/-- LDIM_EXTEND (decision D8). DESIGN CHOICE, unsafe (log 6). -/
def ldimExtend : LdimExtend := .zero

/-- NOT_IMM_AFTER_EXTEND (decision D9). DESIGN CHOICE, unsafe (log 7). -/
def notImmAfterExtend : Bool := true

/-- FETCH_COHERENT (decision D18). DESIGN CHOICE, safe (log 15). -/
def fetchCoherent : FetchCoherent := .refuseSmc

/-- RESET_PC, the address of the first instruction after reset (decision D15). DESIGN CHOICE, unsafe (log 18). -/
def resetPc : Addr := 0x00000000

/-- AA_BIT4_FORM (decision D26): the model's treatment is to refuse. DESIGN CHOICE, safe (log 24). -/
def aaBit4Form : AaBit4Form := .refuse

/-- SUB_CARRY, the default: the value of State.reset (decision D10). DESIGN CHOICE, safe (log 8). -/
def subCarry : SubCarry := .unspecified

/-- SR_LAYOUT, the default: OPEN, the value of State.reset (decision D11). DESIGN CHOICE, safe (log 12). -/
def srLayout : Option SrLayout := none

end Sys2Proof.Params
end

