-- ==== Sys2Proof/Syntax.lean ====
section
/-! DEFINITION. The instructions: one constructor per row of spec/opcode_table.json, operands as the formats of
30_encoding.md R84 give them. Bits a layout marks as don't care are no operand (R83). -/

namespace Sys2Proof

/-- A Memory Pointer pair named by a 2-bit index (30_encoding.md R87). -/
inductive Pair where
  | pc
  | sp
  | fp
  | bp
  deriving DecidableEq, Repr

/-- A register file, selected by a file bit: 0 GPR, 1 MP (30_encoding.md R86). -/
inductive RegFile where
  | gpr
  | mp
  deriving DecidableEq, Repr

/-- The register an indirect access transfers: file and number (44_indirect_load_store.md R209). -/
structure Reg where
  file : RegFile
  num : RegNo
  deriving DecidableEq, Repr

/-- The instructions and the reserved patterns of the opcode table (30_encoding.md R88, R89). -/
inductive Instr where
  -- ALU with an 8-bit constant
  | addi (a : RegNo) (c : Byte)
  | subi (a : RegNo) (c : Byte)
  | xori (a : RegNo) (c : Byte)
  | xnori (a : RegNo) (c : Byte)
  | ori (a : RegNo) (c : Byte)
  | orni (a : RegNo) (c : Byte)
  | andi (a : RegNo) (c : Byte)
  | andni (a : RegNo) (c : Byte)
  -- ALU between registers
  | add (y a b : RegNo)
  | sub (y a b : RegNo)
  | addc (y a b : RegNo)
  | subc (y a b : RegNo)
  | xor (y a b : RegNo)
  | xnor (y a b : RegNo)
  | or (y a b : RegNo)
  | orn (y a b : RegNo)
  | and (y a b : RegNo)
  | andn (y a b : RegNo)
  -- ALU without a destination; TST has a meaning but no encoding (40_alu.md R134)
  | teq (a b : RegNo)
  | tcm (a b : RegNo)
  | cmn (a b : RegNo)
  | cmp (a b : RegNo)
  | tst (a b : RegNo)
  -- reserved ALU patterns
  | rsv1 (op : BitVec 3)
  | rsv2op6
  | rsv2op7
  -- regular moves: rB rA, mpB mpA, mpB rA, rB mpA
  | movRR (d s : RegNo)
  | movMM (d s : RegNo)
  | movMR (d s : RegNo)
  | movRM (d s : RegNo)
  -- special moves
  | movsRSr (d : RegNo)
  | movsSrR (s : RegNo)
  | movsRMdb (d : RegNo)
  | movsMdbR (s : RegNo)
  | movsIvbR (s : RegNo)
  | movsRIvb (d : RegNo)
  -- reserved special moves
  | rsv3
  | rsv6ReadSr
  | rsv6ReadMdb
  | rsv6ReadIvb
  | rsv6WriteSr
  | rsv6WriteMdb
  | rsv6WriteIvb
  -- immediate loads
  | ldir (d : RegNo) (v : Word)
  | ldim (p : Pair) (v : BitVec 25)
  -- direct loads and stores; `a` is the 24-bit word address
  | lddR (d : RegNo) (a : BitVec 24)
  | stdR (s : RegNo) (a : BitVec 24)
  | lddM (d : RegNo) (a : BitVec 24)
  | stdM (s : RegNo) (a : BitVec 24)
  -- indirect loads and stores
  | ld (r : Reg) (p : Pair)
  | st (r : Reg) (p : Pair)
  | ldStar (r : Reg) (p : Pair)
  | stStar (r : Reg) (p : Pair)
  | ldr (r : Reg) (p : Pair) (o : RegNo)
  | str (r : Reg) (p : Pair) (o : RegNo)
  | ldo (r : Reg) (p : Pair) (off : Word)
  | sto (r : Reg) (p : Pair) (off : Word)
  | ldpostr (r : Reg) (p : Pair) (o : RegNo)
  | stpostr (r : Reg) (p : Pair) (o : RegNo)
  | ldposto (r : Reg) (p : Pair) (off : Word)
  | stposto (r : Reg) (p : Pair) (off : Word)
  | ldprer (r : Reg) (p : Pair) (o : RegNo)
  | stprer (r : Reg) (p : Pair) (o : RegNo)
  | ldpreo (r : Reg) (p : Pair) (off : Word)
  | stpreo (r : Reg) (p : Pair) (off : Word)
  -- jumps
  | j (off : BitVec 24)
  | jz (off : BitVec 24)
  | jn (off : BitVec 24)
  | jo (off : BitVec 24)
  | jc (off : BitVec 24)
  | jnz (off : BitVec 24)
  | jnn (off : BitVec 24)
  | jno (off : BitVec 24)
  | jnc (off : BitVec 24)
  | jsr (off : BitVec 24)
  -- the six unassigned conditions, by their 4-bit code
  | rsv5c3
  | rsv5c5
  | rsv5c6
  | rsv5c9
  | rsv5c10
  | rsv5c12
  -- Address Arithmetic
  | addp (p : Pair) (r : RegNo)
  | addpo (p : Pair) (off : Word)
  | addpi (p : Pair) (off : BitVec 24)
  -- miscellaneous
  | nop
  | hlt
  | reset
  | dma
  | eint (i : Byte)
  | setpr (n : RegNo)
  | clrim (m : RegNo)
  | setim (m : RegNo)
  deriving DecidableEq, Repr

end Sys2Proof
end

