-- ==== Sys2Proof/WellFormed.lean ====
section
/-! DEFINITION. Which instructions have words at all. Register numbers, pairs and immediates carry their width in their
type, so the one check left is that the source gives the instruction an encoding. -/

namespace Sys2Proof

/-- An instruction the encoding tables give words to. TST alone has none: "Encoding: lost. Only bit 15 = 1 survives."
(40_alu.md R134). -/
def Instr.wellFormed : Instr → Bool
  | .tst _ _ => false
  | .addi .. | .subi .. | .xori .. | .xnori .. | .ori .. | .orni .. | .andi .. | .andni .. => true
  | .add .. | .sub .. | .addc .. | .subc .. | .xor .. | .xnor .. | .or .. | .orn .. | .and .. | .andn .. => true
  | .teq .. | .tcm .. | .cmn .. | .cmp .. | .rsv1 .. | .rsv2op6 | .rsv2op7 => true
  | .movRR .. | .movMM .. | .movMR .. | .movRM .. => true
  | .movsRSr .. | .movsSrR .. | .movsRMdb .. | .movsMdbR .. | .movsRIvb .. | .movsIvbR .. => true
  | .rsv3 | .rsv6ReadSr | .rsv6ReadMdb | .rsv6ReadIvb | .rsv6WriteSr | .rsv6WriteMdb | .rsv6WriteIvb => true
  | .ldir .. | .ldim .. | .lddR .. | .stdR .. | .lddM .. | .stdM .. => true
  | .ld .. | .st .. | .ldStar .. | .stStar .. | .ldr .. | .str .. | .ldo .. | .sto .. => true
  | .ldpostr .. | .stpostr .. | .ldposto .. | .stposto .. => true
  | .ldprer .. | .stprer .. | .ldpreo .. | .stpreo .. => true
  | .j .. | .jz .. | .jn .. | .jo .. | .jc .. | .jnz .. | .jnn .. | .jno .. | .jnc .. | .jsr .. => true
  | .rsv5c3 | .rsv5c5 | .rsv5c6 | .rsv5c9 | .rsv5c10 | .rsv5c12 => true
  | .addp .. | .addpo .. | .addpi .. => true
  | .nop | .hlt | .reset | .dma | .eint .. | .setpr .. | .clrim .. | .setim .. => true

end Sys2Proof
end

