-- ==== Sys2Proof/Decode.lean ====
section
/-! DEFINITION. Decoding (30_encoding.md R80 to R90), total on any bytes, and after it the encoder written from the same
tables. A value v[hi:lo] of the spec is `bits v hi lo`. -/

namespace Sys2Proof

/-- The slice v[hi:lo] as a number (00_scope.md R9). -/
def bits (v : Word) (hi lo : Nat) : Nat := v.toNat / 2 ^ lo % 2 ^ (hi + 1 - lo)

/-- The 3-bit register field whose lowest bit is bit `lo` (30_encoding.md R86). -/
def regAt (v : Word) (lo : Nat) : RegNo := BitVec.ofNat 3 (bits v (lo + 2) lo)

/-- The pair of a 2-bit index: 0 PC, 1 SP, 2 FP, 3 BP (30_encoding.md R87). -/
def Pair.ofIndex (n : Nat) : Pair :=
  match n with
  | 0 => .pc
  | 1 => .sp
  | 2 => .fp
  | _ => .bp

/-- The 2-bit index of a pair (30_encoding.md R87). -/
def Pair.index : Pair → Nat
  | .pc => 0
  | .sp => 1
  | .fp => 2
  | .bp => 3

/-- The register of a 4-bit field: file bit 11, number in bits 10:8 (30_encoding.md R84 table F-IND). -/
def transferReg (w1 : Word) : Reg :=
  ⟨if bits w1 11 11 = 1 then .mp else .gpr, regAt w1 8⟩

/-- The 4-bit field of a transferred register. -/
def Reg.nibble (r : Reg) : Nat :=
  (match r.file with | .gpr => 0 | .mp => 8) + r.num.toNat

/-- An immediate of 24 bits, its top 8 in the first word (30_encoding.md R85). -/
def imm24 (w1 w2 : Word) : BitVec 24 := BitVec.ofNat 24 (bits w1 7 0 * 2 ^ 16 + w2.toNat)

/-- The 25-bit value of LDim, its top 9 bits in the first word (30_encoding.md R85). -/
def imm25 (w1 w2 : Word) : BitVec 25 := BitVec.ofNat 25 (bits w1 8 0 * 2 ^ 16 + w2.toNat)

/-- The 8-bit constant of F-ALUI and the interrupt number of EINT (30_encoding.md R85). -/
def imm8 (w1 : Word) : Byte := BitVec.ofNat 8 (bits w1 7 0)

/-- Format F-ALUI (30_encoding.md R84). -/
def decodeAluConst (w1 : Word) : Instr :=
  let a := regAt w1 8
  let c := imm8 w1
  match bits w1 14 12 with
  | 0 => .addi a c
  | 1 => .subi a c
  | 2 => .xori a c
  | 3 => .xnori a c
  | 4 => .ori a c
  | 5 => .orni a c
  | 6 => .andi a c
  | _ => .andni a c

/-- Format F-ALUR with variant bit 3 = 0 (30_encoding.md R84). -/
def decodeAluReg (w1 : Word) : Instr :=
  let y := regAt w1 8
  let a := regAt w1 5
  let b := regAt w1 0
  match bits w1 14 12 with
  | 0 => .add y a b
  | 1 => .sub y a b
  | 2 => .xor y a b
  | 3 => .xnor y a b
  | 4 => .or y a b
  | 5 => .orn y a b
  | 6 => .and y a b
  | _ => .andn y a b

/-- Format F-ALUR with variant bit 3 = 1 (30_encoding.md R84, R89 RSV2). -/
def decodeAluVariant (w1 : Word) : Instr :=
  let y := regAt w1 8
  let a := regAt w1 5
  let b := regAt w1 0
  match bits w1 14 12 with
  | 0 => .addc y a b
  | 1 => .subc y a b
  | 2 => .teq a b
  | 3 => .tcm a b
  | 4 => .cmn a b
  | 5 => .cmp a b
  | 6 => .rsv2op6
  | _ => .rsv2op7

/-- ALU words (30_encoding.md R81); the register form with bit 4 = 1 is RSV1 (R89). -/
def decodeAlu (w1 : Word) : Instr :=
  if bits w1 11 11 = 1 then decodeAluConst w1
  else if bits w1 4 4 = 1 then .rsv1 (BitVec.ofNat 3 (bits w1 14 12))
  else if bits w1 3 3 = 0 then decodeAluReg w1
  else decodeAluVariant w1

/-- Format F-MOV (30_encoding.md R84): file bits 11 (destination) and 4 (source). -/
def decodeMov (w1 : Word) : Instr :=
  let d := regAt w1 8
  let s := regAt w1 5
  if bits w1 11 11 = 0 then
    if bits w1 4 4 = 0 then .movRR d s else .movRM d s
  else
    if bits w1 4 4 = 0 then .movMR d s else .movMM d s

/-- Format F-MOVS (30_encoding.md R84): bit 2 is the direction, bits 1:0 the special register, and the file bit of the
used register field must be 0 (41_mov.md R161). -/
def decodeMovs (w1 : Word) : Instr :=
  if bits w1 2 2 = 0 then
    match bits w1 1 0 with
    | 0 => .rsv3
    | 1 => if bits w1 11 11 = 0 then .movsRSr (regAt w1 8) else .rsv6ReadSr
    | 2 => if bits w1 11 11 = 0 then .movsRMdb (regAt w1 8) else .rsv6ReadMdb
    | _ => if bits w1 11 11 = 0 then .movsRIvb (regAt w1 8) else .rsv6ReadIvb
  else
    match bits w1 1 0 with
    | 0 => .rsv3
    | 1 => if bits w1 4 4 = 0 then .movsSrR (regAt w1 5) else .rsv6WriteSr
    | 2 => if bits w1 4 4 = 0 then .movsMdbR (regAt w1 5) else .rsv6WriteMdb
    | _ => if bits w1 4 4 = 0 then .movsIvbR (regAt w1 5) else .rsv6WriteIvb

/-- Formats F-LDIR and F-LDIM (30_encoding.md R84). -/
def decodeLoadImm (w1 w2 : Word) : Instr :=
  if bits w1 11 11 = 0 then .ldir (regAt w1 8) w2
  else .ldim (Pair.ofIndex (bits w1 10 9)) (imm25 w1 w2)

/-- Format F-DIR (30_encoding.md R84): bit 12 load or store, bit 11 the file. -/
def decodeDirect (w1 w2 : Word) : Instr :=
  let r := regAt w1 8
  let a := imm24 w1 w2
  if bits w1 12 12 = 0 then
    if bits w1 11 11 = 0 then .lddR r a else .lddM r a
  else
    if bits w1 11 11 = 0 then .stdR r a else .stdM r a

/-- Format F-IND (30_encoding.md R84): bits 4, 3, 2 are u, pre, imm (44_indirect_load_store.md R191, R192). -/
def decodeIndirect (w1 w2 : Word) : Instr :=
  let r := transferReg w1
  let p := Pair.ofIndex (bits w1 1 0)
  let o := regAt w1 5
  if bits w1 12 12 = 0 then
    match bits w1 4 2 with
    | 0 => .ld r p
    | 1 => .ldStar r p
    | 2 => .ldr r p o
    | 3 => .ldo r p w2
    | 4 => .ldpostr r p o
    | 5 => .ldposto r p w2
    | 6 => .ldprer r p o
    | _ => .ldpreo r p w2
  else
    match bits w1 4 2 with
    | 0 => .st r p
    | 1 => .stStar r p
    | 2 => .str r p o
    | 3 => .sto r p w2
    | 4 => .stpostr r p o
    | 5 => .stposto r p w2
    | 6 => .stprer r p o
    | _ => .stpreo r p w2

/-- Format F-JMP (30_encoding.md R84): the condition codes of 45_jumps.md R220; the six others are RSV5 (R231). -/
def decodeJump (w1 w2 : Word) : Instr :=
  let off := imm24 w1 w2
  match bits w1 11 8 with
  | 0 => .j off
  | 1 => .jz off
  | 2 => .jn off
  | 3 => .rsv5c3
  | 4 => .jo off
  | 5 => .rsv5c5
  | 6 => .rsv5c6
  | 7 => .jnc off
  | 8 => .jc off
  | 9 => .rsv5c9
  | 10 => .rsv5c10
  | 11 => .jno off
  | 12 => .rsv5c12
  | 13 => .jnn off
  | 14 => .jnz off
  | _ => .jsr off

/-- Format F-AA (30_encoding.md R84), the forms as 90_conflicts.md C1 resolves them. -/
def decodeAddrArith (w1 w2 : Word) : Instr :=
  let p := Pair.ofIndex (bits w1 10 9)
  if bits w1 8 8 = 1 then .addpi p (imm24 w1 w2)
  else if bits w1 4 4 = 0 then .addp p (regAt w1 5)
  else if Params.aaBit4Form = .dontCare then .addp p (regAt w1 5)
  else .addpo p w2

/-- Format F-MISC (30_encoding.md R84). -/
def decodeMisc (w1 : Word) : Instr :=
  let n := regAt w1 5
  match bits w1 10 8 with
  | 0 => .nop
  | 1 => .hlt
  | 2 => .reset
  | 3 => .dma
  | 4 => .eint (imm8 w1)
  | 5 => .setpr n
  | 6 => .clrim n
  | _ => .setim n

/-- The instruction of a first word and its extension word, by the type table of 30_encoding.md R81. The extension word of
a one-word instruction plays no part. -/
def decodeWords (w1 w2 : Word) : Instr :=
  match bits w1 15 12 with
  | 0 => if bits w1 11 11 = 1 then decodeAddrArith w1 w2 else decodeMisc w1
  | 1 => decodeJump w1 w2
  | 2 => decodeLoadImm w1 w2
  | 3 => if bits w1 3 3 = 0 then decodeMov w1 else decodeMovs w1
  | 4 => decodeDirect w1 w2
  | 5 => decodeDirect w1 w2
  | 6 => decodeIndirect w1 w2
  | 7 => decodeIndirect w1 w2
  | _ => decodeAlu w1

/-- Length of an instruction in words, from its first word alone (30_encoding.md R82; one for every ALU instruction, 40_alu.md
R110, R137). -/
def lengthWords (w1 : Word) : Nat :=
  match bits w1 15 12 with
  | 0 =>
    if bits w1 11 11 = 1 then
      if bits w1 8 8 = 1 then 2
      else if bits w1 4 4 = 0 then 1
      else if Params.aaBit4Form = .dontCare then 1
      else 2
    else 1
  | 1 => 2
  | 2 => 2
  | 3 => 1
  | 4 => 2
  | 5 => 2
  | 6 => if bits w1 2 2 = 1 then 2 else 1
  | 7 => if bits w1 2 2 = 1 then 2 else 1
  | _ => 1

/-- A word from its two halves of 8 bits, bits 15..8 first. -/
def joinBytes (hi lo : Byte) : Word := BitVec.ofNat 16 (hi.toNat * 2 ^ 8 + lo.toNat)

/-- v[15:8] (00_scope.md R9). -/
def highByte (v : Word) : Byte := BitVec.ofNat 8 (v.toNat / 2 ^ 8)

/-- v[7:0] (00_scope.md R9). -/
def lowByte (v : Word) : Byte := BitVec.ofNat 8 v.toNat

/-- The word of two bytes, the one at the lower address first, under a byte order (20_memory.md R52). -/
def wordOfBytes (order : ByteOrder) (b0 b1 : Byte) : Word :=
  match order with
  | .big => joinBytes b0 b1
  | .little => joinBytes b1 b0

/-- The byte of a word at the lower address under a byte order (20_memory.md R52). -/
def firstByte (order : ByteOrder) (v : Word) : Byte :=
  match order with
  | .big => highByte v
  | .little => lowByte v

/-- The byte of a word at the higher address under a byte order (20_memory.md R52). -/
def secondByte (order : ByteOrder) (v : Word) : Byte :=
  match order with
  | .big => lowByte v
  | .little => highByte v

/-- The bytes of a list of words, by rising address, under a byte order. -/
def bytesOfWords (order : ByteOrder) : List Word → List Byte
  | [] => []
  | v :: vs => firstByte order v :: secondByte order v :: bytesOfWords order vs

/-- Why bytes are no instruction. Every first word has a row of the opcode table, so bytes can only be too few. -/
inductive DecodeError where
  /-- Fewer bytes than the instruction's length (30_encoding.md R82). -/
  | truncated
  deriving DecidableEq, Repr

/-- Decoding of bytes by rising address, under a byte order: the instruction they begin with and the bytes after it. -/
def decode (order : ByteOrder) : List Byte → Except DecodeError (Instr × List Byte)
  | b0 :: b1 :: bs =>
    let w1 := wordOfBytes order b0 b1
    if lengthWords w1 = 1 then .ok (decodeWords w1 0, bs)
    else
      match bs with
      | b2 :: b3 :: rest => .ok (decodeWords w1 (wordOfBytes order b2 b3), rest)
      | _ => .error .truncated
  | _ => .error .truncated

/-- The instruction the decoder reads from an instruction whose bits are `w`, bit 0 the lowest of the first word and a
second word from bit 16 on; bits from `nbits` up are 0. The words are laid out and read in one and the same byte order;
any order gives the same (`decodeTableWord_any_order`; log 1). -/
def decodeTableWord (nbits w : Nat) : Option Instr :=
  let v := w % 2 ^ nbits
  match decode .big (bytesOfWords .big [BitVec.ofNat 16 v, BitVec.ofNat 16 (v / 2 ^ 16)]) with
  | .ok (i, _) => some i
  | .error _ => none

/-- A word from the sum of its fields, each shifted to its place. -/
def word (n : Nat) : Word := BitVec.ofNat 16 n

/-- The words of an instruction (30_encoding.md R84, R88), don't-care bits 0 (R83); TST has none (40_alu.md R134), and the
unassigned jump conditions keep the extension word every jump has (45_jumps.md R231). -/
def encode : Instr → Option (List Word)
  | .addi a c => some [word (0x8800 + a.toNat * 2 ^ 8 + c.toNat)]
  | .subi a c => some [word (0x9800 + a.toNat * 2 ^ 8 + c.toNat)]
  | .xori a c => some [word (0xA800 + a.toNat * 2 ^ 8 + c.toNat)]
  | .xnori a c => some [word (0xB800 + a.toNat * 2 ^ 8 + c.toNat)]
  | .ori a c => some [word (0xC800 + a.toNat * 2 ^ 8 + c.toNat)]
  | .orni a c => some [word (0xD800 + a.toNat * 2 ^ 8 + c.toNat)]
  | .andi a c => some [word (0xE800 + a.toNat * 2 ^ 8 + c.toNat)]
  | .andni a c => some [word (0xF800 + a.toNat * 2 ^ 8 + c.toNat)]
  | .add y a b => some [word (0x8000 + y.toNat * 2 ^ 8 + a.toNat * 2 ^ 5 + b.toNat)]
  | .sub y a b => some [word (0x9000 + y.toNat * 2 ^ 8 + a.toNat * 2 ^ 5 + b.toNat)]
  | .addc y a b => some [word (0x8008 + y.toNat * 2 ^ 8 + a.toNat * 2 ^ 5 + b.toNat)]
  | .subc y a b => some [word (0x9008 + y.toNat * 2 ^ 8 + a.toNat * 2 ^ 5 + b.toNat)]
  | .xor y a b => some [word (0xA000 + y.toNat * 2 ^ 8 + a.toNat * 2 ^ 5 + b.toNat)]
  | .xnor y a b => some [word (0xB000 + y.toNat * 2 ^ 8 + a.toNat * 2 ^ 5 + b.toNat)]
  | .or y a b => some [word (0xC000 + y.toNat * 2 ^ 8 + a.toNat * 2 ^ 5 + b.toNat)]
  | .orn y a b => some [word (0xD000 + y.toNat * 2 ^ 8 + a.toNat * 2 ^ 5 + b.toNat)]
  | .and y a b => some [word (0xE000 + y.toNat * 2 ^ 8 + a.toNat * 2 ^ 5 + b.toNat)]
  | .andn y a b => some [word (0xF000 + y.toNat * 2 ^ 8 + a.toNat * 2 ^ 5 + b.toNat)]
  | .teq a b => some [word (0xA008 + a.toNat * 2 ^ 5 + b.toNat)]
  | .tcm a b => some [word (0xB008 + a.toNat * 2 ^ 5 + b.toNat)]
  | .cmn a b => some [word (0xC008 + a.toNat * 2 ^ 5 + b.toNat)]
  | .cmp a b => some [word (0xD008 + a.toNat * 2 ^ 5 + b.toNat)]
  | .tst _ _ => none
  | .rsv1 op => some [word (0x8010 + op.toNat * 2 ^ 12)]
  | .rsv2op6 => some [word 0xE008]
  | .rsv2op7 => some [word 0xF008]
  | .movRR d s => some [word (0x3000 + d.toNat * 2 ^ 8 + s.toNat * 2 ^ 5)]
  | .movMM d s => some [word (0x3810 + d.toNat * 2 ^ 8 + s.toNat * 2 ^ 5)]
  | .movMR d s => some [word (0x3800 + d.toNat * 2 ^ 8 + s.toNat * 2 ^ 5)]
  | .movRM d s => some [word (0x3010 + d.toNat * 2 ^ 8 + s.toNat * 2 ^ 5)]
  | .movsRSr d => some [word (0x3009 + d.toNat * 2 ^ 8)]
  | .movsSrR s => some [word (0x300D + s.toNat * 2 ^ 5)]
  | .movsRMdb d => some [word (0x300A + d.toNat * 2 ^ 8)]
  | .movsMdbR s => some [word (0x300E + s.toNat * 2 ^ 5)]
  | .movsRIvb d => some [word (0x300B + d.toNat * 2 ^ 8)]
  | .movsIvbR s => some [word (0x300F + s.toNat * 2 ^ 5)]
  | .rsv3 => some [word 0x3008]
  | .rsv6ReadSr => some [word 0x3809]
  | .rsv6ReadMdb => some [word 0x380A]
  | .rsv6ReadIvb => some [word 0x380B]
  | .rsv6WriteSr => some [word 0x301D]
  | .rsv6WriteMdb => some [word 0x301E]
  | .rsv6WriteIvb => some [word 0x301F]
  | .ldir d v => some [word (0x2000 + d.toNat * 2 ^ 8), v]
  | .ldim p v => some [word (0x2800 + p.index * 2 ^ 9 + v.toNat / 2 ^ 16), word v.toNat]
  | .lddR d a => some [word (0x4000 + d.toNat * 2 ^ 8 + a.toNat / 2 ^ 16), word a.toNat]
  | .stdR s a => some [word (0x5000 + s.toNat * 2 ^ 8 + a.toNat / 2 ^ 16), word a.toNat]
  | .lddM d a => some [word (0x4800 + d.toNat * 2 ^ 8 + a.toNat / 2 ^ 16), word a.toNat]
  | .stdM s a => some [word (0x5800 + s.toNat * 2 ^ 8 + a.toNat / 2 ^ 16), word a.toNat]
  | .ld r p => some [word (0x6000 + r.nibble * 2 ^ 8 + p.index)]
  | .st r p => some [word (0x7000 + r.nibble * 2 ^ 8 + p.index)]
  | .ldStar r p => some [word (0x6004 + r.nibble * 2 ^ 8 + p.index), 0]
  | .stStar r p => some [word (0x7004 + r.nibble * 2 ^ 8 + p.index), 0]
  | .ldr r p o => some [word (0x6008 + r.nibble * 2 ^ 8 + o.toNat * 2 ^ 5 + p.index)]
  | .str r p o => some [word (0x7008 + r.nibble * 2 ^ 8 + o.toNat * 2 ^ 5 + p.index)]
  | .ldo r p off => some [word (0x600C + r.nibble * 2 ^ 8 + p.index), off]
  | .sto r p off => some [word (0x700C + r.nibble * 2 ^ 8 + p.index), off]
  | .ldpostr r p o => some [word (0x6010 + r.nibble * 2 ^ 8 + o.toNat * 2 ^ 5 + p.index)]
  | .stpostr r p o => some [word (0x7010 + r.nibble * 2 ^ 8 + o.toNat * 2 ^ 5 + p.index)]
  | .ldposto r p off => some [word (0x6014 + r.nibble * 2 ^ 8 + p.index), off]
  | .stposto r p off => some [word (0x7014 + r.nibble * 2 ^ 8 + p.index), off]
  | .ldprer r p o => some [word (0x6018 + r.nibble * 2 ^ 8 + o.toNat * 2 ^ 5 + p.index)]
  | .stprer r p o => some [word (0x7018 + r.nibble * 2 ^ 8 + o.toNat * 2 ^ 5 + p.index)]
  | .ldpreo r p off => some [word (0x601C + r.nibble * 2 ^ 8 + p.index), off]
  | .stpreo r p off => some [word (0x701C + r.nibble * 2 ^ 8 + p.index), off]
  | .j off => some [word (0x1000 + off.toNat / 2 ^ 16), word off.toNat]
  | .jz off => some [word (0x1100 + off.toNat / 2 ^ 16), word off.toNat]
  | .jn off => some [word (0x1200 + off.toNat / 2 ^ 16), word off.toNat]
  | .jo off => some [word (0x1400 + off.toNat / 2 ^ 16), word off.toNat]
  | .jc off => some [word (0x1800 + off.toNat / 2 ^ 16), word off.toNat]
  | .jnz off => some [word (0x1E00 + off.toNat / 2 ^ 16), word off.toNat]
  | .jnn off => some [word (0x1D00 + off.toNat / 2 ^ 16), word off.toNat]
  | .jno off => some [word (0x1B00 + off.toNat / 2 ^ 16), word off.toNat]
  | .jnc off => some [word (0x1700 + off.toNat / 2 ^ 16), word off.toNat]
  | .jsr off => some [word (0x1F00 + off.toNat / 2 ^ 16), word off.toNat]
  | .rsv5c3 => some [word 0x1300, 0]
  | .rsv5c5 => some [word 0x1500, 0]
  | .rsv5c6 => some [word 0x1600, 0]
  | .rsv5c9 => some [word 0x1900, 0]
  | .rsv5c10 => some [word 0x1A00, 0]
  | .rsv5c12 => some [word 0x1C00, 0]
  | .addp p r => some [word (0x0800 + p.index * 2 ^ 9 + r.toNat * 2 ^ 5)]
  | .addpo p off => some [word (0x0810 + p.index * 2 ^ 9), off]
  | .addpi p off => some [word (0x0900 + p.index * 2 ^ 9 + off.toNat / 2 ^ 16), word off.toNat]
  | .nop => some [word 0x0000]
  | .hlt => some [word 0x0100]
  | .reset => some [word 0x0200]
  | .dma => some [word 0x0300]
  | .eint i => some [word (0x0400 + i.toNat)]
  | .setpr n => some [word (0x0500 + n.toNat * 2 ^ 5)]
  | .clrim m => some [word (0x0600 + m.toNat * 2 ^ 5)]
  | .setim m => some [word (0x0700 + m.toNat * 2 ^ 5)]

end Sys2Proof
end

