-- ==== Sys2Proof/Machine/State.lean ====
section
/-! DEFINITION. The state of the machine (10_state.md R20), the reasons a step can stop, and the state after reset
(10_state.md R39). -/

namespace Sys2Proof.Machine

/-- Run state (10_state.md R36). -/
inductive RunState where
  /-- The CPU executes instructions. -/
  | running
  /-- Entered by HLT: the clock does not reach the CPU until Resume or Reset. -/
  | halted
  /-- Entered by DMA: the clock does not reach the CPU and memory may be changed from outside. -/
  | dma
  deriving DecidableEq, Repr

/-- An event of the host (70_reset_and_hazards.md R309). -/
inductive HostEvent where
  /-- The Reset button, in any run state. -/
  | reset
  /-- The Resume button, only in `halted`. -/
  | resume
  /-- A write of a memory word from outside, only in `dma`. -/
  | dmaWrite (addr : Addr) (value : Word)
  /-- Clock propagation is switched on again, only in `dma`. -/
  | dmaDone
  deriving DecidableEq, Repr

/-- Memory as 16-bit words at even addresses (20_memory.md R51, decision D2), each in two (address, byte) cells: bits 15..8
at the word's even address, bits 7..0 at the odd one after it. Which byte address of the two each half has is BYTE_ORDER's
(`Memory.byteAt`; log 1). The canonical form is: addresses strictly rising. An address that is not listed reads as no value
(nothing has written it since power-on, R51; log 16), so no listed byte equals it. -/
abbrev Memory := List Host.Cell

/-- Faults. There are none: "The source defines no synchronous exception" (60_exceptions.md R270), and an undefined case
is a refusal, not a fault, because "the chip has no trap mechanism to take" (R277). Safe (log 30). -/
inductive Fault where
  deriving DecidableEq, Repr

/-- Refusals: the cases to which the spec gives no meaning, `refuse(reason)` of 00_scope.md R11. All are safe: the machine
may go on where the model stops. -/
inductive Refusal where
  /-- Raised by exec's arms for an instruction without a meaning; no arm is left so. Safe. -/
  | notModelled (mnemonic : String)
  /-- Raised by the patterns RSV1, RSV2, RSV3, RSV5, RSV6 (30_encoding.md R89). Safe. -/
  | reservedEncoding
  /-- Raised by MOVs rB IVB (41_mov.md R159). Safe. -/
  | ivbCannotBeRead
  /-- Raised by a move or load whose destination is mp0 or mp1 (10_state.md R28). Safe. -/
  | halfWriteOfPc
  /-- Raised by a data access at an odd address (20_memory.md R53). Safe. -/
  | oddAddress
  /-- Raised by a fetch at an odd pc and by a write of an odd value to pc (10_state.md R26). Safe. -/
  | oddPc
  /-- Raised by the step when the advance past the instruction wraps (10_state.md R27). Safe. -/
  | pcWrap
  /-- Raised by the fetch of a word the running program has written (20_memory.md R61). Safe. -/
  | selfModifyingCode
  /-- Raised by the step of any instruction under a pending prefix (47_misc.md R255). Safe. -/
  | prefixedInstruction
  /-- Raised by EINT (47_misc.md R254). Safe. -/
  | interruptEntryNotDescribed
  /-- Raised by an indirect access with update whose base is PC (44_indirect_load_store.md R210). Safe. -/
  | updateOfPcByIndirectAccess
  /-- Raised by an indirect access with update that transfers a half of its base pair (44_indirect_load_store.md R211). Safe. -/
  | transferredRegisterInsideUpdatedPair
  /-- Raised by the Address Arithmetic words with bit 8 = 0 and bit 4 = 1 (46_address_arithmetic.md R242). Safe. -/
  | addrArithBit4Form
  /-- Raised by SUBC while SUB_CARRY is unspecified (40_alu.md R123). Safe. -/
  | subcNeedsSubCarry
  /-- Raised by MOVs SR rA while SR_LAYOUT is OPEN (41_mov.md R156). Safe. -/
  | srLayoutUnknown
  deriving DecidableEq, Repr

/-- The state of the machine. -/
structure State where
  /-- The General Purpose Registers r0 to r7 (10_state.md R21). -/
  x : Vector Word 8
  /-- The Program Counter, the pair (mp0, mp1): the address of the next instruction (10_state.md R24). -/
  pc : Addr
  /-- The Stack Pointer, the pair (mp2, mp3) (10_state.md R23). -/
  sp : Addr
  /-- The Frame Pointer, the pair (mp4, mp5) (10_state.md R23). -/
  fp : Addr
  /-- The Base Pointer, the pair (mp6, mp7) (10_state.md R23). -/
  bp : Addr
  /-- The flags, the known part of SR (10_state.md R29, R30). -/
  flags : Flags
  /-- Whatever else SR holds, at its place in SR (10_state.md R30, 70_reset_and_hazards.md R301). The source gives SR no width: the 16 bits are
  those of the GPR it is moved from, a DESIGN CHOICE, unsafe (log 36). -/
  srRest : Word
  /-- MDB (10_state.md R32). -/
  mdb : Word
  /-- IVB, write-only (10_state.md R33). -/
  ivb : Word
  /-- The interrupt mask bits IM[0..7] (10_state.md R31). -/
  im : Vector Bool 8
  /-- The pending SETPR number PFX (10_state.md R35). -/
  pfx : Option (BitVec 3)
  /-- The run state RUN (10_state.md R36). -/
  run : RunState
  /-- Memory (20_memory.md R50). -/
  memory : Memory
  /-- The addresses of the words the running program has written since the last reset or DMA stop, rising
  (20_memory.md R61). -/
  written : List Nat
  /-- The output events recorded so far, oldest first (20_memory.md R56). -/
  outputs : List (Addr × Word)
  /-- The model's own: how many free values have been drawn (log 22). -/
  draws : Nat
  /-- The model's own: what the host does at each step to come, one entry a step, the next one first; `none`, and no entry,
  is nothing (log 20). -/
  hostEvents : List (Option HostEvent)
  /-- SUB_CARRY, the meaning of C after a subtraction, a parameter the model takes as an argument (00_scope.md R7, 40_alu.md
  R111). No step changes it (log 8). -/
  subCarry : SubCarry
  /-- SR_LAYOUT, the places of the flags in SR, or `none` while it is OPEN, a parameter the model takes as an argument
  (00_scope.md R7, 41_mov.md R155, R156). No step changes it (log 12). -/
  srLayout : Option SrLayout
  deriving DecidableEq, Repr

/-- The outcome of a step or a meaning. -/
abbrev Out := Host.Outcome State Fault Refusal

/-- The machine right after reset with nothing placed (10_state.md R39): every register and flag 0, `pc` at RESET_PC,
memory with nothing listed. The model's own fields are DESIGN CHOICE (log 17, 20, 22), and the two parameters have the spec's
default (00_scope.md R7; log 8, 12). -/
def State.reset : State where
  x := Vector.replicate 8 0
  pc := Params.resetPc
  sp := 0
  fp := 0
  bp := 0
  flags := ⟨false, false, false, false⟩
  srRest := 0
  mdb := 0
  ivb := 0
  im := Vector.replicate 8 false
  pfx := none
  run := .running
  memory := []
  written := []
  outputs := []
  draws := 0
  hostEvents := []
  subCarry := Params.subCarry
  srLayout := Params.srLayout

end Sys2Proof.Machine
end

