-- ==== Sys2Proof/Machine/Ops.lean ====
section
/-! DEFINITION. The named operations over registers, pairs, memory and free values, and the reset of the CPU. There is no
operation for taking an exception: the machine has none (60_exceptions.md R270, R275, R276; log 30). -/

namespace Sys2Proof.Machine

/-! ### Free values (00_scope.md R10, R11) -/

/-- draw(1): a bit the source does not determine (log 22). -/
def drawBit (s : State) : Bool × State :=
  (Config.freeBit s.draws, { s with draws := s.draws + 1 })

/-- draw(16): a word the source does not determine (log 22). -/
def drawWord (s : State) : Word × State :=
  (Config.freeWord s.draws, { s with draws := s.draws + 1 })

/-! ### Halves of a pair (10_state.md R23) -/

/-- v[31:16] (00_scope.md R9). -/
def highHalf (v : Addr) : Word := BitVec.ofNat 16 (v.toNat / 2 ^ 16)

/-- v[15:0] (00_scope.md R9). -/
def lowHalf (v : Addr) : Word := BitVec.ofNat 16 v.toNat

/-- The concatenation of two words, the high one first (00_scope.md R9). -/
def joinHalves (h l : Word) : Addr := BitVec.ofNat 32 (h.toNat * 2 ^ 16 + l.toNat)

/-- Whether MP register `i` holds bits 31..16 of its pair (parameter MP_HIGH_FIRST, 10_state.md R23). -/
def holdsHighHalf (i : RegNo) : Bool := (i.toNat % 2 == 0) == Params.mpHighFirst

/-- The half of a pair's value that MP register `i` of the pair holds (10_state.md R23). -/
def halfOf (i : RegNo) (v : Addr) : Word := if holdsHighHalf i then highHalf v else lowHalf v

/-- A pair's value with the half that MP register `i` holds replaced (10_state.md R23). -/
def withHalf (i : RegNo) (h : Word) (v : Addr) : Addr :=
  if holdsHighHalf i then joinHalves h (lowHalf v) else joinHalves (highHalf v) h

/-- The pair MP register `i` is part of: pair p is mp[2p], mp[2p+1] (10_state.md R23). -/
def pairOfMp (i : RegNo) : Pair := Pair.ofIndex (i.toNat / 2)

/-! ### The program counter (10_state.md R24, R25) -/

/-- pc_next, the address after an instruction of `len` words (10_state.md R24). -/
def pcNext (len : Nat) (s : State) : Addr := s.pc + BitVec.ofNat 32 (2 * len)

/-- The value an instruction of `len` words reads when it names PC as data (parameter PC_BASE, 10_state.md R25). -/
def pcAsData (len : Nat) (s : State) : Addr :=
  match Params.pcBase with
  | .next => pcNext len s
  | .own => s.pc
  | .secondWord => s.pc + 2

/-- An instruction of `len` words that does not write pc leaves it at pc_next (10_state.md R24). -/
def advance (len : Nat) (s : State) : State := { s with pc := pcNext len s }

/-- A write of the whole PC: the next instruction is fetched from the target; an odd target is refused under
ODD_ADDRESS = refuse (10_state.md R26). -/
def jumpTo (target : Addr) (s : State) : Out :=
  match Params.oddAddress with
  | .refuse => if target.toNat % 2 = 1 then .refused .oddPc else .next { s with pc := target }
  | .ignoreBit0 => .next { s with pc := target }

/-! ### Registers -/

/-- x[i] (10_state.md R21). -/
def readGpr (i : RegNo) (s : State) : Word := s.x[i.toNat]'i.isLt

/-- x[i] <- v (10_state.md R21). -/
def writeGpr (i : RegNo) (v : Word) (s : State) : State := { s with x := s.x.set i.toNat v i.isLt }

/-- MP[p] as an instruction of `len` words reads it (10_state.md R23, R25). -/
def readPair (len : Nat) (p : Pair) (s : State) : Addr :=
  match p with
  | .pc => pcAsData len s
  | .sp => s.sp
  | .fp => s.fp
  | .bp => s.bp

/-- MP[p] <- v on the stored pair (10_state.md R23). -/
def writePair (p : Pair) (v : Addr) (s : State) : State :=
  match p with
  | .pc => { s with pc := v }
  | .sp => { s with sp := v }
  | .fp => { s with fp := v }
  | .bp => { s with bp := v }

/-- mp[i] as an instruction of `len` words reads it; mp0 and mp1 are halves of the PC it reads (10_state.md R25). -/
def readMp (len : Nat) (i : RegNo) (s : State) : Word := halfOf i (readPair len (pairOfMp i) s)

/-- mp[i] <- v for a register outside PC; the other half of the pair stays (10_state.md R23). -/
def writeMp (i : RegNo) (v : Word) (s : State) : State :=
  match pairOfMp i with
  | .pc => s
  | .sp => { s with sp := withHalf i v s.sp }
  | .fp => { s with fp := withHalf i v s.fp }
  | .bp => { s with bp := withHalf i v s.bp }

/-- R[f,i] (00_scope.md R10). -/
def readReg (len : Nat) (r : Reg) (s : State) : Word :=
  match r.file with
  | .gpr => readGpr r.num s
  | .mp => readMp len r.num s

/-- R[f,i] <- v (00_scope.md R10). -/
def writeReg (r : Reg) (v : Word) (s : State) : State :=
  match r.file with
  | .gpr => writeGpr r.num v s
  | .mp => writeMp r.num v s

/-- Whether MP register `i` is a half of PC, mp0 or mp1 (10_state.md R28). -/
def isPcHalf (i : RegNo) : Bool := pairOfMp i == .pc

/-- A write of an MP register by a move or a load: one half of PC alone is refused (10_state.md R28). -/
def unlessPcHalf (r : Reg) (out : Out) : Out :=
  match r.file with
  | .gpr => out
  | .mp => if isPcHalf r.num then .refused .halfWriteOfPc else out

/-- A write of a whole pair by an instruction of `len` words: of PC it is a jump, of another pair the instruction goes on
(10_state.md R28). -/
def assignPair (len : Nat) (p : Pair) (v : Addr) (s : State) : Out :=
  match p with
  | .pc => jumpTo v s
  | .sp => .next (advance len (writePair .sp v s))
  | .fp => .next (advance len (writePair .fp v s))
  | .bp => .next (advance len (writePair .bp v s))

/-! ### Memory (20_memory.md R50 to R57) -/

/-- The half of a word held at an address, if anything has written it (see `Memory`). -/
def Memory.read : Memory → Nat → Option Byte
  | [], _ => none
  | (k, v) :: m, a => if k = a then some v else Memory.read m a

/-- Store a half of a word, keeping the addresses rising. -/
def Memory.write : Memory → Nat → Byte → Memory
  | [], a, v => [(a, v)]
  | (k, u) :: m, a, v =>
    if a < k then (a, v) :: (k, u) :: m
    else if a = k then (a, v) :: m
    else (k, u) :: Memory.write m a v

/-- The canonical form of memory: addresses strictly rising. -/
abbrev Memory.wf (m : Memory) : Prop := (m.map Prod.fst).Pairwise (· < ·)

/-- M16[a] at an even address, if the word has been written (20_memory.md R51). -/
def Memory.wordAt (m : Memory) (a : Nat) : Option Word :=
  match m.read a, m.read (a + 1) with
  | some hi, some lo => some (joinBytes hi lo)
  | _, _ => none

/-- M16[a] <- v (20_memory.md R51). -/
def Memory.setWord (m : Memory) (a : Nat) (v : Word) : Memory :=
  (m.write a (highByte v)).write (a + 1) (lowByte v)

/-- The byte at a byte address under BYTE_ORDER (20_memory.md R50, R52): under `little` the two halves of a word change
places. No instruction reads a byte, so no step uses this. -/
def Memory.byteAt (m : Memory) (a : Nat) : Option Byte :=
  match Config.byteOrder with
  | .big => m.read a
  | .little => m.read (if a % 2 = 0 then a + 1 else a - 1)

/-- Whether an address is in the I/O range, the top 16 MB (20_memory.md R57). -/
def isIo (a : Addr) : Bool := decide (0xFF000000 ≤ a.toNat)

/-- A data access at an address: refused if odd under ODD_ADDRESS = refuse, else made at the even address
(20_memory.md R53). -/
def withEvenAddress (a : Addr) (access : Addr → Out) : Out :=
  match Params.oddAddress with
  | .refuse => if a.toNat % 2 = 1 then .refused .oddAddress else access a
  | .ignoreBit0 => access (BitVec.ofNat 32 (a.toNat / 2 * 2))

/-- MemRead(a, 2) at an even address: the word written last, and draw(16) in the I/O range and for a word nothing has
written (20_memory.md R51, R56). -/
def memRead (a : Addr) (s : State) : Word × State :=
  if isIo a then drawWord s
  else
    match s.memory.wordAt a.toNat with
    | some v => (v, s)
    | none => drawWord s

/-- Put an address into a rising list of addresses. -/
def insertAddr (a : Nat) : List Nat → List Nat
  | [] => [a]
  | k :: l => if a < k then a :: k :: l else if a = k then k :: l else k :: insertAddr a l

/-- MemWrite(a, 2, v) at an even address by the program: an output event in the I/O range (20_memory.md R56), else a store
that marks the word as written by the program (20_memory.md R51, R61). -/
def memWrite (a : Addr) (v : Word) (s : State) : State :=
  if isIo a then { s with outputs := s.outputs ++ [(a, v)] }
  else { s with memory := s.memory.setWord a.toNat v, written := insertAddr a.toNat s.written }

/-! ### Reset (70_reset_and_hazards.md R301) -/

/-- The reset of the CPU by the RESET instruction or the Reset button: every register, flag and run state as
`State.reset` has it; memory, and what lies outside the CPU, unchanged. -/
def resetCpu (s : State) : State :=
  { State.reset with
    memory := s.memory, outputs := s.outputs, draws := s.draws, hostEvents := s.hostEvents
    subCarry := s.subCarry, srLayout := s.srLayout }

end Sys2Proof.Machine
end

