-- ==== Sys2Proof/Machine/Operands.lean ====
section
/-! DEFINITION. Operand forms: how constants, offsets and addresses of the instruction become values
(30_encoding.md R85). -/

namespace Sys2Proof.Machine

/-- k = zext_16(c), the 8-bit constant of an ALU instruction (30_encoding.md R85). -/
def constWord (c : Byte) : Word := c.zeroExtend 16

/-- The complemented constant of ORNi and ANDNi: complemented after the extension under NOT_IMM_AFTER_EXTEND, else
before it (40_alu.md R117, R119). -/
def notConst (c : Byte) : Word :=
  if Params.notImmAfterExtend then ~~~(constWord c) else constWord (~~~c)

/-- The result of XNORi, complemented as NOT_IMM_AFTER_EXTEND says (40_alu.md R115). -/
def xnorConst (a : Word) (c : Byte) : Word :=
  if Params.notImmAfterExtend then ~~~(a ^^^ constWord c) else a ^^^ constWord (~~~c)

/-- sext_32 of a signed 16-bit byte offset (44_indirect_load_store.md R191). -/
def offset16 (v : Word) : Addr := v.signExtend 32

/-- sext_32 of a signed 24-bit byte offset (45_jumps.md R232). -/
def offset24 (v : BitVec 24) : Addr := v.signExtend 32

/-- The effective byte address of a direct access, sext_32 of the 24-bit word address with a 0 below it
(43_direct_load_store.md R180). -/
def directAddr (a : BitVec 24) : Addr := (BitVec.ofNat 25 (a.toNat * 2)).signExtend 32

/-- The 32-bit value of LDim (42_load_immediate.md R171). -/
def ldimValue (v : BitVec 25) : Addr :=
  match Params.ldimExtend with
  | .zero => v.zeroExtend 32
  | .sign => v.signExtend 32

/-- The target of a jump from an instruction of two words: PC as data plus the offset, modulo 2^32 (45_jumps.md R232). -/
def jumpTarget (off : BitVec 24) (s : State) : Addr := pcAsData 2 s + offset24 off

end Sys2Proof.Machine
end

