-- ==== Sys2Proof/Machine/Flags.lean ====
section
/-! DEFINITION. The ALU: results and flags of additions, subtractions and logic operations (40_alu.md R111), and the
machine operations that write them. N, C of an addition and O are the spec's definitions from general knowledge (log 10). -/

namespace Sys2Proof.Machine

/-- N and Z of a result, with the given C and O (40_alu.md R111). -/
def flagsOf (c o : Bool) (res : Word) : Flags :=
  { c := c, o := o, n := res.msb, z := res == 0 }

/-- add_op: result and flags of a + b + cin (40_alu.md R111). -/
def addOp (a b : Word) (cin : Bool) : Word × Flags :=
  let s17 : BitVec 17 := a.zeroExtend 17 + b.zeroExtend 17 + (BitVec.ofBool cin).zeroExtend 17
  let res : Word := s17.truncate 16
  (res, flagsOf s17.msb (a.msb == b.msb && res.msb != a.msb) res)

/-- C after a subtraction under SUB_CARRY, from the borrow and a free bit (40_alu.md R111; log 8). -/
def carryOfBorrow (subCarry : SubCarry) (borrow free : Bool) : Bool :=
  match subCarry with
  | .borrow => borrow
  | .notBorrow => !borrow
  | .unspecified => free

/-- sub_op: result and flags of a - b - bin; `free` is the bit drawn for C (40_alu.md R111). -/
def subOp (subCarry : SubCarry) (a b : Word) (bin free : Bool) : Word × Flags :=
  let d17 : BitVec 17 := a.zeroExtend 17 - b.zeroExtend 17 - (BitVec.ofBool bin).zeroExtend 17
  let res : Word := d17.truncate 16
  (res, flagsOf (carryOfBorrow subCarry d17.msb free) (a.msb != b.msb && res.msb != a.msb) res)

/-- The borrow SUBC takes in: C or its complement as SUB_CARRY says, and none where it says neither (40_alu.md R123). -/
def borrowIn (subCarry : SubCarry) (c : Bool) : Option Bool :=
  match subCarry with
  | .borrow => some c
  | .notBorrow => some (!c)
  | .unspecified => none

/-- logic_op: the flags of a logic result; C and O as LOGIC_CO says, from the old flags and two free bits
(40_alu.md R111; log 9). -/
def logicFlags (old : Flags) (freeC freeO : Bool) (res : Word) : Flags :=
  match Config.logicCo with
  | .cleared => flagsOf false false res
  | .unchanged => flagsOf old.c old.o res
  | .unspecified => flagsOf freeC freeO res

/-- Write an ALU result to its destination, if it has one (40_alu.md R110, R130). -/
def writeResult (dst : Option RegNo) (res : Word) (s : State) : State :=
  match dst with
  | some y => writeGpr y res s
  | none => s

/-- An addition: result to `dst`, flags, and past one word (40_alu.md R110, R111, R137). -/
def aluAdd (dst : Option RegNo) (a b : Word) (cin : Bool) (s : State) : Out :=
  let (res, f) := addOp a b cin
  .next (advance 1 { writeResult dst res s with flags := f })

/-- A subtraction: result to `dst`, flags, and past one word (40_alu.md R110, R111, R137). -/
def aluSub (dst : Option RegNo) (a b : Word) (bin : Bool) (s : State) : Out :=
  let (free, s1) := drawBit s
  let (res, f) := subOp s.subCarry a b bin free
  .next (advance 1 { writeResult dst res s1 with flags := f })

/-- A logic operation with result `res`: result to `dst`, flags, and past one word (40_alu.md R110, R111, R137). -/
def aluLogic (dst : Option RegNo) (res : Word) (s : State) : Out :=
  let (freeC, s1) := drawBit s
  let (freeO, s2) := drawBit s1
  .next (advance 1 { writeResult dst res s2 with flags := logicFlags s.flags freeC freeO res })

end Sys2Proof.Machine
end

