-- ==== Sys2Proof/Machine/AddrArith.lean ====
section
/-! DEFINITION. The meanings of Address Arithmetic (46_address_arithmetic.md R240 to R246). -/

namespace Sys2Proof.Machine

/-- MP[p] <- MP[p] + off, modulo 2^32; with PC a jump (46_address_arithmetic.md R240, R244). -/
def addToPair (len : Nat) (p : Pair) (off : Addr) (s : State) : Out :=
  assignPair len p (readPair len p s + off) s

/-- ADDp MP rX: add a signed 16-bit value from a GPR (46_address_arithmetic.md R241). -/
def execAddp (p : Pair) (r : RegNo) (s : State) : Out :=
  addToPair 1 p (offset16 (readGpr r s)) s

/-- ADDpo MP off16: refused, the model's treatment of the contested word; under the other values of AA_BIT4_FORM it adds
the immediate (46_address_arithmetic.md R242, 90_conflicts.md C1; log 24). -/
def execAddpo (p : Pair) (off : Word) (s : State) : Out :=
  match Params.aaBit4Form with
  | .refuse => .refused .addrArithBit4Form
  | .imm16 => addToPair 2 p (offset16 off) s
  | .dontCare => addToPair 2 p (offset16 off) s

/-- ADDpi MP off24: add a signed 24-bit immediate (46_address_arithmetic.md R243). -/
def execAddpi (p : Pair) (off : BitVec 24) (s : State) : Out :=
  addToPair 2 p (offset24 off) s

end Sys2Proof.Machine
end

