-- ==== Sys2Proof/Machine/Alu.lean ====
section
/-! DEFINITION. The meanings of the ALU instructions (40_alu.md R112 to R134). -/

namespace Sys2Proof.Machine

/-- ADDi rA c: add a constant to a register (40_alu.md R112). -/
def execAddi (a : RegNo) (c : Byte) (s : State) : Out :=
  aluAdd (some a) (readGpr a s) (constWord c) false s

/-- SUBi rA c: subtract a constant from a register (40_alu.md R113). -/
def execSubi (a : RegNo) (c : Byte) (s : State) : Out :=
  aluSub (some a) (readGpr a s) (constWord c) false s

/-- XORi rA c: exclusive OR with a constant (40_alu.md R114). -/
def execXori (a : RegNo) (c : Byte) (s : State) : Out :=
  aluLogic (some a) (readGpr a s ^^^ constWord c) s

/-- XNORi rA c: complement of the exclusive OR with a constant (40_alu.md R115). -/
def execXnori (a : RegNo) (c : Byte) (s : State) : Out :=
  aluLogic (some a) (xnorConst (readGpr a s) c) s

/-- ORi rA c: OR with a constant (40_alu.md R116). -/
def execOri (a : RegNo) (c : Byte) (s : State) : Out :=
  aluLogic (some a) (readGpr a s ||| constWord c) s

/-- ORNi rA c: OR with the complement of a constant (40_alu.md R117). -/
def execOrni (a : RegNo) (c : Byte) (s : State) : Out :=
  aluLogic (some a) (readGpr a s ||| notConst c) s

/-- ANDi rA c: AND with a constant (40_alu.md R118). -/
def execAndi (a : RegNo) (c : Byte) (s : State) : Out :=
  aluLogic (some a) (readGpr a s &&& constWord c) s

/-- ANDNi rA c: AND with the complement of a constant (40_alu.md R119). -/
def execAndni (a : RegNo) (c : Byte) (s : State) : Out :=
  aluLogic (some a) (readGpr a s &&& notConst c) s

/-- ADD rY rA rB: add two registers (40_alu.md R120). -/
def execAdd (y a b : RegNo) (s : State) : Out :=
  aluAdd (some y) (readGpr a s) (readGpr b s) false s

/-- SUB rY rA rB: subtract the second register from the first (40_alu.md R121). -/
def execSub (y a b : RegNo) (s : State) : Out :=
  aluSub (some y) (readGpr a s) (readGpr b s) false s

/-- ADDC rY rA rB: add two registers and the Carry flag (40_alu.md R122). -/
def execAddc (y a b : RegNo) (s : State) : Out :=
  aluAdd (some y) (readGpr a s) (readGpr b s) s.flags.c s

/-- SUBC rY rA rB: subtract with the Carry flag, the borrow taken in as SUB_CARRY says; "refuse(SUBC needs SUB_CARRY)" while
it is unspecified (40_alu.md R123; log 8). -/
def execSubc (y a b : RegNo) (s : State) : Out :=
  match borrowIn s.subCarry s.flags.c with
  | some bin => aluSub (some y) (readGpr a s) (readGpr b s) bin s
  | none => .refused .subcNeedsSubCarry

/-- XOR rY rA rB: bitwise exclusive OR (40_alu.md R124). -/
def execXor (y a b : RegNo) (s : State) : Out :=
  aluLogic (some y) (readGpr a s ^^^ readGpr b s) s

/-- XNOR rY rA rB: complement of the bitwise exclusive OR (40_alu.md R125). -/
def execXnor (y a b : RegNo) (s : State) : Out :=
  aluLogic (some y) (~~~(readGpr a s ^^^ readGpr b s)) s

/-- OR rY rA rB: bitwise OR (40_alu.md R126). -/
def execOr (y a b : RegNo) (s : State) : Out :=
  aluLogic (some y) (readGpr a s ||| readGpr b s) s

/-- ORN rY rA rB: OR with the complement of the second register (40_alu.md R127). -/
def execOrn (y a b : RegNo) (s : State) : Out :=
  aluLogic (some y) (readGpr a s ||| ~~~(readGpr b s)) s

/-- AND rY rA rB: bitwise AND (40_alu.md R128). -/
def execAnd (y a b : RegNo) (s : State) : Out :=
  aluLogic (some y) (readGpr a s &&& readGpr b s) s

/-- ANDN rY rA rB: AND with the complement of the second register (40_alu.md R129). -/
def execAndn (y a b : RegNo) (s : State) : Out :=
  aluLogic (some y) (readGpr a s &&& ~~~(readGpr b s)) s

/-- TEQ rA rB: test equivalence, the flags of rA XOR rB (40_alu.md R130). -/
def execTeq (a b : RegNo) (s : State) : Out :=
  aluLogic none (readGpr a s ^^^ readGpr b s) s

/-- TCM rA rB: test complement, the flags of rA XNOR rB (40_alu.md R131). -/
def execTcm (a b : RegNo) (s : State) : Out :=
  aluLogic none (~~~(readGpr a s ^^^ readGpr b s)) s

/-- CMN rA rB: compare negative, the flags of rA + rB (40_alu.md R132). -/
def execCmn (a b : RegNo) (s : State) : Out :=
  aluAdd none (readGpr a s) (readGpr b s) false s

/-- CMP rA rB: compare, the flags of rA - rB (40_alu.md R133). -/
def execCmp (a b : RegNo) (s : State) : Out :=
  aluSub none (readGpr a s) (readGpr b s) false s

/-- TST rA rB: the flags of rA AND rB; no word decodes to it (log 25) (40_alu.md R134). -/
def execTst (a b : RegNo) (s : State) : Out :=
  aluLogic none (readGpr a s &&& readGpr b s) s

end Sys2Proof.Machine
end

