-- ==== Sys2Proof/Machine/Direct.lean ====
section
/-! DEFINITION. The meanings of the loads and stores at a direct address (43_direct_load_store.md R180 to R186); all are
two words long, and the address is always even (R180). -/

namespace Sys2Proof.Machine

/-- R[f,r] <- MemRead(ea, 2) at a direct address (43_direct_load_store.md R181, R183). -/
def directLoad (r : Reg) (a : BitVec 24) (s : State) : Out :=
  unlessPcHalf r
    (let (v, s1) := memRead (directAddr a) s
     .next (advance 2 (writeReg r v s1)))

/-- MemWrite(ea, 2, R[f,r]) at a direct address (43_direct_load_store.md R182, R184). -/
def directStore (r : Reg) (a : BitVec 24) (s : State) : Out :=
  .next (advance 2 (memWrite (directAddr a) (readReg 2 r s) s))

/-- LDd rX addr (43_direct_load_store.md R181). -/
def execLddR (d : RegNo) (a : BitVec 24) (s : State) : Out :=
  directLoad ⟨.gpr, d⟩ a s

/-- STd rX addr (43_direct_load_store.md R182). -/
def execStdR (r : RegNo) (a : BitVec 24) (s : State) : Out :=
  directStore ⟨.gpr, r⟩ a s

/-- LDd mpX addr (43_direct_load_store.md R183). -/
def execLddM (d : RegNo) (a : BitVec 24) (s : State) : Out :=
  directLoad ⟨.mp, d⟩ a s

/-- STd mpX addr (43_direct_load_store.md R184). -/
def execStdM (r : RegNo) (a : BitVec 24) (s : State) : Out :=
  directStore ⟨.mp, r⟩ a s

end Sys2Proof.Machine
end

