-- ==== Sys2Proof/Machine/Indirect.lean ====
section
/-! DEFINITION. The meanings of the loads and stores through a Memory Pointer pair: the one algorithm of
44_indirect_load_store.md R191 and its sixteen settings (R193 to R208). -/

namespace Sys2Proof.Machine

/-- Whether the transferred register is a half of the base pair (44_indirect_load_store.md R211). -/
def insidePair (r : Reg) (p : Pair) : Bool := r.file == .mp && pairOfMp r.num == p

/-- Why an indirect access with base `p` is refused before any address is formed: update of PC (R210), a transferred
register inside the updated pair (R211). Where both hold the first is named (log 26). -/
def updateRefusal (u : Bool) (r : Reg) (p : Pair) : Option Refusal :=
  if u && p == .pc then some .updateOfPcByIndirectAccess
  else if u && insidePair r p then some .transferredRegisterInsideUpdatedPair
  else none

/-- The address accessed: base + off when `pre`, else the base (44_indirect_load_store.md R191). -/
def accessAddr (pre : Bool) (base off : Addr) : Addr := if pre then base + off else base

/-- MP[p] <- base + off when `u` (44_indirect_load_store.md R191). -/
def updatePair (u : Bool) (p : Pair) (v : Addr) (s : State) : State := if u then writePair p v s else s

/-- The load of 44_indirect_load_store.md R191, `len` words long, with byte offset `off`. -/
def indirectLoad (u pre : Bool) (len : Nat) (r : Reg) (p : Pair) (off : Addr) (s : State) : Out :=
  match updateRefusal u r p with
  | some why => .refused why
  | none =>
    unlessPcHalf r
      (let base := readPair len p s
       withEvenAddress (accessAddr pre base off) fun ea =>
         let (v, s1) := memRead ea s
         .next (advance len (updatePair u p (base + off) (writeReg r v s1))))

/-- The store of 44_indirect_load_store.md R191, `len` words long, with byte offset `off`. -/
def indirectStore (u pre : Bool) (len : Nat) (r : Reg) (p : Pair) (off : Addr) (s : State) : Out :=
  match updateRefusal u r p with
  | some why => .refused why
  | none =>
    let base := readPair len p s
    withEvenAddress (accessAddr pre base off) fun ea =>
      .next (advance len (updatePair u p (base + off) (memWrite ea (readReg len r s) s)))

/-- LD rX MP: load at the address in the pair (44_indirect_load_store.md R193). -/
def execLd (r : Reg) (p : Pair) (s : State) : Out :=
  indirectLoad false false 1 r p 0 s

/-- ST rX MP: store at the address in the pair (44_indirect_load_store.md R194). -/
def execSt (r : Reg) (p : Pair) (s : State) : Out :=
  indirectStore false false 1 r p 0 s

/-- LD* rX MP: load at the address in the pair, the second word ignored (44_indirect_load_store.md R195). -/
def execLdStar (r : Reg) (p : Pair) (s : State) : Out :=
  indirectLoad false false 2 r p 0 s

/-- ST* rX MP: store at the address in the pair, the second word ignored (44_indirect_load_store.md R196). -/
def execStStar (r : Reg) (p : Pair) (s : State) : Out :=
  indirectStore false false 2 r p 0 s

/-- LDr rY MP rX: load at the pair plus the offset (the offset from a GPR) (44_indirect_load_store.md R197). -/
def execLdr (r : Reg) (p : Pair) (o : RegNo) (s : State) : Out :=
  indirectLoad false true 1 r p (offset16 (readGpr o s)) s

/-- STr rY MP rX: store at the pair plus the offset (the offset from a GPR) (44_indirect_load_store.md R198). -/
def execStr (r : Reg) (p : Pair) (o : RegNo) (s : State) : Out :=
  indirectStore false true 1 r p (offset16 (readGpr o s)) s

/-- LDo rY MP off16: load at the pair plus the offset (an immediate offset) (44_indirect_load_store.md R199). -/
def execLdo (r : Reg) (p : Pair) (off : Word) (s : State) : Out :=
  indirectLoad false true 2 r p (offset16 off) s

/-- STo rY MP off16: store at the pair plus the offset (an immediate offset) (44_indirect_load_store.md R200). -/
def execSto (r : Reg) (p : Pair) (off : Word) (s : State) : Out :=
  indirectStore false true 2 r p (offset16 off) s

/-- (LDpostr) rY MP rX: load at the pair's address, then add the offset to the pair (the offset from a GPR) (44_indirect_load_store.md R201). -/
def execLdpostr (r : Reg) (p : Pair) (o : RegNo) (s : State) : Out :=
  indirectLoad true false 1 r p (offset16 (readGpr o s)) s

/-- (STpostr) rY MP rX: store at the pair's address, then add the offset to the pair (the offset from a GPR) (44_indirect_load_store.md R202). -/
def execStpostr (r : Reg) (p : Pair) (o : RegNo) (s : State) : Out :=
  indirectStore true false 1 r p (offset16 (readGpr o s)) s

/-- (LDposto) rY MP off16: load at the pair's address, then add the offset to the pair (an immediate offset) (44_indirect_load_store.md R203). -/
def execLdposto (r : Reg) (p : Pair) (off : Word) (s : State) : Out :=
  indirectLoad true false 2 r p (offset16 off) s

/-- (STposto) rY MP off16: store at the pair's address, then add the offset to the pair (an immediate offset) (44_indirect_load_store.md R204). -/
def execStposto (r : Reg) (p : Pair) (off : Word) (s : State) : Out :=
  indirectStore true false 2 r p (offset16 off) s

/-- (LDprer) rY MP rX: load at the pair plus the offset, and write the sum back (the offset from a GPR) (44_indirect_load_store.md R205). -/
def execLdprer (r : Reg) (p : Pair) (o : RegNo) (s : State) : Out :=
  indirectLoad true true 1 r p (offset16 (readGpr o s)) s

/-- (STprer) rY MP rX: store at the pair plus the offset, and write the sum back (the offset from a GPR) (44_indirect_load_store.md R206). -/
def execStprer (r : Reg) (p : Pair) (o : RegNo) (s : State) : Out :=
  indirectStore true true 1 r p (offset16 (readGpr o s)) s

/-- (LDpreo) rY MP off16: load at the pair plus the offset, and write the sum back (an immediate offset) (44_indirect_load_store.md R207). -/
def execLdpreo (r : Reg) (p : Pair) (off : Word) (s : State) : Out :=
  indirectLoad true true 2 r p (offset16 off) s

/-- (STpreo) rY MP off16: store at the pair plus the offset, and write the sum back (an immediate offset) (44_indirect_load_store.md R208). -/
def execStpreo (r : Reg) (p : Pair) (off : Word) (s : State) : Out :=
  indirectStore true true 2 r p (offset16 off) s

end Sys2Proof.Machine
end

