-- ==== Sys2Proof/Machine/Jump.lean ====
section
/-! DEFINITION. The meanings of the jumps (45_jumps.md R220 to R235); all are two words long. -/

namespace Sys2Proof.Machine

/-- A jump on a condition: to the target, or on to the next instruction (45_jumps.md R220, R222). -/
def jumpIf (cond : Bool) (off : BitVec 24) (s : State) : Out :=
  if cond then jumpTo (jumpTarget off s) s else .next (advance 2 s)

/-- J offset: unconditional (45_jumps.md R221). -/
def execJ (off : BitVec 24) (s : State) : Out :=
  jumpIf true off s

/-- JZ offset: taken when Z is 1 (45_jumps.md R222). -/
def execJz (off : BitVec 24) (s : State) : Out :=
  jumpIf s.flags.z off s

/-- JN offset: taken when N is 1 (45_jumps.md R223). -/
def execJn (off : BitVec 24) (s : State) : Out :=
  jumpIf s.flags.n off s

/-- JO offset: taken when O is 1 (45_jumps.md R224). -/
def execJo (off : BitVec 24) (s : State) : Out :=
  jumpIf s.flags.o off s

/-- JC offset: taken when C is 1 (45_jumps.md R225). -/
def execJc (off : BitVec 24) (s : State) : Out :=
  jumpIf s.flags.c off s

/-- JNZ offset: taken when Z is 0 (45_jumps.md R226). -/
def execJnz (off : BitVec 24) (s : State) : Out :=
  jumpIf (!s.flags.z) off s

/-- JNN offset: taken when N is 0 (45_jumps.md R227). -/
def execJnn (off : BitVec 24) (s : State) : Out :=
  jumpIf (!s.flags.n) off s

/-- JNO offset: taken when O is 0 (45_jumps.md R228). -/
def execJno (off : BitVec 24) (s : State) : Out :=
  jumpIf (!s.flags.o) off s

/-- JNC offset: taken when C is 0 (45_jumps.md R229). -/
def execJnc (off : BitVec 24) (s : State) : Out :=
  jumpIf (!s.flags.c) off s

/-- Where JSR stores PC (parameter JSR_SP_UPDATE, 45_jumps.md R230). -/
def jsrStoreAddr (s : State) : Addr :=
  match Params.jsrSpUpdate with
  | .none => s.sp
  | .preDecrement4 => s.sp - 4
  | .postIncrement4 => s.sp

/-- SP after JSR (parameter JSR_SP_UPDATE, 45_jumps.md R230). -/
def jsrSpAfter (s : State) : Addr :=
  match Params.jsrSpUpdate with
  | .none => s.sp
  | .preDecrement4 => s.sp - 4
  | .postIncrement4 => s.sp + 4

/-- JSR offset: store PC, the word mp0 holds at SP and the word mp1 holds at SP + 2, then jump (45_jumps.md R230). -/
def execJsr (off : BitVec 24) (s : State) : Out :=
  let ret := pcAsData 2 s
  withEvenAddress (jsrStoreAddr s) fun a =>
    let s1 := memWrite (a + 2) (halfOf 1 ret) (memWrite a (halfOf 0 ret) s)
    jumpTo (jumpTarget off s) { s1 with sp := jsrSpAfter s }

end Sys2Proof.Machine
end

