-- ==== Sys2Proof/Machine/LoadImm.lean ====
section
/-! DEFINITION. The meanings of the immediate loads (42_load_immediate.md R170, R171); both are two words long. -/

namespace Sys2Proof.Machine

/-- LDir rX v16: x[d] <- w2 (42_load_immediate.md R170). -/
def execLdir (d : RegNo) (v : Word) (s : State) : Out :=
  .next (advance 2 (writeGpr d v s))

/-- LDim MP v25: MP[p] <- the value extended to 32 bits; with PC an absolute jump (42_load_immediate.md R171). -/
def execLdim (p : Pair) (v : BitVec 25) (s : State) : Out :=
  assignPair 2 p (ldimValue v) s

end Sys2Proof.Machine
end

