-- ==== Sys2Proof/Machine/Misc.lean ====
section
/-! DEFINITION. The meanings of the miscellaneous instructions (47_misc.md R250 to R257); all are one word long. -/

namespace Sys2Proof.Machine

/-- NOP: "advances PC 1 word, and nothing else" (47_misc.md R250). -/
def execNop (s : State) : Out :=
  .next (advance 1 s)

/-- HLT: the clock stops with pc past the HLT (47_misc.md R251). -/
def execHlt (s : State) : Out :=
  .next { advance 1 s with run := .halted }

/-- RESET: the reset of the CPU (47_misc.md R252, 70_reset_and_hazards.md R301). -/
def execReset (s : State) : Out :=
  .next (resetCpu s)

/-- DMA: the clock stops with pc past the DMA and memory open to the host; a DMA stop ends what counts as written by the
program (47_misc.md R253, 20_memory.md R61; log 21). -/
def execDma (s : State) : Out :=
  .next { advance 1 s with run := .dma, written := [] }

/-- EINT #I: "refuse(interrupt entry not described)" (47_misc.md R254; log 28). -/
def execEint (_i : Byte) (_s : State) : Out :=
  .refused .interruptEntryNotDescribed

/-- SETPR #P: PFX <- n3 (47_misc.md R255). -/
def execSetpr (n : RegNo) (s : State) : Out :=
  .next (advance 1 { s with pfx := some n })

/-- IM[m] <- b (10_state.md R31). -/
def writeMask (m : RegNo) (b : Bool) (s : State) : State :=
  { s with im := s.im.set m.toNat b m.isLt }

/-- CLRIM #M: IM[n3] <- 0 (47_misc.md R256). -/
def execClrim (m : RegNo) (s : State) : Out :=
  .next (advance 1 (writeMask m false s))

/-- SETIM #M: IM[n3] <- 1 (47_misc.md R257). -/
def execSetim (m : RegNo) (s : State) : Out :=
  .next (advance 1 (writeMask m true s))

end Sys2Proof.Machine
end

