-- ==== Sys2Proof/Machine/Mov.lean ====
section
/-! DEFINITION. The meanings of the moves (41_mov.md R150 to R164); every move is one word long. -/

namespace Sys2Proof.Machine

/-- R[df,d] <- R[sf,s], the one operation of the regular moves (41_mov.md section 2). -/
def moveReg (dst src : Reg) (s : State) : Out :=
  unlessPcHalf dst (.next (advance 1 (writeReg dst (readReg 1 src s) s)))

/-- MOV rB rA: x[d] <- x[s] (41_mov.md R151). -/
def execMovRR (d r : RegNo) (s : State) : Out :=
  moveReg ⟨.gpr, d⟩ ⟨.gpr, r⟩ s

/-- MOV mpB mpA: mp[d] <- mp[s] (41_mov.md R152). -/
def execMovMM (d r : RegNo) (s : State) : Out :=
  moveReg ⟨.mp, d⟩ ⟨.mp, r⟩ s

/-- MOV mpB rA: mp[d] <- x[s] (41_mov.md R153). -/
def execMovMR (d r : RegNo) (s : State) : Out :=
  moveReg ⟨.mp, d⟩ ⟨.gpr, r⟩ s

/-- MOV rB mpA: x[d] <- mp[s] (41_mov.md R154). -/
def execMovRM (d r : RegNo) (s : State) : Out :=
  moveReg ⟨.gpr, d⟩ ⟨.mp, r⟩ s

/-- x[d] <- draw(16), what a read of MDB gives, and of SR while its layout is OPEN (41_mov.md R155, R157; log 11, 13). -/
def moveDraw (d : RegNo) (s : State) : Out :=
  let (v, s1) := drawWord s
  .next (advance 1 (writeGpr d v s1))

/-- `w` with bit `i` replaced. -/
def putBit (i : BitVec 4) (b : Bool) (w : Word) : Word :=
  if b then w ||| 1#16 <<< i else w &&& ~~~(1#16 <<< i)

/-- `w` with the flags at their places (41_mov.md R155). -/
def placeFlags (l : SrLayout) (f : Flags) (w : Word) : Word :=
  putBit l.c f.c (putBit l.o f.o (putBit l.n f.n (putBit l.z f.z w)))

/-- sr_image: the flags at the bit positions SR_LAYOUT gives, whatever else SR holds in the other bits (41_mov.md R155, 10_state.md
R30). -/
def srImage (l : SrLayout) (s : State) : Word :=
  placeFlags l s.flags s.srRest

/-- The flags of sr_fields: the bits of the word at their places (41_mov.md R156). -/
def srFlags (l : SrLayout) (w : Word) : Flags where
  c := w.getLsbD l.c.toNat
  o := w.getLsbD l.o.toNat
  n := w.getLsbD l.n.toNat
  z := w.getLsbD l.z.toNat

/-- Whatever else SR holds of sr_fields: the bits of the word that are no flag's, those of the flags 0 (41_mov.md R156). -/
def srOther (l : SrLayout) (w : Word) : Word :=
  placeFlags l ⟨false, false, false, false⟩ w

/-- MOVs rB SR: x[d] <- sr_image, or draw(16) while SR_LAYOUT is OPEN (41_mov.md R155; log 11). -/
def execMovsRSr (d : RegNo) (s : State) : Out :=
  match s.srLayout with
  | some l => .next (advance 1 (writeGpr d (srImage l s) s))
  | none => moveDraw d s

/-- MOVs SR rA: the flags and whatever else SR holds are overwritten from the GPR as SR_LAYOUT says; "refuse(SR layout
unknown)" while it is OPEN (41_mov.md R156; log 12). -/
def execMovsSrR (r : RegNo) (s : State) : Out :=
  match s.srLayout with
  | some l => .next (advance 1 { s with flags := srFlags l (readGpr r s), srRest := srOther l (readGpr r s) })
  | none => .refused .srLayoutUnknown

/-- MOVs rB MDB: x[d] <- draw(16) (41_mov.md R157; log 13). -/
def execMovsRMdb (d : RegNo) (s : State) : Out :=
  moveDraw d s

/-- MOVs MDB rA: MDB <- x[s] (41_mov.md R158). -/
def execMovsMdbR (r : RegNo) (s : State) : Out :=
  .next (advance 1 { s with mdb := readGpr r s })

/-- MOVs rB IVB: "refuse(IVB cannot be read)" (41_mov.md R159; log 31). -/
def execMovsRIvb (_d : RegNo) (_s : State) : Out :=
  .refused .ivbCannotBeRead

/-- MOVs IVB rA: IVB <- x[s] (41_mov.md R160). -/
def execMovsIvbR (r : RegNo) (s : State) : Out :=
  .next (advance 1 { s with ivb := readGpr r s })

end Sys2Proof.Machine
end

