-- ==== Sys2Proof/Machine/Reserved.lean ====
section
/-! DEFINITION. The reserved patterns of 30_encoding.md R89: "Under `RESERVED = refuse` each is `refuse(reserved
encoding)`". Each row has a meaning of its own, so that one of them can be mended alone (log 23). -/

namespace Sys2Proof.Machine

/-- RSV1, ALU register form with bit 4 = 1 (40_alu.md R135). -/
def execRsv1 (_op : BitVec 3) (_s : State) : Out :=
  .refused .reservedEncoding

/-- RSV2, ALU register form with op = 110 and bit 3 = 1; this or the next is the lost TST (40_alu.md R134, R135). -/
def execRsv2op6 (_s : State) : Out :=
  .refused .reservedEncoding

/-- RSV2, ALU register form with op = 111 and bit 3 = 1 (40_alu.md R134, R135). -/
def execRsv2op7 (_s : State) : Out :=
  .refused .reservedEncoding

/-- RSV3, special-register address 00 (41_mov.md R161). -/
def execRsv3 (_s : State) : Out :=
  .refused .reservedEncoding

/-- RSV6, read of SR into an MP register (41_mov.md R161). -/
def execRsv6ReadSr (_s : State) : Out :=
  .refused .reservedEncoding

/-- RSV6, read of MDB into an MP register (41_mov.md R161). -/
def execRsv6ReadMdb (_s : State) : Out :=
  .refused .reservedEncoding

/-- RSV6, read of IVB into an MP register (41_mov.md R161). -/
def execRsv6ReadIvb (_s : State) : Out :=
  .refused .reservedEncoding

/-- RSV6, write of SR from an MP register (41_mov.md R161). -/
def execRsv6WriteSr (_s : State) : Out :=
  .refused .reservedEncoding

/-- RSV6, write of MDB from an MP register (41_mov.md R161). -/
def execRsv6WriteMdb (_s : State) : Out :=
  .refused .reservedEncoding

/-- RSV6, write of IVB from an MP register (41_mov.md R161). -/
def execRsv6WriteIvb (_s : State) : Out :=
  .refused .reservedEncoding

/-- RSV5, jump condition 0011 (45_jumps.md R231). -/
def execRsv5c3 (_s : State) : Out :=
  .refused .reservedEncoding

/-- RSV5, jump condition 0101 (45_jumps.md R231). -/
def execRsv5c5 (_s : State) : Out :=
  .refused .reservedEncoding

/-- RSV5, jump condition 0110 (45_jumps.md R231). -/
def execRsv5c6 (_s : State) : Out :=
  .refused .reservedEncoding

/-- RSV5, jump condition 1001 (45_jumps.md R231). -/
def execRsv5c9 (_s : State) : Out :=
  .refused .reservedEncoding

/-- RSV5, jump condition 1010 (45_jumps.md R231). -/
def execRsv5c10 (_s : State) : Out :=
  .refused .reservedEncoding

/-- RSV5, jump condition 1100 (45_jumps.md R231). -/
def execRsv5c12 (_s : State) : Out :=
  .refused .reservedEncoding

end Sys2Proof.Machine
end

