-- ==== Sys2Proof/Machine/Dispatch.lean ====
section
/-! DEFINITION. The dispatch of every instruction to its meaning. -/

namespace Sys2Proof.Machine

def exec (i : Instr) (s : State) : Host.Outcome State Fault Refusal :=
  match i with
  | .addi a c => Sys2Proof.Machine.execAddi a c s
  | .subi a c => Sys2Proof.Machine.execSubi a c s
  | .xori a c => Sys2Proof.Machine.execXori a c s
  | .xnori a c => Sys2Proof.Machine.execXnori a c s
  | .ori a c => Sys2Proof.Machine.execOri a c s
  | .orni a c => Sys2Proof.Machine.execOrni a c s
  | .andi a c => Sys2Proof.Machine.execAndi a c s
  | .andni a c => Sys2Proof.Machine.execAndni a c s
  | .add y a b => Sys2Proof.Machine.execAdd y a b s
  | .sub y a b => Sys2Proof.Machine.execSub y a b s
  | .addc y a b => Sys2Proof.Machine.execAddc y a b s
  | .subc y a b => Sys2Proof.Machine.execSubc y a b s
  | .xor y a b => Sys2Proof.Machine.execXor y a b s
  | .xnor y a b => Sys2Proof.Machine.execXnor y a b s
  | .or y a b => Sys2Proof.Machine.execOr y a b s
  | .orn y a b => Sys2Proof.Machine.execOrn y a b s
  | .and y a b => Sys2Proof.Machine.execAnd y a b s
  | .andn y a b => Sys2Proof.Machine.execAndn y a b s
  | .teq a b => Sys2Proof.Machine.execTeq a b s
  | .tcm a b => Sys2Proof.Machine.execTcm a b s
  | .cmn a b => Sys2Proof.Machine.execCmn a b s
  | .cmp a b => Sys2Proof.Machine.execCmp a b s
  | .tst a b => Sys2Proof.Machine.execTst a b s
  | .rsv1 op => Sys2Proof.Machine.execRsv1 op s
  | .rsv2op6 => Sys2Proof.Machine.execRsv2op6 s
  | .rsv2op7 => Sys2Proof.Machine.execRsv2op7 s
  | .movRR d r => Sys2Proof.Machine.execMovRR d r s
  | .movMM d r => Sys2Proof.Machine.execMovMM d r s
  | .movMR d r => Sys2Proof.Machine.execMovMR d r s
  | .movRM d r => Sys2Proof.Machine.execMovRM d r s
  | .movsRSr d => Sys2Proof.Machine.execMovsRSr d s
  | .movsSrR r => Sys2Proof.Machine.execMovsSrR r s
  | .movsRMdb d => Sys2Proof.Machine.execMovsRMdb d s
  | .movsMdbR r => Sys2Proof.Machine.execMovsMdbR r s
  | .movsIvbR r => Sys2Proof.Machine.execMovsIvbR r s
  | .movsRIvb d => Sys2Proof.Machine.execMovsRIvb d s
  | .rsv3 => Sys2Proof.Machine.execRsv3 s
  | .rsv6ReadSr => Sys2Proof.Machine.execRsv6ReadSr s
  | .rsv6ReadMdb => Sys2Proof.Machine.execRsv6ReadMdb s
  | .rsv6ReadIvb => Sys2Proof.Machine.execRsv6ReadIvb s
  | .rsv6WriteSr => Sys2Proof.Machine.execRsv6WriteSr s
  | .rsv6WriteMdb => Sys2Proof.Machine.execRsv6WriteMdb s
  | .rsv6WriteIvb => Sys2Proof.Machine.execRsv6WriteIvb s
  | .ldir d v => Sys2Proof.Machine.execLdir d v s
  | .ldim p v => Sys2Proof.Machine.execLdim p v s
  | .lddR d a => Sys2Proof.Machine.execLddR d a s
  | .stdR r a => Sys2Proof.Machine.execStdR r a s
  | .lddM d a => Sys2Proof.Machine.execLddM d a s
  | .stdM r a => Sys2Proof.Machine.execStdM r a s
  | .ld r p => Sys2Proof.Machine.execLd r p s
  | .st r p => Sys2Proof.Machine.execSt r p s
  | .ldStar r p => Sys2Proof.Machine.execLdStar r p s
  | .stStar r p => Sys2Proof.Machine.execStStar r p s
  | .ldr r p o => Sys2Proof.Machine.execLdr r p o s
  | .str r p o => Sys2Proof.Machine.execStr r p o s
  | .ldo r p off => Sys2Proof.Machine.execLdo r p off s
  | .sto r p off => Sys2Proof.Machine.execSto r p off s
  | .ldpostr r p o => Sys2Proof.Machine.execLdpostr r p o s
  | .stpostr r p o => Sys2Proof.Machine.execStpostr r p o s
  | .ldposto r p off => Sys2Proof.Machine.execLdposto r p off s
  | .stposto r p off => Sys2Proof.Machine.execStposto r p off s
  | .ldprer r p o => Sys2Proof.Machine.execLdprer r p o s
  | .stprer r p o => Sys2Proof.Machine.execStprer r p o s
  | .ldpreo r p off => Sys2Proof.Machine.execLdpreo r p off s
  | .stpreo r p off => Sys2Proof.Machine.execStpreo r p off s
  | .j off => Sys2Proof.Machine.execJ off s
  | .jz off => Sys2Proof.Machine.execJz off s
  | .jn off => Sys2Proof.Machine.execJn off s
  | .jo off => Sys2Proof.Machine.execJo off s
  | .jc off => Sys2Proof.Machine.execJc off s
  | .jnz off => Sys2Proof.Machine.execJnz off s
  | .jnn off => Sys2Proof.Machine.execJnn off s
  | .jno off => Sys2Proof.Machine.execJno off s
  | .jnc off => Sys2Proof.Machine.execJnc off s
  | .jsr off => Sys2Proof.Machine.execJsr off s
  | .rsv5c3 => Sys2Proof.Machine.execRsv5c3 s
  | .rsv5c5 => Sys2Proof.Machine.execRsv5c5 s
  | .rsv5c6 => Sys2Proof.Machine.execRsv5c6 s
  | .rsv5c9 => Sys2Proof.Machine.execRsv5c9 s
  | .rsv5c10 => Sys2Proof.Machine.execRsv5c10 s
  | .rsv5c12 => Sys2Proof.Machine.execRsv5c12 s
  | .addp p r => Sys2Proof.Machine.execAddp p r s
  | .addpo p off => Sys2Proof.Machine.execAddpo p off s
  | .addpi p off => Sys2Proof.Machine.execAddpi p off s
  | .nop => Sys2Proof.Machine.execNop s
  | .hlt => Sys2Proof.Machine.execHlt s
  | .reset => Sys2Proof.Machine.execReset s
  | .dma => Sys2Proof.Machine.execDma s
  | .eint n => Sys2Proof.Machine.execEint n s
  | .setpr n => Sys2Proof.Machine.execSetpr n s
  | .clrim m => Sys2Proof.Machine.execClrim m s
  | .setim m => Sys2Proof.Machine.execSetim m s

end Sys2Proof.Machine
end

