-- ==== Sys2Proof/Machine/Fetch.lean ====
section
/-! DEFINITION. Fetching the instruction at pc, with the checks 70_reset_and_hazards.md R310 makes before it executes. -/

namespace Sys2Proof.Machine

/-- MemRead of an instruction word: a word the running program has written is refused under FETCH_COHERENT = refuse_smc
(20_memory.md R61). -/
def fetchWord (a : Addr) (s : State) : Host.Outcome (Word × State) Fault Refusal :=
  match Params.fetchCoherent with
  | .coherent => .next (memRead a s)
  | .refuseSmc => if a.toNat ∈ s.written then .refused .selfModifyingCode else .next (memRead a s)

/-- Where the first word is fetched: pc, its bit 0 ignored under ODD_ADDRESS = ignore_bit0 (20_memory.md R53). -/
def fetchAddr (pc : Addr) : Addr :=
  match Params.oddAddress with
  | .refuse => pc
  | .ignoreBit0 => BitVec.ofNat 32 (pc.toNat / 2 * 2)

/-- Whether pc may not be fetched from because it is odd (10_state.md R26). -/
def pcIsBad (pc : Addr) : Bool :=
  match Params.oddAddress with
  | .refuse => pc.toNat % 2 == 1
  | .ignoreBit0 => false

/-- The instruction of two fetched words, unless the advance past it wraps (10_state.md R27). -/
def decodeFetched (w1 w2 : Word) (s : State) : Host.Outcome (Instr × State) Fault Refusal :=
  if (pcNext (lengthWords w1) s).toNat < s.pc.toNat then .refused .pcWrap
  else .next (decodeWords w1 w2, s)

/-- The fetch of 70_reset_and_hazards.md R310: pending prefix, odd pc, first word, extension word if the length asks for
it, wrap of pc_next, decoding. The state answered differs only in free values drawn. -/
def fetchInstr (s : State) : Host.Outcome (Instr × State) Fault Refusal :=
  if s.pfx.isSome then .refused .prefixedInstruction
  else if pcIsBad s.pc then .refused .oddPc
  else
    match fetchWord (fetchAddr s.pc) s with
    | .fault f => .fault f
    | .refused why => .refused why
    | .next (w1, s1) =>
      if lengthWords w1 = 1 then decodeFetched w1 0 s1
      else
        match fetchWord (fetchAddr s.pc + 2) s1 with
        | .fault f => .fault f
        | .refused why => .refused why
        | .next (w2, s2) => decodeFetched w1 w2 s2

end Sys2Proof.Machine
end

