-- ==== Sys2Proof/Machine/HostEvents.lean ====
section
/-! DEFINITION. The events of the host (70_reset_and_hazards.md R309) and which one acts in a step. `hostEvents` says for each
step to come what the host does then, so that an event can come after any number of instructions (log 20). -/

namespace Sys2Proof.Machine

/-- The run states in which an event acts (70_reset_and_hazards.md R309). -/
def HostEvent.actsIn (e : HostEvent) (r : RunState) : Bool :=
  match e with
  | .reset => true
  | .resume => r == .halted
  | .dmaWrite _ _ => r == .dma
  | .dmaDone => r == .dma

/-- What an event does (70_reset_and_hazards.md R309); a write at an odd address is refused like every word access
(20_memory.md R51; log 2). -/
def applyHostEvent (e : HostEvent) (s : State) : Out :=
  match e with
  | .reset => .next (resetCpu s)
  | .resume => .next { s with run := .running }
  | .dmaWrite a v => withEvenAddress a fun ea => .next { s with memory := s.memory.setWord ea.toNat v }
  | .dmaDone => .next { s with run := .running }

/-- The event of the host that acts in this step, if there is one: the entry of this step, in a run state in which that event
acts. Any other entry has no effect: the model lets the host do nothing then (70_reset_and_hazards.md R309). -/
def actingEvent (s : State) : Option HostEvent :=
  match s.hostEvents with
  | some e :: _ => if e.actsIn s.run then some e else none
  | _ => none

/-- The entry of this step is used up. -/
def passHost (s : State) : State := { s with hostEvents := s.hostEvents.tail }

end Sys2Proof.Machine
end

