-- ==== Sys2Proof/Machine/Step.lean ====
section
/-! DEFINITION. One step of the machine (70_reset_and_hazards.md R310), and the placing of one instruction where the step
fetches. -/

namespace Sys2Proof.Machine

/-- The fetch and execution of one instruction (70_reset_and_hazards.md R310). -/
def stepInstr (s : State) : Out :=
  match fetchInstr s with
  | .fault f => .fault f
  | .refused why => .refused why
  | .next (i, s1) => exec i s1

/-- One step: the host event that acts in it, else an instruction if the CPU runs, else nothing (70_reset_and_hazards.md
R309, R310; log 20). -/
def step (s : State) : Host.Outcome State Fault Refusal :=
  match actingEvent s with
  | some e => applyHostEvent e (passHost s)
  | none =>
    match s.run with
    | .running => stepInstr (passHost s)
    | .halted => .next (passHost s)
    | .dma => .next (passHost s)

/-- `s` with an instruction's bits `w` (the bits from `nbits` up 0) placed as two words at pc, ready to be fetched by the
very next step: the CPU running, no prefix and no host event to come, and the two words not counted as written by the
program. It stands for the load of a program from outside (log 19). -/
def State.withFetchWord (s : State) (nbits w : Nat) : State :=
  let v := w % 2 ^ nbits
  let a := s.pc.toNat
  { s with
    memory := (s.memory.setWord a (BitVec.ofNat 16 v)).setWord (s.pc + 2).toNat (BitVec.ofNat 16 (v / 2 ^ 16))
    written := s.written.filter fun k => k != a && k != (s.pc + 2).toNat
    pfx := none
    run := .running
    hostEvents := [] }

end Sys2Proof.Machine
end

