-- ==== Sys2Proof/Safety.lean ====
section
/-! DEFINITION. What counts as a good state and a safe run, and the terms the statements use: registers seen one by one,
exact arithmetic, what a read and a store of a word do, and which instructions may change which state. They are written
from the spec beside the operations of the machine, not from them. -/

namespace Sys2Proof.Machine

/-! ### Good states and safe runs -/

/-- Memory holds whole words: a byte at an even address is there exactly when its neighbour is (20_memory.md R51). -/
def Memory.WholeWords (m : Memory) : Prop :=
  ∀ a, a % 2 = 0 → ((m.read a).isSome ↔ (m.read (a + 1)).isSome)

/-- No byte lies outside the 2^32 addresses (20_memory.md R50). -/
def Memory.InSpace (m : Memory) : Prop := ∀ c ∈ m, c.1 < 2 ^ 32

/-- A good state: memory in its canonical form, inside the address space and made of whole words (20_memory.md R50, R51);
pc even (10_state.md R26); the words written by the program in rising order, even, and outside the I/O range (R61); every
output event a word of the I/O range (R56, R57). -/
structure State.Good (s : State) : Prop where
  memory_canonical : s.memory.wf
  memory_in_space : s.memory.InSpace
  memory_whole_words : s.memory.WholeWords
  pc_even : s.pc.toNat % 2 = 0
  written_rising : s.written.Pairwise (· < ·)
  written_ram_words : ∀ a ∈ s.written, a % 2 = 0 ∧ a < 0xFF000000
  outputs_io_words : ∀ e ∈ s.outputs, isIo e.1 = true ∧ e.1.toNat % 2 = 0

/-- The run states in which the host may make an event, from the table of 70_reset_and_hazards.md R309. -/
def HostEvent.MayAct (e : HostEvent) (r : RunState) : Prop :=
  (e = .reset) ∨ (e = .resume ∧ r = .halted) ∨ (e = .dmaDone ∧ r = .dma) ∨ ((∃ a v, e = .dmaWrite a v) ∧ r = .dma)

/-- No host event acts in the next step: there is no entry for it, the entry is nothing, or its event may not act in this
run state. The step then runs an instruction, or nothing (70_reset_and_hazards.md R309; log 20). -/
def State.Undisturbed (s : State) : Prop := ∀ e, s.hostEvents.head? = some (some e) → ¬ e.MayAct s.run

/-- No host event to come may act in this run state: there is no host to end a stop (70_reset_and_hazards.md R308, R309). -/
def State.NoHost (s : State) : Prop := ∀ e, some e ∈ s.hostEvents → ¬ e.MayAct s.run

/-- The ways a run ends, in the order of 70_reset_and_hazards.md R308. -/
inductive RunEnd where
  /-- Completed: HLT has executed. -/
  | completed
  /-- Refused: a step met a refusal. -/
  | refused (why : Refusal)
  /-- Stopped in `dma` with no host to resume it, "the same as completed". -/
  | stoppedInDma
  deriving DecidableEq, Repr

/-- A state in which a run has come to one of its ends: halted or in `dma` with no host event to come that may act, or about
to be refused (70_reset_and_hazards.md R308). -/
def State.EndsRun (s : State) : RunEnd → Prop
  | .completed => s.run = .halted ∧ s.NoHost
  | .refused why => step s = .refused why
  | .stoppedInDma => s.run = .dma ∧ s.NoHost

/-- A final state: the run has stopped and the state is its result (70_reset_and_hazards.md R308, ends 1 and 3). -/
def State.Final (s : State) : Prop := s.EndsRun .completed ∨ s.EndsRun .stoppedInDma

/-- A run of `k` steps from `s` that meets no refusal (70_reset_and_hazards.md R308). -/
def SafeRun (k : Nat) (s : State) : Prop := ∃ t, Sys2Proof.core.run k s = .next t

/-- A run from `s` that comes to a final state within `k` steps (70_reset_and_hazards.md R308). -/
def FinishesWithin (k : Nat) (s : State) : Prop := ∃ t, Sys2Proof.core.run k s = .next t ∧ t.Final

/-! ### Registers, one by one -/

/-- mp[0] to mp[7] as an instruction of `len` words reads them: even registers the high halves, mp0 and mp1 the halves of
the address after the instruction (10_state.md R23, R25). -/
def mpWord (len : Nat) (i : RegNo) (s : State) : Word :=
  match i.toNat with
  | 0 => (s.pc + BitVec.ofNat 32 (2 * len)).extractLsb' 16 16
  | 1 => (s.pc + BitVec.ofNat 32 (2 * len)).extractLsb' 0 16
  | 2 => s.sp.extractLsb' 16 16
  | 3 => s.sp.extractLsb' 0 16
  | 4 => s.fp.extractLsb' 16 16
  | 5 => s.fp.extractLsb' 0 16
  | 6 => s.bp.extractLsb' 16 16
  | _ => s.bp.extractLsb' 0 16

/-- `s` with mp[i] replaced and everything else kept, for i from 2 to 7 (10_state.md R23). -/
def withMp (i : RegNo) (v : Word) (s : State) : State :=
  match i.toNat with
  | 2 => { s with sp := v ++ s.sp.extractLsb' 0 16 }
  | 3 => { s with sp := s.sp.extractLsb' 16 16 ++ v }
  | 4 => { s with fp := v ++ s.fp.extractLsb' 0 16 }
  | 5 => { s with fp := s.fp.extractLsb' 16 16 ++ v }
  | 6 => { s with bp := v ++ s.bp.extractLsb' 0 16 }
  | 7 => { s with bp := s.bp.extractLsb' 16 16 ++ v }
  | _ => s

/-- R[f,i] as an instruction of `len` words reads it (30_encoding.md R86). -/
def regWord (len : Nat) (r : Reg) (s : State) : Word :=
  match r.file with
  | .gpr => s.x[r.num.toNat]'r.num.isLt
  | .mp => mpWord len r.num s

/-- `s` with R[f,i] replaced and everything else kept, for a register outside PC (30_encoding.md R86). -/
def withReg (r : Reg) (v : Word) (s : State) : State :=
  match r.file with
  | .gpr => { s with x := s.x.set r.num.toNat v r.num.isLt }
  | .mp => withMp r.num v s

/-- `s` with SP, FP or BP replaced as a whole and everything else kept (10_state.md R23). -/
def withPair (p : Pair) (v : Addr) (s : State) : State :=
  match p with
  | .pc => s
  | .sp => { s with sp := v }
  | .fp => { s with fp := v }
  | .bp => { s with bp := v }

/-- The register is mp0 or mp1, a half of PC (10_state.md R28). -/
def InPc (r : Reg) : Prop := r.file = .mp ∧ r.num.toNat < 2

/-- The register is a half of the pair `p` (44_indirect_load_store.md R211). -/
def InPair (r : Reg) (p : Pair) : Prop := r.file = .mp ∧ r.num.toNat / 2 = p.index

/-! ### Exact arithmetic -/

/-- The flags of a 16-bit result whose exact signed value is `v`: O says that `v` does not fit, N and Z are the sign and
the zeroness of what is left of it in 16 bits (40_alu.md R111; log 10). -/
def exactFlags (c : Bool) (v : Int) : Flags where
  c := c
  o := decide (v < -32768 ∨ 32767 < v)
  n := decide ((BitVec.ofInt 16 v).toInt < 0)
  z := decide (v % 65536 = 0)

/-! ### Memory, one word at a time -/

/-- A read of the word at `ea` in `s` gives `v` and draws `n` free values: none if the program or the image wrote the word
and it is no I/O address, one otherwise (20_memory.md R51, R56). -/
def ReadsWord (s : State) (ea : Addr) (v : Word) (n : Nat) : Prop :=
  (ea.toNat < 0xFF000000 ∧ s.memory.wordAt ea.toNat = some v ∧ n = 0) ∨
  ((0xFF000000 ≤ ea.toNat ∨ s.memory.wordAt ea.toNat = none) ∧ v = Config.freeWord s.draws ∧ n = 1)

/-- `t` is `s` after a store of `v` at `ea` and nothing else. In the I/O range: one more output event, every byte of memory
as it was. Elsewhere: the word reads back as `v`, every byte outside its two addresses is as it was, and the word counts as
written by the program (20_memory.md R51, R56, R61). -/
def StoresWord (s : State) (ea : Addr) (v : Word) (t : State) : Prop :=
  t = { s with memory := t.memory, written := t.written, outputs := t.outputs } ∧
  (0xFF000000 ≤ ea.toNat →
    t.outputs = s.outputs ++ [(ea, v)] ∧ t.written = s.written ∧ ∀ b, t.memory.read b = s.memory.read b) ∧
  (ea.toNat < 0xFF000000 →
    t.outputs = s.outputs ∧ t.memory.wordAt ea.toNat = some v ∧
    (∀ b, b ≠ ea.toNat → b ≠ ea.toNat + 1 → t.memory.read b = s.memory.read b) ∧
    ∀ k, k ∈ t.written ↔ k = ea.toNat ∨ k ∈ s.written)

/-! ### Which instructions may change which state -/

/-- The ALU instructions, MOVs SR rA and RESET: all that write flags (10_state.md R29). -/
def WritesFlags : Instr → Bool
  | .addi .. | .subi .. | .xori .. | .xnori .. | .ori .. | .orni .. | .andi .. | .andni .. => true
  | .add .. | .sub .. | .addc .. | .subc .. | .xor .. | .xnor .. | .or .. | .orn .. | .and .. | .andn .. => true
  | .teq .. | .tcm .. | .cmn .. | .cmp .. | .tst .. | .movsSrR .. | .reset => true
  | _ => false

/-- The instructions that store to memory (10_state.md R20, last row). -/
def StoresMemory : Instr → Bool
  | .stdR .. | .stdM .. | .st .. | .stStar .. | .str .. | .sto .. => true
  | .stpostr .. | .stposto .. | .stprer .. | .stpreo .. | .jsr .. => true
  | _ => false

/-- The instructions that transfer control or may write PC as a pair (10_state.md R28, 45_jumps.md R220, R230). -/
def MayJump : Instr → Bool
  | .j .. | .jz .. | .jn .. | .jo .. | .jc .. | .jnz .. | .jnn .. | .jno .. | .jnc .. | .jsr .. => true
  | .ldim .pc _ | .addp .pc _ | .addpi .pc _ | .reset => true
  | _ => false

/-- The GPR an instruction may write, if it names one (10_state.md R20, first row); RESET writes all of them. -/
def gprTarget : Instr → Option RegNo
  | .addi a _ | .subi a _ | .xori a _ | .xnori a _ | .ori a _ | .orni a _ | .andi a _ | .andni a _ => some a
  | .add y _ _ | .sub y _ _ | .addc y _ _ | .subc y _ _ | .xor y _ _ | .xnor y _ _ => some y
  | .or y _ _ | .orn y _ _ | .and y _ _ | .andn y _ _ => some y
  | .movRR d _ | .movRM d _ | .movsRSr d | .movsRMdb d | .ldir d _ | .lddR d _ => some d
  | .ld r _ | .ldStar r _ | .ldr r _ _ | .ldo r _ _ => if r.file = .gpr then some r.num else none
  | .ldpostr r _ _ | .ldposto r _ _ | .ldprer r _ _ | .ldpreo r _ _ => if r.file = .gpr then some r.num else none
  | _ => none

end Sys2Proof.Machine
end

