-- ==== Sys2Proof/Certificates/Slice0/Obligations.lean ====
section
/-! DEFINITION. The statements for the provers. They name the rules of spec/ they rest on; where a clause rests on a choice
of the spec (92_eei_decisions.md) or of the model, the docstring names the decision or the log entry. A slice v[hi:lo] of
the spec is written `v.extractLsb' lo (hi + 1 - lo)`, a concatenation with the high part first `++`. -/

open Sys2Proof Sys2Proof.Machine

/-! ### Encoding -/

/-- Every instruction that has an encoding decodes from its own words: from the bytes of those words in either byte order,
whatever follows, the decoder gives the instruction back and leaves what follows (30_encoding.md R84, R88, R89,
20_memory.md R52; log 1). The split immediates rest on decision D7 (log 34). All instructions but TST have an encoding (40_alu.md R134; log 25). -/
def Obligations.EncodedInstructionDecodesToItself : Prop :=
  ∀ i : Instr, i.wellFormed = true → ∀ (order : ByteOrder) (rest : List Byte),
    ∃ ws, encode i = some ws ∧ (∀ w1 ∈ ws.head?, lengthWords w1 = ws.length) ∧
      decode order (bytesOfWords order ws ++ rest) = .ok (i, rest)

/-- ALU words decode as the opcode table says (30_encoding.md R88 rows 1 to 22, R89 RSV1 and RSV2, don't-care bits ignored
by R83): bits 14:12 the operation, bit 11 the constant form, bits 4 and 3 the variant. -/
def Obligations.AluWordsFollowTheOpcodeTable : Prop :=
  ∀ w1 w2 : Word, w1.getLsbD 15 = true →
    let op := w1.extractLsb' 12 3
    let y : RegNo := w1.extractLsb' 8 3
    let c : Byte := w1.extractLsb' 0 8
    let a : RegNo := w1.extractLsb' 5 3
    let b : RegNo := w1.extractLsb' 0 3
    (w1.getLsbD 11 = true →
      (op = 0b000 → decodeWords w1 w2 = .addi y c) ∧ (op = 0b001 → decodeWords w1 w2 = .subi y c) ∧
      (op = 0b010 → decodeWords w1 w2 = .xori y c) ∧ (op = 0b011 → decodeWords w1 w2 = .xnori y c) ∧
      (op = 0b100 → decodeWords w1 w2 = .ori y c) ∧ (op = 0b101 → decodeWords w1 w2 = .orni y c) ∧
      (op = 0b110 → decodeWords w1 w2 = .andi y c) ∧ (op = 0b111 → decodeWords w1 w2 = .andni y c)) ∧
    (w1.getLsbD 11 = false → w1.getLsbD 4 = false → w1.getLsbD 3 = false →
      (op = 0b000 → decodeWords w1 w2 = .add y a b) ∧ (op = 0b001 → decodeWords w1 w2 = .sub y a b) ∧
      (op = 0b010 → decodeWords w1 w2 = .xor y a b) ∧ (op = 0b011 → decodeWords w1 w2 = .xnor y a b) ∧
      (op = 0b100 → decodeWords w1 w2 = .or y a b) ∧ (op = 0b101 → decodeWords w1 w2 = .orn y a b) ∧
      (op = 0b110 → decodeWords w1 w2 = .and y a b) ∧ (op = 0b111 → decodeWords w1 w2 = .andn y a b)) ∧
    (w1.getLsbD 11 = false → w1.getLsbD 4 = false → w1.getLsbD 3 = true →
      (op = 0b000 → decodeWords w1 w2 = .addc y a b) ∧ (op = 0b001 → decodeWords w1 w2 = .subc y a b) ∧
      (op = 0b010 → decodeWords w1 w2 = .teq a b) ∧ (op = 0b011 → decodeWords w1 w2 = .tcm a b) ∧
      (op = 0b100 → decodeWords w1 w2 = .cmn a b) ∧ (op = 0b101 → decodeWords w1 w2 = .cmp a b) ∧
      (op = 0b110 → decodeWords w1 w2 = .rsv2op6) ∧ (op = 0b111 → decodeWords w1 w2 = .rsv2op7)) ∧
    (w1.getLsbD 11 = false → w1.getLsbD 4 = true → decodeWords w1 w2 = .rsv1 op)

/-- MOV words decode as the opcode table says (30_encoding.md R88 rows 24 to 33, R89 RSV3, RSV4 and RSV6): bit 3 regular or
special, bits 11 and 4 the files, bit 2 the direction and bits 1:0 the special register. That a file bit set in a special
move is reserved is decision D23 (log 32). -/
def Obligations.MovWordsFollowTheOpcodeTable : Prop :=
  ∀ w1 w2 : Word, w1.extractLsb' 12 4 = 0b0011 →
    let d : RegNo := w1.extractLsb' 8 3
    let r : RegNo := w1.extractLsb' 5 3
    let df := w1.getLsbD 11
    let sf := w1.getLsbD 4
    let sp := w1.extractLsb' 0 2
    (w1.getLsbD 3 = false →
      (df = false → sf = false → decodeWords w1 w2 = .movRR d r) ∧
      (df = true → sf = true → decodeWords w1 w2 = .movMM d r) ∧
      (df = true → sf = false → decodeWords w1 w2 = .movMR d r) ∧
      (df = false → sf = true → decodeWords w1 w2 = .movRM d r)) ∧
    (w1.getLsbD 3 = true → sp = 0b00 → decodeWords w1 w2 = .rsv3) ∧
    (w1.getLsbD 3 = true → w1.getLsbD 2 = false →
      (sp = 0b01 → decodeWords w1 w2 = if df then .rsv6ReadSr else .movsRSr d) ∧
      (sp = 0b10 → decodeWords w1 w2 = if df then .rsv6ReadMdb else .movsRMdb d) ∧
      (sp = 0b11 → decodeWords w1 w2 = if df then .rsv6ReadIvb else .movsRIvb d)) ∧
    (w1.getLsbD 3 = true → w1.getLsbD 2 = true →
      (sp = 0b01 → decodeWords w1 w2 = if sf then .rsv6WriteSr else .movsSrR r) ∧
      (sp = 0b10 → decodeWords w1 w2 = if sf then .rsv6WriteMdb else .movsMdbR r) ∧
      (sp = 0b11 → decodeWords w1 w2 = if sf then .rsv6WriteIvb else .movsIvbR r))

/-- The words of the immediate, direct and indirect loads and stores decode as the opcode table says (30_encoding.md R88
rows 34 to 55): registers with their file bit, pairs, and immediates of 16, 24 and 25 bits with their high part in the
first word (R85, R86, R87). For the split immediates of LDim, LDd and STd the source writes this only by the order of its
tables: it is decision D7 (log 34). -/
def Obligations.LoadAndStoreWordsFollowTheOpcodeTable : Prop :=
  ∀ w1 w2 : Word,
    let n : RegNo := w1.extractLsb' 8 3
    let mp := w1.getLsbD 11
    let r : Reg := ⟨if mp then .mp else .gpr, n⟩
    let a : BitVec 24 := w1.extractLsb' 0 8 ++ w2
    let o : RegNo := w1.extractLsb' 5 3
    let p := Pair.ofIndex (w1.extractLsb' 0 2).toNat
    let way := w1.extractLsb' 2 3
    (w1.extractLsb' 12 4 = 0b0010 →
      decodeWords w1 w2 =
        if mp then .ldim (Pair.ofIndex (w1.extractLsb' 9 2).toNat) (w1.extractLsb' 0 9 ++ w2) else .ldir n w2) ∧
    (w1.extractLsb' 12 4 = 0b0100 → decodeWords w1 w2 = if mp then .lddM n a else .lddR n a) ∧
    (w1.extractLsb' 12 4 = 0b0101 → decodeWords w1 w2 = if mp then .stdM n a else .stdR n a) ∧
    (w1.extractLsb' 12 4 = 0b0110 →
      (way = 0b000 → decodeWords w1 w2 = .ld r p) ∧ (way = 0b001 → decodeWords w1 w2 = .ldStar r p) ∧
      (way = 0b010 → decodeWords w1 w2 = .ldr r p o) ∧ (way = 0b011 → decodeWords w1 w2 = .ldo r p w2) ∧
      (way = 0b100 → decodeWords w1 w2 = .ldpostr r p o) ∧ (way = 0b101 → decodeWords w1 w2 = .ldposto r p w2) ∧
      (way = 0b110 → decodeWords w1 w2 = .ldprer r p o) ∧ (way = 0b111 → decodeWords w1 w2 = .ldpreo r p w2)) ∧
    (w1.extractLsb' 12 4 = 0b0111 →
      (way = 0b000 → decodeWords w1 w2 = .st r p) ∧ (way = 0b001 → decodeWords w1 w2 = .stStar r p) ∧
      (way = 0b010 → decodeWords w1 w2 = .str r p o) ∧ (way = 0b011 → decodeWords w1 w2 = .sto r p w2) ∧
      (way = 0b100 → decodeWords w1 w2 = .stpostr r p o) ∧ (way = 0b101 → decodeWords w1 w2 = .stposto r p w2) ∧
      (way = 0b110 → decodeWords w1 w2 = .stprer r p o) ∧ (way = 0b111 → decodeWords w1 w2 = .stpreo r p w2))

/-- Jump, Address Arithmetic and miscellaneous words decode as the opcode table says (30_encoding.md R88 rows 56 to 76, R89
RSV5 and RSV7). That bit 4 selects a two-word form when bit 8 is 0 is the resolution of 90_conflicts.md C1 (log 24); that the
offset of ADDpi has 24 bits is that of C2, and that their top 8 are in the first word is decision D7 (R85; log 34). -/
def Obligations.JumpAndMiscWordsFollowTheOpcodeTable : Prop :=
  ∀ w1 w2 : Word,
    let off : BitVec 24 := w1.extractLsb' 0 8 ++ w2
    let cond := w1.extractLsb' 8 4
    let p := Pair.ofIndex (w1.extractLsb' 9 2).toNat
    let n : RegNo := w1.extractLsb' 5 3
    let mop := w1.extractLsb' 8 3
    (w1.extractLsb' 12 4 = 0b0001 →
      (cond = 0b0000 → decodeWords w1 w2 = .j off) ∧ (cond = 0b0001 → decodeWords w1 w2 = .jz off) ∧
      (cond = 0b0010 → decodeWords w1 w2 = .jn off) ∧ (cond = 0b0011 → decodeWords w1 w2 = .rsv5c3) ∧
      (cond = 0b0100 → decodeWords w1 w2 = .jo off) ∧ (cond = 0b0101 → decodeWords w1 w2 = .rsv5c5) ∧
      (cond = 0b0110 → decodeWords w1 w2 = .rsv5c6) ∧ (cond = 0b0111 → decodeWords w1 w2 = .jnc off) ∧
      (cond = 0b1000 → decodeWords w1 w2 = .jc off) ∧ (cond = 0b1001 → decodeWords w1 w2 = .rsv5c9) ∧
      (cond = 0b1010 → decodeWords w1 w2 = .rsv5c10) ∧ (cond = 0b1011 → decodeWords w1 w2 = .jno off) ∧
      (cond = 0b1100 → decodeWords w1 w2 = .rsv5c12) ∧ (cond = 0b1101 → decodeWords w1 w2 = .jnn off) ∧
      (cond = 0b1110 → decodeWords w1 w2 = .jnz off) ∧ (cond = 0b1111 → decodeWords w1 w2 = .jsr off)) ∧
    (w1.extractLsb' 11 5 = 0b00001 →
      (w1.getLsbD 8 = true → decodeWords w1 w2 = .addpi p off) ∧
      (w1.getLsbD 8 = false → w1.getLsbD 4 = false → decodeWords w1 w2 = .addp p n) ∧
      (w1.getLsbD 8 = false → w1.getLsbD 4 = true → decodeWords w1 w2 = .addpo p w2)) ∧
    (w1.extractLsb' 11 5 = 0b00000 →
      (mop = 0b000 → decodeWords w1 w2 = .nop) ∧ (mop = 0b001 → decodeWords w1 w2 = .hlt) ∧
      (mop = 0b010 → decodeWords w1 w2 = .reset) ∧ (mop = 0b011 → decodeWords w1 w2 = .dma) ∧
      (mop = 0b100 → decodeWords w1 w2 = .eint (w1.extractLsb' 0 8)) ∧ (mop = 0b101 → decodeWords w1 w2 = .setpr n) ∧
      (mop = 0b110 → decodeWords w1 w2 = .clrim n) ∧ (mop = 0b111 → decodeWords w1 w2 = .setim n))

/-- The length of an instruction, from its first word alone (30_encoding.md R82), the last case but one by the resolution of
90_conflicts.md C1 (log 24); and an instruction of one word does not depend on the word after it, nor do LD* and ST* of two
(R90). -/
def Obligations.LengthComesFromTheFirstWord : Prop :=
  ∀ w1 : Word,
    lengthWords w1 =
      (if w1.getLsbD 15 then 1
       else if w1.extractLsb' 12 4 = 0b0011 then 1
       else if w1.extractLsb' 12 4 = 0b0010 then 2
       else if w1.extractLsb' 13 3 = 0b010 then 2
       else if w1.extractLsb' 13 3 = 0b011 then (if w1.getLsbD 2 then 2 else 1)
       else if w1.extractLsb' 12 4 = 0b0001 then 2
       else if w1.extractLsb' 11 5 = 0b00001 then (if w1.getLsbD 8 then 2 else if w1.getLsbD 4 then 2 else 1)
       else 1) ∧
    (lengthWords w1 = 1 ∨ (w1.extractLsb' 13 3 = 0b011 ∧ w1.extractLsb' 2 3 = 0b001) →
      ∀ w2 w2' : Word, decodeWords w1 w2 = decodeWords w1 w2')

/-- Decoding is total: bytes, in either byte order, fail to decode only when they are fewer than the instruction's length
(30_encoding.md R82, 20_memory.md R52), and what decodes is an instruction with an encoding, so no bytes decode to TST
(40_alu.md R134; log 25). -/
def Obligations.DecodingFailsOnlyOnTooFewBytes : Prop :=
  ∀ (order : ByteOrder) (b0 b1 : Byte), decode order [] = .error .truncated ∧ decode order [b0] = .error .truncated ∧
    ∀ bs : List Byte,
      (bs.length < 2 ∧ lengthWords (wordOfBytes order b0 b1) = 2 → decode order (b0 :: b1 :: bs) = .error .truncated) ∧
      (2 ≤ bs.length ∨ lengthWords (wordOfBytes order b0 b1) = 1 →
        ∃ i, i.wellFormed = true ∧
          decode order (b0 :: b1 :: bs) = .ok (i, bs.drop (2 * lengthWords (wordOfBytes order b0 b1) - 2)))

/-- A few words written out from the layouts of 30_encoding.md R88 decode to the instructions they stand for: one of each
family, with don't-care bits set in some (that the first word holds the high part of LDim's, STd's and ADDpi's immediate is
decision D7, log 34). -/
def Obligations.SampleWordsDecode : Prop :=
  decodeWords 0x8B7F 0 = .addi 3 0x7F ∧
  decodeWords 0x9A45 0 = .subi 2 0x45 ∧
  decodeWords 0xD08A 0 = .cmp 4 2 ∧
  decodeWords 0x3E57 0 = .movMM 6 2 ∧
  decodeWords 0x3FAE 0 = .movsMdbR 5 ∧
  decodeWords 0x25FF 0xBEEF = .ldir 5 0xBEEF ∧
  decodeWords 0x2AFF 0xFFFC = .ldim .sp 0xFFFFFC ∧
  decodeWords 0x5A7F 0xFFFF = .stdM 2 0x7FFFFF ∧
  decodeWords 0x6117 0x0002 = .ldposto ⟨.gpr, 1⟩ .bp 2 ∧
  decodeWords 0x1EFF 0xFFF8 = .jnz 0xFFFFF8 ∧
  decodeWords 0x0A60 0 = .addp .sp 3 ∧
  decodeWords 0x0BFF 0xFFFC = .addpi .sp 0xFFFFFC ∧
  decodeWords 0x07E0 0 = .setim 7

/-- How an operand becomes a value. Offsets of 16 and 24 bits are signed (20_memory.md R64, decision D7; log 34); an ALU
constant is zero-extended (30_encoding.md R85); a 24-bit word address reaches the bottom 16 Mbytes when its top bit is 0
and the top 16 Mbytes when it is 1, always at an even address (43_direct_load_store.md R180, decision D27); a value of LDim
is zero-extended (decision D8; log 6); PC read as data is the address after the instruction (decision D5; log 4). -/
def Obligations.OperandsBecomeTheseValues : Prop :=
  (∀ v : Word, (offset16 v).toInt = v.toInt) ∧
  (∀ v : BitVec 24, (offset24 v).toInt = v.toInt) ∧
  (∀ c : Byte, (constWord c).toNat = c.toNat) ∧
  (∀ a : BitVec 24, (directAddr a).toNat % 2 = 0 ∧
    (a.toNat < 2 ^ 23 → (directAddr a).toNat = 2 * a.toNat) ∧
    (2 ^ 23 ≤ a.toNat → (directAddr a).toNat = 0xFF000000 + 2 * (a.toNat - 2 ^ 23))) ∧
  (∀ v : BitVec 25, (ldimValue v).toNat = v.toNat) ∧
  (∀ (len : Nat) (s : State), (readPair len .pc s).toNat = (s.pc.toNat + 2 * len) % 2 ^ 32 ∧
    readPair len .sp s = s.sp ∧ readPair len .fp s = s.fp ∧ readPair len .bp s = s.bp) ∧
  (∀ (off : BitVec 24) (s : State), ((jumpTarget off s).toNat : Int) = (s.pc.toNat + 4 + off.toInt) % 2 ^ 32)

/-! ### The step -/

/-- A step runs the decoded instruction. The CPU runs, no host event acts in this step, no prefix is pending, pc is even, and
the word or the two words at pc are outside the I/O range and none of them was written by the program: then the step is the
execution of the instruction those words decode to, at the same state with the host's entry of this step used up (log 20);
the meaning itself moves pc past the instruction (70_reset_and_hazards.md R310). Words that memory does not list, or in the
I/O range, are the next statement's. -/
def Obligations.StepRunsTheDecodedInstruction : Prop :=
  ∀ (s : State) (w1 w2 : Word),
    s.Undisturbed → s.run = .running → s.pfx = none → s.pc.toNat % 2 = 0 →
    s.pc.toNat < 0xFF000000 → s.pc.toNat ∉ s.written → s.memory.wordAt s.pc.toNat = some w1 →
    (lengthWords w1 = 1 → step s = exec (decodeWords w1 w2) { s with hostEvents := s.hostEvents.tail }) ∧
    (lengthWords w1 = 2 → s.pc.toNat + 2 < 0xFF000000 → s.pc.toNat + 2 ∉ s.written →
      s.memory.wordAt (s.pc.toNat + 2) = some w2 →
      step s = exec (decodeWords w1 w2) { s with hostEvents := s.hostEvents.tail })

/-- A fetch runs whatever words it reads, each of the two by itself: the word memory holds, or a free word where nothing is
written and in the I/O range, whose values the source does not determine (20_memory.md R51, R56; log 16, 17). At an even pc,
where the program wrote neither word and pc does not run past the top of memory, the step is the execution of the instruction
the two words decode to, with the draws counted and the host's entry of this step used up (log 20). -/
def Obligations.UnwrittenWordsRunAsFreeWords : Prop :=
  ∀ (s : State) (w1 w2 : Word) (n m : Nat), s.Undisturbed → s.run = .running → s.pfx = none → s.pc.toNat % 2 = 0 →
    s.pc.toNat ∉ s.written → ReadsWord s s.pc w1 n →
    (lengthWords w1 = 1 → s.pc.toNat + 2 < 2 ^ 32 →
      step s = exec (decodeWords w1 w2) { s with draws := s.draws + n, hostEvents := s.hostEvents.tail }) ∧
    (lengthWords w1 = 2 → s.pc.toNat + 4 < 2 ^ 32 → s.pc.toNat + 2 ∉ s.written →
      ReadsWord { s with draws := s.draws + n } (s.pc + 2) w2 m →
      step s = exec (decodeWords w1 w2) { s with draws := s.draws + n + m, hostEvents := s.hostEvents.tail })

/-- What the step refuses before it executes, in the order of 70_reset_and_hazards.md R310: a pending prefix (decision
D12; log 14), an odd pc (decision D3; log 2), a first or second word the program wrote (decision D18; log 15), an advance of
pc that wraps (decision D19; log 27). The second word of an instruction at the top of memory is at address 0 (log 34). -/
def Obligations.StepRefusesBeforeExecuting : Prop :=
  ∀ s : State, s.Undisturbed → s.run = .running →
    (s.pfx ≠ none → step s = .refused .prefixedInstruction) ∧
    (s.pfx = none → s.pc.toNat % 2 = 1 → step s = .refused .oddPc) ∧
    (s.pfx = none → s.pc.toNat % 2 = 0 → s.pc.toNat ∈ s.written → step s = .refused .selfModifyingCode) ∧
    ∀ w1 n, s.pfx = none → s.pc.toNat % 2 = 0 → s.pc.toNat ∉ s.written → ReadsWord s s.pc w1 n →
      (lengthWords w1 = 2 → (s.pc + 2).toNat ∈ s.written → step s = .refused .selfModifyingCode) ∧
      (2 ^ 32 ≤ s.pc.toNat + 2 * lengthWords w1 → (lengthWords w1 = 2 → (s.pc + 2).toNat ∉ s.written) →
        step s = .refused .pcWrap)

/-- What the events of the host do, and where they do nothing (70_reset_and_hazards.md R309, 60_exceptions.md R274; that
`hostEvents` says for each step to come what the host does is log 20). Reset acts in every run state, before anything else
of that step, and leaves what the RESET instruction leaves: that the button does the same, that MDB, IVB, the masks and the
prefix are cleared and that pc starts at 0 is decision D15 (log 18), that the output events stay is
D27 and log 17, and that the count of free values and the parameters stay is log 22, 8 and 12; Resume only in `halted`; a DMA
write and DmaDone only in `dma`. An entry whose event may not act in the run state of its step, an entry that is nothing, and no entry at all have no effect: a running CPU fetches and executes an
instruction, a stopped one stays as it is. A DMA write at an odd address is refused (decision D3; log 2); at an even one it
replaces one word of memory and leaves the list of words written by the program alone (20_memory.md R61; log 21). -/
def Obligations.HostEventsAct : Prop :=
  ∀ (s : State) (rest : List (Option HostEvent)),
    let idles : Prop :=
      (s.run = .running → step s = stepInstr { s with hostEvents := rest }) ∧
      (s.run ≠ .running → step s = .next { s with hostEvents := rest })
    (s.hostEvents = some .reset :: rest →
      step s = .next { State.reset with
        memory := s.memory, outputs := s.outputs, draws := s.draws, hostEvents := rest
        subCarry := s.subCarry, srLayout := s.srLayout }) ∧
    (s.hostEvents = some .resume :: rest →
      (s.run = .halted → step s = .next { s with run := .running, hostEvents := rest }) ∧
      (s.run ≠ .halted → idles)) ∧
    (s.hostEvents = some .dmaDone :: rest →
      (s.run = .dma → step s = .next { s with run := .running, hostEvents := rest }) ∧
      (s.run ≠ .dma → idles)) ∧
    (∀ a v, s.hostEvents = some (.dmaWrite a v) :: rest →
      (s.run = .dma → a.toNat % 2 = 1 → step s = .refused .oddAddress) ∧
      (s.run = .dma → a.toNat % 2 = 0 →
        ∃ t, step s = .next t ∧ t = { s with memory := t.memory, hostEvents := rest } ∧
          t.memory.wordAt a.toNat = some v ∧
          ∀ b, b ≠ a.toNat → b ≠ a.toNat + 1 → t.memory.read b = s.memory.read b) ∧
      (s.run ≠ .dma → idles)) ∧
    (s.hostEvents = none :: rest ∨ (s.hostEvents = [] ∧ rest = []) → idles)

/-- An instruction placed with `withFetchWord` at an even pc below the I/O range runs at the very next step: the step is the
execution of the instruction `decodeTableWord` reads from the same bits (70_reset_and_hazards.md R310). It stands for the
load of a program from outside (R303, decision D28; log 19). -/
def Obligations.PlacedInstructionRunsNext : Prop :=
  ∀ (s : State) (nbits w : Nat) (i : Instr),
    s.pc.toNat % 2 = 0 → s.pc.toNat + 2 < 0xFF000000 → decodeTableWord nbits w = some i →
    step (s.withFetchWord nbits w) = exec i (s.withFetchWord nbits w)

/-- Every step keeps a good state good: memory stays canonical, inside the address space and made of whole words, pc stays
even, the words written by the program stay a rising list of even RAM addresses, output events stay in the I/O range (10_state.md
R26, 20_memory.md R50, R51, R56, R61). That odd addresses are refused, where the I/O range is and that written words are
recorded are decisions D3, D27 and D18 (log 2, 17, 15). -/
def Obligations.StepKeepsGoodStates : Prop :=
  ∀ s t : State, s.Good → step s = .next t → t.Good

/-- The state after reset is good. -/
def Obligations.ResetStateIsGood : Prop := State.reset.Good

/-- The state after reset (10_state.md R39): every general register and pair 0, every flag 0, no pending prefix, running.
That MDB, IVB, the masks and the rest of SR are 0 and that pc starts at 0 is decision D15 (log 18). Memory lists nothing,
so every word reads as a free value (decision D28; log 16). SUB_CARRY and SR_LAYOUT have the spec's default (00_scope.md R7,
decisions D10 and D11; log 8, 12). -/
def Obligations.ResetValues : Prop :=
  (∀ i : RegNo, State.reset.x[i.toNat]'i.isLt = 0) ∧
  State.reset.pc = 0 ∧ State.reset.sp = 0 ∧ State.reset.fp = 0 ∧ State.reset.bp = 0 ∧
  State.reset.flags = ⟨false, false, false, false⟩ ∧ State.reset.srRest = 0 ∧
  State.reset.mdb = 0 ∧ State.reset.ivb = 0 ∧ (∀ m : RegNo, State.reset.im[m.toNat]'m.isLt = false) ∧
  State.reset.pfx = none ∧ State.reset.run = .running ∧ State.reset.written = [] ∧
  State.reset.subCarry = .unspecified ∧ State.reset.srLayout = none ∧
  ∀ a, State.reset.memory.read a = none

/-! ### ALU -/

/-- The additions ADDi, ADD, ADDC and CMN are exact: the destination holds the exact sum modulo 2^16, C says that the
unsigned sum does not fit, O that the signed one does not, N and Z describe the result; every other register, flag and
byte of memory stays, pc moves past one word, and CMN writes no register (40_alu.md R112, R120, R122, R132). The meanings of N, C and O,
and that ADDC adds the Carry flag, are general knowledge of the spec (R111; log 10). -/
def Obligations.AdditionsAreExact : Prop :=
  ∀ (s : State) (y a b : RegNo) (c : Byte),
    let p := s.x[a.toNat]'a.isLt
    let q := s.x[b.toNat]'b.isLt
    let cin := s.flags.c.toNat
    exec (.addi a c) s = .next { s with
      pc := s.pc + 2
      x := s.x.set a.toNat (BitVec.ofInt 16 (p.toInt + c.toNat)) a.isLt
      flags := exactFlags (decide (65536 ≤ p.toNat + c.toNat)) (p.toInt + c.toNat) } ∧
    exec (.add y a b) s = .next { s with
      pc := s.pc + 2
      x := s.x.set y.toNat (BitVec.ofInt 16 (p.toInt + q.toInt)) y.isLt
      flags := exactFlags (decide (65536 ≤ p.toNat + q.toNat)) (p.toInt + q.toInt) } ∧
    exec (.addc y a b) s = .next { s with
      pc := s.pc + 2
      x := s.x.set y.toNat (BitVec.ofInt 16 (p.toInt + q.toInt + cin)) y.isLt
      flags := exactFlags (decide (65536 ≤ p.toNat + q.toNat + cin)) (p.toInt + q.toInt + cin) } ∧
    exec (.cmn a b) s = .next { s with
      pc := s.pc + 2
      flags := exactFlags (decide (65536 ≤ p.toNat + q.toNat)) (p.toInt + q.toInt) }

/-- The subtractions SUBi, SUB and CMP are exact: the destination holds the exact difference modulo 2^16, O says that the
signed difference does not fit, N and Z describe the result, and C is the borrow, its complement or a free bit as SUB_CARRY
says (40_alu.md R113, R121, R133; N and O log 10, C log 8); the rest of the state stays, one free value is counted, and CMP writes no
register. -/
def Obligations.SubtractionsAreExact : Prop :=
  ∀ (s : State) (y a b : RegNo) (c : Byte),
    let p := s.x[a.toNat]'a.isLt
    let q := s.x[b.toNat]'b.isLt
    let carry (borrow : Bool) : Bool :=
      match s.subCarry with
      | .borrow => borrow
      | .notBorrow => !borrow
      | .unspecified => Config.freeBit s.draws
    exec (.subi a c) s = .next { s with
      pc := s.pc + 2
      x := s.x.set a.toNat (BitVec.ofInt 16 (p.toInt - c.toNat)) a.isLt
      flags := exactFlags (carry (decide (p.toNat < c.toNat))) (p.toInt - c.toNat)
      draws := s.draws + 1 } ∧
    exec (.sub y a b) s = .next { s with
      pc := s.pc + 2
      x := s.x.set y.toNat (BitVec.ofInt 16 (p.toInt - q.toInt)) y.isLt
      flags := exactFlags (carry (decide (p.toNat < q.toNat))) (p.toInt - q.toInt)
      draws := s.draws + 1 } ∧
    exec (.cmp a b) s = .next { s with
      pc := s.pc + 2
      flags := exactFlags (carry (decide (p.toNat < q.toNat))) (p.toInt - q.toInt)
      draws := s.draws + 1 }

/-- SUBC under each value of SUB_CARRY (40_alu.md R123, R111). Under `borrow` it takes C in and leaves the borrow in C, under
`not_borrow` the complements: the destination holds the exact difference modulo 2^16, O says that the signed difference does
not fit, N and Z describe the result (N and O log 10); the rest of the state stays, and one free value is counted as in every
subtraction (log 8). Under `unspecified`, the default (decision D10), it is refused. -/
def Obligations.SubtractionWithCarryIsExact : Prop :=
  ∀ (s : State) (y a b : RegNo),
    let p := s.x[a.toNat]'a.isLt
    let q := s.x[b.toNat]'b.isLt
    let after (bin : Bool) (carry : Bool → Bool) : State := { s with
      pc := s.pc + 2
      x := s.x.set y.toNat (BitVec.ofInt 16 (p.toInt - q.toInt - bin.toNat)) y.isLt
      flags := exactFlags (carry (decide (p.toNat < q.toNat + bin.toNat))) (p.toInt - q.toInt - bin.toNat)
      draws := s.draws + 1 }
    (s.subCarry = .borrow → exec (.subc y a b) s = .next (after s.flags.c id)) ∧
    (s.subCarry = .notBorrow → exec (.subc y a b) s = .next (after (!s.flags.c) not)) ∧
    (s.subCarry = .unspecified → exec (.subc y a b) s = .refused .subcNeedsSubCarry)

/-- The logic operations with a constant work bit by bit on the register and the constant, whose bits above 7 are 0 before
any complement (40_alu.md R114 to R119; that the complement comes after the extension is decision D9, log 7, and the
meanings of the mnemonics are log 10). N and Z describe the result; C and O are cleared, unchanged or free as LOGIC_CO says
(log 9); the rest of the state stays. -/
def Obligations.LogicWithConstantsIsBitwise : Prop :=
  ∀ (s : State) (a : RegNo) (c : Byte),
    let after (i : Instr) (op : Bool → Bool → Bool) : Prop :=
      ∃ res : Word,
        (∀ k, k < 16 → res.getLsbD k = op ((s.x[a.toNat]'a.isLt).getLsbD k) (c.getLsbD k)) ∧
        exec i s = .next { s with
          pc := s.pc + 2
          x := s.x.set a.toNat res a.isLt
          flags := {
            c := match Config.logicCo with
              | .cleared => false
              | .unchanged => s.flags.c
              | .unspecified => Config.freeBit s.draws
            o := match Config.logicCo with
              | .cleared => false
              | .unchanged => s.flags.o
              | .unspecified => Config.freeBit (s.draws + 1)
            n := res.getLsbD 15
            z := decide (res.toNat = 0) }
          draws := s.draws + 2 }
    after (.xori a c) (fun p k => p ^^ k) ∧ after (.xnori a c) (fun p k => !(p ^^ k)) ∧
    after (.ori a c) (fun p k => p || k) ∧ after (.orni a c) (fun p k => p || !k) ∧
    after (.andi a c) (fun p k => p && k) ∧ after (.andni a c) (fun p k => p && !k)

/-- The logic operations between registers work bit by bit on both operands, read before the destination is written
(40_alu.md R110, R124 to R129; the meanings of the mnemonics are log 10). Flags as for the constant forms (log 9, 10); the
rest of the state stays. -/
def Obligations.LogicBetweenRegistersIsBitwise : Prop :=
  ∀ (s : State) (y a b : RegNo),
    let after (i : Instr) (op : Bool → Bool → Bool) : Prop :=
      ∃ res : Word,
        (∀ k, k < 16 →
          res.getLsbD k = op ((s.x[a.toNat]'a.isLt).getLsbD k) ((s.x[b.toNat]'b.isLt).getLsbD k)) ∧
        exec i s = .next { s with
          pc := s.pc + 2
          x := s.x.set y.toNat res y.isLt
          flags := {
            c := match Config.logicCo with
              | .cleared => false
              | .unchanged => s.flags.c
              | .unspecified => Config.freeBit s.draws
            o := match Config.logicCo with
              | .cleared => false
              | .unchanged => s.flags.o
              | .unspecified => Config.freeBit (s.draws + 1)
            n := res.getLsbD 15
            z := decide (res.toNat = 0) }
          draws := s.draws + 2 }
    after (.xor y a b) (fun p q => p ^^ q) ∧ after (.xnor y a b) (fun p q => !(p ^^ q)) ∧
    after (.or y a b) (fun p q => p || q) ∧ after (.orn y a b) (fun p q => p || !q) ∧
    after (.and y a b) (fun p q => p && q) ∧ after (.andn y a b) (fun p q => p && !q)

/-- TEQ, TCM and TST write no register. Z after TEQ says that the operands are equal, after TCM that they are complements,
after TST that they share no 1 bit (40_alu.md R111, R130, R131, R134); N is the top bit of the XOR, XNOR or AND (log 10), C
and O are as LOGIC_CO says (log 9). TST has no encoding, only this meaning (log 25). -/
def Obligations.TestsSetFlagsAlone : Prop :=
  ∀ (s : State) (a b : RegNo),
    let p := s.x[a.toNat]'a.isLt
    let q := s.x[b.toNat]'b.isLt
    let after (i : Instr) (n z : Bool) : Prop :=
      exec i s = .next { s with
        pc := s.pc + 2
        flags := {
          c := match Config.logicCo with
            | .cleared => false
            | .unchanged => s.flags.c
            | .unspecified => Config.freeBit s.draws
          o := match Config.logicCo with
            | .cleared => false
            | .unchanged => s.flags.o
            | .unspecified => Config.freeBit (s.draws + 1)
          n := n
          z := z }
        draws := s.draws + 2 }
    after (.teq a b) (p.getLsbD 15 ^^ q.getLsbD 15) (decide (p = q)) ∧
    after (.tcm a b) (!(p.getLsbD 15 ^^ q.getLsbD 15)) (decide (p = ~~~q)) ∧
    after (.tst a b) (p.getLsbD 15 && q.getLsbD 15) (decide (∀ k : Fin 16, ¬ (p.getLsbD k = true ∧ q.getLsbD k = true)))

/-! ### Moves -/

/-- MOV rB rA (41_mov.md R151): the words 0011 0ddd sss0 0xxx, one word long, copy GPR s to GPR d and change nothing else
but pc; copying a register to itself leaves the registers as they are. -/
def Obligations.MovBetweenGprsCopies : Prop :=
  (∀ w1 w2 : Word, w1.extractLsb' 11 5 = 0b00110 → w1.extractLsb' 3 2 = 0b00 →
    lengthWords w1 = 1 ∧ decodeWords w1 w2 = .movRR (w1.extractLsb' 8 3) (w1.extractLsb' 5 3)) ∧
  decodeWords 0x3140 0 = .movRR 1 2 ∧
  ∀ (s : State) (d r : RegNo),
    exec (.movRR d r) s = .next { s with pc := s.pc + 2, x := s.x.set d.toNat (s.x[r.toNat]'r.isLt) d.isLt } ∧
    s.x.set d.toNat (s.x[d.toNat]'d.isLt) d.isLt = s.x

/-- MOV rB mpA reads a half of a pair; mp0 and mp1 read the halves of the address after the move (41_mov.md R154; which half
is which is decision D4, log 3, and the value of PC is decision D5, log 4). -/
def Obligations.MovReadsMemoryPointerHalves : Prop :=
  ∀ (s : State) (d r : RegNo),
    exec (.movRM d r) s = .next { s with pc := s.pc + 2, x := s.x.set d.toNat (mpWord 1 r s) d.isLt }

/-- MOV mpB rA and MOV mpB mpA replace one half of SP, FP or BP, and nothing else but pc (41_mov.md R152, R153; which half is
which is decision D4, log 3; that mp0 and mp1 as sources are the halves of the address after the move is decision D5, log
4). -/
def Obligations.MovWritesMemoryPointerHalves : Prop :=
  ∀ (s : State) (d r : RegNo), 2 ≤ d.toNat →
    exec (.movMR d r) s = .next (withMp d (s.x[r.toNat]'r.isLt) { s with pc := s.pc + 2 }) ∧
    exec (.movMM d r) s = .next (withMp d (mpWord 1 r s) { s with pc := s.pc + 2 })

/-- A move or a load into mp0 or mp1 would write one half of PC and is refused (10_state.md R28, decision D20; log 26):
both moves, LDd, and the indirect loads; with update this shows when the base is not PC. -/
def Obligations.HalfWritesOfPcAreRefused : Prop :=
  ∀ (s : State) (r : Reg) (d m o : RegNo) (p : Pair) (off : Word) (a : BitVec 24), d.toNat < 2 → InPc r →
    (∀ i ∈ [Instr.movMR d m, .movMM d m, .lddM d a, .ld r p, .ldStar r p, .ldr r p o, .ldo r p off],
      exec i s = .refused .halfWriteOfPc) ∧
    (p ≠ .pc → ∀ i ∈ [Instr.ldpostr r p o, .ldposto r p off, .ldprer r p o, .ldpreo r p off],
      exec i s = .refused .halfWriteOfPc)

/-- MOVs with SR, and the read of MDB. While SR_LAYOUT is OPEN, the default, MOVs rB SR loads a free word and MOVs SR rA is
refused (41_mov.md R155, R156, decision D11; log 11, 12). With SR_LAYOUT given, MOVs rB SR loads the flags at their places and
whatever else SR holds in the other bits; MOVs SR rA sets the flags to the bits at their places and what else SR holds to the
other bits, and so a value moved to SR is read back, and a value moved from SR restores the flags. That SR has 16 bits,
those that are no flag's included, is the model's choice (log 36). MOVs rB MDB loads a free word, a choice of the spec
(R157, decision D31; log 13). Nothing else changes but pc and the count of free values. -/
def Obligations.SrMovesAndMdbReads : Prop :=
  ∀ (s : State) (d r : RegNo),
    let w := s.x[r.toNat]'r.isLt
    let drawn : State := { s with
      pc := s.pc + 2, x := s.x.set d.toNat (Config.freeWord s.draws) d.isLt, draws := s.draws + 1 }
    exec (.movsRMdb d) s = .next drawn ∧
    (s.srLayout = none → exec (.movsRSr d) s = .next drawn ∧ exec (.movsSrR r) s = .refused .srLayoutUnknown) ∧
    ∀ l, s.srLayout = some l →
      (∃ v, exec (.movsRSr d) s = .next { s with pc := s.pc + 2, x := s.x.set d.toNat v d.isLt } ∧
        (l.Distinct → v.getLsbD l.c.toNat = s.flags.c ∧ v.getLsbD l.o.toNat = s.flags.o ∧
          v.getLsbD l.n.toNat = s.flags.n ∧ v.getLsbD l.z.toNat = s.flags.z) ∧
        ∀ i, i ∉ l.positions → v.getLsbD i.toNat = s.srRest.getLsbD i.toNat) ∧
      (∃ rest, exec (.movsSrR r) s = .next { s with
          pc := s.pc + 2
          flags := ⟨w.getLsbD l.c.toNat, w.getLsbD l.o.toNat, w.getLsbD l.n.toNat, w.getLsbD l.z.toNat⟩
          srRest := rest } ∧
        ∀ i, rest.getLsbD i.toNat = (decide (i ∉ l.positions) && w.getLsbD i.toNat)) ∧
      (∀ t, exec (.movsSrR r) s = .next t →
        ∃ u, exec (.movsRSr d) t = .next u ∧ u.x[d.toNat]'d.isLt = w) ∧
      (l.Distinct → ∀ t, exec (.movsRSr d) s = .next t →
        ∃ u, exec (.movsSrR d) t = .next u ∧ u.flags = s.flags)

/-- MOVs MDB rA (41_mov.md R158): the words 0011 xxxx sss0 1110 write the GPR to MDB and change nothing else but pc, and what
was written is not read back: MOVs rB MDB gives a word that does not depend on MDB, which is a choice of the spec, not the
source's word (R157, decision D31; log 13). -/
def Obligations.MdbIsWrittenFromAGpr : Prop :=
  (∀ w1 w2 : Word, w1.extractLsb' 12 4 = 0b0011 → w1.extractLsb' 0 5 = 0b01110 →
    lengthWords w1 = 1 ∧ decodeWords w1 w2 = .movsMdbR (w1.extractLsb' 5 3)) ∧
  decodeWords 0x30AE 0 = .movsMdbR 5 ∧
  ∀ (s : State) (d r : RegNo),
    exec (.movsMdbR r) s = .next { s with pc := s.pc + 2, mdb := s.x[r.toNat]'r.isLt } ∧
    ∃ t, exec (.movsRMdb d) s = .next t ∧ ∀ m, exec (.movsRMdb d) { s with mdb := m } = .next { t with mdb := m }

/-- MOVs IVB rA (41_mov.md R160): the words 0011 xxxx sss0 1111 write the 16 bits of the GPR to IVB and change nothing else
but pc, SR and the flags included. -/
def Obligations.IvbIsWrittenFromAGpr : Prop :=
  (∀ w1 w2 : Word, w1.extractLsb' 12 4 = 0b0011 → w1.extractLsb' 0 5 = 0b01111 →
    lengthWords w1 = 1 ∧ decodeWords w1 w2 = .movsIvbR (w1.extractLsb' 5 3)) ∧
  decodeWords 0x30AF 0 = .movsIvbR 5 ∧
  ∀ (s : State) (r : RegNo), exec (.movsIvbR r) s = .next { s with pc := s.pc + 2, ivb := s.x[r.toNat]'r.isLt }

/-- MOVs rB IVB is refused: IVB cannot be read (41_mov.md R159). Every word of its layout is, with the file bit or without. -/
def Obligations.IvbCannotBeRead : Prop :=
  (∀ (s : State) (d : RegNo), exec (.movsRIvb d) s = .refused .ivbCannotBeRead) ∧
  decodeWords 0x320B 0 = .movsRIvb 2 ∧
  ∀ (w1 w2 : Word) (s : State), w1.extractLsb' 12 4 = 0b0011 → w1.extractLsb' 0 4 = 0b1011 →
    ∃ why, exec (decodeWords w1 w2) s = .refused why

/-! ### Loads and stores -/

/-- LDir (42_load_immediate.md R170): the words 0010 0ddd xxxx xxxx and v load the second word into GPR d, go on after two
words, and change nothing else. That the step refuses it under a pending prefix is a choice of the spec (decision D12; log
14), and that no host event acts in that step is a premise on the model's list of them (log 20). -/
def Obligations.LdirLoadsTheSecondWord : Prop :=
  (∀ w1 w2 : Word, w1.extractLsb' 11 5 = 0b00100 →
    lengthWords w1 = 2 ∧ decodeWords w1 w2 = .ldir (w1.extractLsb' 8 3) w2) ∧
  decodeWords 0x2500 0xBEEF = .ldir 5 0xBEEF ∧
  (∀ (s : State) (d : RegNo) (v : Word),
    exec (.ldir d v) s = .next { s with pc := s.pc + 4, x := s.x.set d.toNat v d.isLt }) ∧
  ∀ s : State, s.Undisturbed → s.run = .running → s.pfx ≠ none → step s = .refused .prefixedInstruction

/-- LDim loads its value, zero-extended, into SP, FP or BP and goes on; into PC it is an absolute jump, and an odd value is
refused there (42_load_immediate.md R171; zero extension is decision D8, log 6; the odd value decision D3, log 2). -/
def Obligations.LdimLoadsAPairOrJumps : Prop :=
  ∀ (s : State) (v : BitVec 25),
    exec (.ldim .sp v) s = .next { s with pc := s.pc + 4, sp := BitVec.ofNat 32 v.toNat } ∧
    exec (.ldim .fp v) s = .next { s with pc := s.pc + 4, fp := BitVec.ofNat 32 v.toNat } ∧
    exec (.ldim .bp v) s = .next { s with pc := s.pc + 4, bp := BitVec.ofNat 32 v.toNat } ∧
    (v.toNat % 2 = 0 → exec (.ldim .pc v) s = .next { s with pc := BitVec.ofNat 32 v.toNat }) ∧
    (v.toNat % 2 = 1 → exec (.ldim .pc v) s = .refused .oddPc)

/-- LDd loads the word at its direct address into a GPR, or into a half of SP, FP or BP: the word memory holds, or a free
value in the I/O range and where nothing was written (43_direct_load_store.md R181, R183, 20_memory.md R51, R56; log 16,
17; which half of a pair a register is, log 3). Nothing else changes but pc and the count of free values, memory included. -/
def Obligations.DirectLoadsReadTheWord : Prop :=
  ∀ (s : State) (d : RegNo) (a : BitVec 24),
    (∃ v n, ReadsWord s (directAddr a) v n ∧
      exec (.lddR d a) s = .next { s with
        pc := s.pc + 4, x := s.x.set d.toNat v d.isLt, draws := s.draws + n }) ∧
    (2 ≤ d.toNat → ∃ v n, ReadsWord s (directAddr a) v n ∧
      exec (.lddM d a) s = .next (withMp d v { s with pc := s.pc + 4, draws := s.draws + n }))

/-- STd stores a GPR, or a half of a pair, at its direct address: one word of memory, or one output event in the I/O range
(43_direct_load_store.md R182, R184, 20_memory.md R51, R56; where the I/O range is and what it does is decision D27, log 17;
which half of a pair a register is and what mp0 and mp1 read are decisions D4 and D5, log 3, 4). Every byte outside the two
stored ones stays, and so does everything else but pc and the record of written words or of output events. -/
def Obligations.DirectStoresWriteTheWord : Prop :=
  ∀ (s : State) (r : RegNo) (a : BitVec 24),
    (∃ t, StoresWord s (directAddr a) (s.x[r.toNat]'r.isLt) t ∧
      exec (.stdR r a) s = .next { t with pc := s.pc + 4 }) ∧
    ∃ t, StoresWord s (directAddr a) (mpWord 2 r s) t ∧ exec (.stdM r a) s = .next { t with pc := s.pc + 4 }

/-- The indirect loads without update (LD, its two-word form, LDr, LDo) load the word at the base pair, plus the signed
offset in LDr and LDo, into any register outside PC, and nothing else changes but pc and the count of free values: the base
pair is not updated (a loaded register that is one of its halves replaces that half). The base may be PC, read as the
address after the instruction (44_indirect_load_store.md R191, R193, R195, R197, R199). Choices of the spec and the model:
which half a register is (decision D4, log 3), the value of PC (D5, log 4), offsets in bytes and sums that wrap (D7, D19, log
34), a free word where nothing is written and in the I/O range (D27, D28, log 16, 17). -/
def Obligations.IndirectLoadsKeepThePair : Prop :=
  ∀ (s : State) (r : Reg) (p : Pair) (o : RegNo) (off : Word), ¬ InPc r →
    let loads (i : Instr) (len : Nat) (ea : Addr) : Prop :=
      ea.toNat % 2 = 0 → ∃ v n, ReadsWord s ea v n ∧
        exec i s = .next (withReg r v { s with pc := s.pc + BitVec.ofNat 32 (2 * len), draws := s.draws + n })
    loads (.ld r p) 1 (readPair 1 p s) ∧
    loads (.ldStar r p) 2 (readPair 2 p s) ∧
    loads (.ldr r p o) 1 (readPair 1 p s + offset16 (s.x[o.toNat]'o.isLt)) ∧
    loads (.ldo r p off) 2 (readPair 2 p s + offset16 off)

/-- The indirect loads with update load the word at the base pair (the post forms) or at the sum (the pre forms) and leave
the sum in the pair, for a base other than PC and a register outside PC and outside the pair
(44_indirect_load_store.md R191, R201, R203, R205, R207; the meaning of post and pre is general knowledge of the spec,
R191). Nothing else changes but pc and the count of free values. Choices of the spec and the model: which half a register is
(decision D4, log 3), offsets in bytes and sums that wrap (D7, D19, log 34), a free word where nothing is written and in the
I/O range (D27, D28, log 16, 17). -/
def Obligations.IndirectLoadsUpdateThePair : Prop :=
  ∀ (s : State) (r : Reg) (p : Pair) (o : RegNo) (off : Word), ¬ InPc r → ¬ InPair r p → p ≠ .pc →
    let loads (i : Instr) (len : Nat) (ea sum : Addr) : Prop :=
      ea.toNat % 2 = 0 → ∃ v n, ReadsWord s ea v n ∧
        exec i s = .next (withPair p sum
          (withReg r v { s with pc := s.pc + BitVec.ofNat 32 (2 * len), draws := s.draws + n }))
    let byReg := readPair 1 p s + offset16 (s.x[o.toNat]'o.isLt)
    let byImm := readPair 2 p s + offset16 off
    loads (.ldpostr r p o) 1 (readPair 1 p s) byReg ∧
    loads (.ldposto r p off) 2 (readPair 2 p s) byImm ∧
    loads (.ldprer r p o) 1 byReg byReg ∧
    loads (.ldpreo r p off) 2 byImm byImm

/-- The indirect stores without update (ST, its two-word form, STr, STo) store any register, mp0 and mp1 included, at the
base pair, plus the signed offset in STr and STo; the pair stays, every byte outside the stored word stays, and nothing
else changes but pc and the record of written words, or of output events for an address in the I/O range
(44_indirect_load_store.md R191, R194, R196, R198, R200). Choices of the spec and the model: which half a register is
(decision D4, log 3), mp0, mp1 and the base PC as the address after the instruction (D5, log 4), offsets in bytes and sums
that wrap (D7, D19, log 34), output events in the I/O range (D27, log 17). -/
def Obligations.IndirectStoresKeepThePair : Prop :=
  ∀ (s : State) (r : Reg) (p : Pair) (o : RegNo) (off : Word),
    let stores (i : Instr) (len : Nat) (ea : Addr) : Prop :=
      ea.toNat % 2 = 0 → ∃ t, StoresWord s ea (regWord len r s) t ∧
        exec i s = .next { t with pc := s.pc + BitVec.ofNat 32 (2 * len) }
    stores (.st r p) 1 (readPair 1 p s) ∧
    stores (.stStar r p) 2 (readPair 2 p s) ∧
    stores (.str r p o) 1 (readPair 1 p s + offset16 (s.x[o.toNat]'o.isLt)) ∧
    stores (.sto r p off) 2 (readPair 2 p s + offset16 off)

/-- The indirect stores with update store at the base pair (the post forms) or at the sum (the pre forms) and leave the sum
in the pair, for a base other than PC and a register outside the pair (44_indirect_load_store.md R191, R202, R204, R206,
R208; the meaning of post and pre is general knowledge of the spec, R191). Every byte outside the stored word stays, and
nothing else changes but pc and the record of written words, or of output events for an address in the I/O range. Choices of
the spec and the model: which half a register is (decision D4, log 3), mp0 and mp1 as the address after the instruction (D5,
log 4), offsets in bytes and sums that wrap (D7, D19, log 34), output events in the I/O range (D27, log 17). -/
def Obligations.IndirectStoresUpdateThePair : Prop :=
  ∀ (s : State) (r : Reg) (p : Pair) (o : RegNo) (off : Word), ¬ InPair r p → p ≠ .pc →
    let stores (i : Instr) (len : Nat) (ea sum : Addr) : Prop :=
      ea.toNat % 2 = 0 → ∃ t, StoresWord s ea (regWord len r s) t ∧
        exec i s = .next (withPair p sum { t with pc := s.pc + BitVec.ofNat 32 (2 * len) })
    let byReg := readPair 1 p s + offset16 (s.x[o.toNat]'o.isLt)
    let byImm := readPair 2 p s + offset16 off
    stores (.stpostr r p o) 1 (readPair 1 p s) byReg ∧
    stores (.stposto r p off) 2 (readPair 2 p s) byImm ∧
    stores (.stprer r p o) 1 byReg byReg ∧
    stores (.stpreo r p off) 2 byImm byImm

/-- What an indirect access with update refuses before it forms an address: PC as the base (44_indirect_load_store.md R210,
decision D20), and a transferred register inside the base pair (R211, decision D21). Which name is given where both hold is
the model's choice (log 26). -/
def Obligations.UpdatingAccessesAreRefused : Prop :=
  ∀ (s : State) (r : Reg) (p : Pair) (o : RegNo) (off : Word),
    ∀ i ∈ [Instr.ldpostr r p o, .ldposto r p off, .ldprer r p o, .ldpreo r p off,
           .stpostr r p o, .stposto r p off, .stprer r p o, .stpreo r p off],
      (p = .pc → exec i s = .refused .updateOfPcByIndirectAccess) ∧
      (p ≠ .pc → InPair r p → exec i s = .refused .transferredRegisterInsideUpdatedPair)

/-- A data access at an odd address is refused (20_memory.md R53, decision D3; log 2): every indirect form whose other
checks pass, and JSR at an odd SP. The addresses rest on the value of PC (decision D5, log 4) and on offsets in bytes whose
sums wrap (D7, D19, log 34). -/
def Obligations.OddDataAddressesAreRefused : Prop :=
  ∀ (s : State) (r : Reg) (p : Pair) (o : RegNo) (off : Word) (joff : BitVec 24),
    let b1 := readPair 1 p s
    let b2 := readPair 2 p s
    let o1 := b1 + offset16 (s.x[o.toNat]'o.isLt)
    let o2 := b2 + offset16 off
    (∀ c ∈ [(Instr.st r p, b1), (.stStar r p, b2), (.str r p o, o1), (.sto r p off, o2)],
      c.2.toNat % 2 = 1 → exec c.1 s = .refused .oddAddress) ∧
    (¬ InPc r →
      ∀ c ∈ [(Instr.ld r p, b1), (.ldStar r p, b2), (.ldr r p o, o1), (.ldo r p off, o2)],
        c.2.toNat % 2 = 1 → exec c.1 s = .refused .oddAddress) ∧
    (p ≠ .pc → ¬ InPair r p →
      ∀ c ∈ [(Instr.stpostr r p o, b1), (.stposto r p off, b2), (.stprer r p o, o1), (.stpreo r p off, o2)],
        c.2.toNat % 2 = 1 → exec c.1 s = .refused .oddAddress) ∧
    (p ≠ .pc → ¬ InPair r p → ¬ InPc r →
      ∀ c ∈ [(Instr.ldpostr r p o, b1), (.ldposto r p off, b2), (.ldprer r p o, o1), (.ldpreo r p off, o2)],
        c.2.toNat % 2 = 1 → exec c.1 s = .refused .oddAddress) ∧
    (s.sp.toNat % 2 = 1 → exec (.jsr joff) s = .refused .oddAddress)

/-- A load returns what the latest store to the address left: after STd to a word of RAM, LDd of the same address gives the
stored register (20_memory.md R59), whichever of its bytes BYTE_ORDER puts at the lower address (R52; log 1). The address, and
that it is RAM, is decision D27 (log 17). -/
def Obligations.LoadReturnsTheStoredWord : Prop :=
  ∀ (s : State) (r d : RegNo) (a : BitVec 24), a.toNat < 2 ^ 23 →
    ∃ t u, exec (.stdR r a) s = .next t ∧ exec (.lddR d a) t = .next u ∧
      u.x = s.x.set d.toNat (s.x[r.toNat]'r.isLt) d.isLt ∧ u.draws = s.draws ∧
      t.memory.byteAt (directAddr a).toNat = some (firstByte Config.byteOrder (s.x[r.toNat]'r.isLt)) ∧
      t.memory.byteAt ((directAddr a).toNat + 1) = some (secondByte Config.byteOrder (s.x[r.toNat]'r.isLt))

/-- A word the program stored is not fetched as an instruction (20_memory.md R61, decision D18; log 15), until a DMA stop or
a reset ends what counts as written (log 21). Every instruction that changes a byte of memory counts the byte's word as
written, and only DMA and RESET take a word out of the count; after a store of a word of RAM by whatever instruction, that
word is refused as the first word of a fetch, and as the second word of an instruction that starts before it. -/
def Obligations.StoredWordsAreNotFetched : Prop :=
  (∀ (i : Instr) (s t : State), exec i s = .next t →
    (∀ b, t.memory.read b ≠ s.memory.read b → b / 2 * 2 ∈ t.written) ∧
    (i ≠ .dma → i ≠ .reset → ∀ k ∈ s.written, k ∈ t.written)) ∧
  (∀ (s t : State) (ea : Addr) (v : Word), StoresWord s ea v t → ea.toNat < 0xFF000000 → ea.toNat % 2 = 0 →
    let u : State := { t with pfx := none, run := .running, hostEvents := [] }
    step { u with pc := ea } = .refused .selfModifyingCode ∧
    ∀ w1 n, (ea - 2).toNat ∉ t.written → ReadsWord u (ea - 2) w1 n → lengthWords w1 = 2 →
      step { u with pc := ea - 2 } = .refused .selfModifyingCode) ∧
  (∀ (s : State) (r : RegNo) (a : BitVec 24), a.toNat < 2 ^ 23 →
    ∃ t, exec (.stdR r a) s = .next t ∧
      step { t with pc := directAddr a, pfx := none, run := .running, hostEvents := [] } =
        .refused .selfModifyingCode) ∧
  ∀ s : State, (∃ t, exec .dma s = .next t ∧ t.written = []) ∧ ∃ t, exec .reset s = .next t ∧ t.written = []

/-! ### Jumps and Address Arithmetic -/

/-- J jumps to the address after it plus its signed byte offset modulo 2^32 (45_jumps.md R221, R232; the base is decision D5,
log 4; offsets and wrap D7, D19, log 34) and changes nothing else; an odd target is refused (decision D3; log 2). -/
def Obligations.JumpGoesToTheTarget : Prop :=
  ∀ (s : State) (off : BitVec 24),
    let target := BitVec.ofInt 32 (s.pc.toNat + 4 + off.toInt)
    (target.toNat % 2 = 0 → exec (.j off) s = .next { s with pc := target }) ∧
    (target.toNat % 2 = 1 → exec (.j off) s = .refused .oddPc)

/-- The eight conditional jumps test one flag each: met, they go where J would, an odd target refused; not met, they go on
after their two words, whatever the target (45_jumps.md R222 to R229; the base is decision D5, log 4; offsets and wrap D7,
D19, log 34; odd targets decision D3, log 2). Nothing but pc changes. -/
def Obligations.ConditionalJumpsTestOneFlag : Prop :=
  ∀ (s : State) (off : BitVec 24),
    let target := BitVec.ofInt 32 (s.pc.toNat + 4 + off.toInt)
    ∀ c ∈ [(Instr.jz off, s.flags.z), (.jn off, s.flags.n), (.jo off, s.flags.o), (.jc off, s.flags.c),
           (.jnz off, !s.flags.z), (.jnn off, !s.flags.n), (.jno off, !s.flags.o), (.jnc off, !s.flags.c)],
      (c.2 = false → exec c.1 s = .next { s with pc := s.pc + 4 }) ∧
      (c.2 = true → target.toNat % 2 = 0 → exec c.1 s = .next { s with pc := target }) ∧
      (c.2 = true → target.toNat % 2 = 1 → exec c.1 s = .refused .oddPc)

/-- JSR stores the address after it, its high half at SP and its low half at SP + 2 modulo 2^32, and then jumps; SP stays,
every byte outside the four stored ones stays, and nothing else changes but pc and what a store changes (45_jumps.md R230).
That SP stays, which address is stored and the order of the halves are decisions D4, D5 and D6 (log 3, 4, 5); that SP + 2 and
the target wrap and that the offset counts bytes is D7 and D19 (log 34); a store in the I/O range is an output event (D27,
log 17). An odd target is refused, an even SP given (decision D3, log 2). -/
def Obligations.JsrStoresTheReturnAddress : Prop :=
  ∀ (s : State) (off : BitVec 24), (jsrStoreAddr s).toNat % 2 = 0 →
    let target := BitVec.ofInt 32 (s.pc.toNat + 4 + off.toInt)
    let ret := s.pc + 4
    (jsrStoreAddr s = s.sp) ∧
    (target.toNat % 2 = 0 → ∃ t1 t2,
      StoresWord s (jsrStoreAddr s) (ret.extractLsb' 16 16) t1 ∧
      StoresWord t1 (jsrStoreAddr s + 2) (ret.extractLsb' 0 16) t2 ∧
      exec (.jsr off) s = .next { t2 with pc := target }) ∧
    (target.toNat % 2 = 1 → exec (.jsr off) s = .refused .oddPc)

/-- ADDp and ADDpi add a signed offset, of a GPR or of 24 bits, to a whole pair modulo 2^32, with the carry between its
halves; no flag and no memory changes (46_address_arithmetic.md R240, R241, R243; bytes and wrap D7, D19, log 34). With PC as the pair they jump relative
to the address after them, an odd result refused (R244, decisions D5 and D3; log 4, 2), and ADDpi is then the same as J. -/
def Obligations.AddressArithmeticAddsToThePair : Prop :=
  ∀ (s : State) (r : RegNo) (off : BitVec 24),
    let x := (s.x[r.toNat]'r.isLt).toInt
    let target := BitVec.ofInt 32 (s.pc.toNat + 2 + x)
    exec (.addp .sp r) s = .next { s with pc := s.pc + 2, sp := BitVec.ofInt 32 (s.sp.toNat + x) } ∧
    exec (.addp .fp r) s = .next { s with pc := s.pc + 2, fp := BitVec.ofInt 32 (s.fp.toNat + x) } ∧
    exec (.addp .bp r) s = .next { s with pc := s.pc + 2, bp := BitVec.ofInt 32 (s.bp.toNat + x) } ∧
    exec (.addpi .sp off) s = .next { s with pc := s.pc + 4, sp := BitVec.ofInt 32 (s.sp.toNat + off.toInt) } ∧
    exec (.addpi .fp off) s = .next { s with pc := s.pc + 4, fp := BitVec.ofInt 32 (s.fp.toNat + off.toInt) } ∧
    exec (.addpi .bp off) s = .next { s with pc := s.pc + 4, bp := BitVec.ofInt 32 (s.bp.toNat + off.toInt) } ∧
    (target.toNat % 2 = 0 → exec (.addp .pc r) s = .next { s with pc := target }) ∧
    (target.toNat % 2 = 1 → exec (.addp .pc r) s = .refused .oddPc) ∧
    exec (.addpi .pc off) s = exec (.j off) s

/-! ### Miscellaneous -/

/-- NOP (47_misc.md R250): the words 0000 0000 xxxx xxxx, one word long, advance pc one word and change nothing else. That
the step refuses it under a pending prefix is a choice of the spec (decision D12; log 14), and that no host event acts in that
step is a premise on the model's list of them (log 20). -/
def Obligations.NopAdvancesOneWord : Prop :=
  (∀ w1 w2 : Word, w1.extractLsb' 8 8 = 0 → lengthWords w1 = 1 ∧ decodeWords w1 w2 = .nop) ∧
  (∀ s : State, exec .nop s = .next { s with pc := s.pc + 2 }) ∧
  ∀ s : State, s.Undisturbed → s.run = .running → s.pfx ≠ none → step s = .refused .prefixedInstruction

/-- HLT and DMA stop the clock with pc past them and change nothing else in the CPU or in memory (47_misc.md R251, R253;
where pc stands is decisions D16 and D17). A DMA stop also ends what counts as written by the program (20_memory.md R61;
that the DMA instruction does it is log 21). While the clock does not reach the CPU no instruction executes and nothing
changes but the host's entries being used up, until an event of the host acts (10_state.md R36, 70_reset_and_hazards.md
R310; log 20). With no host event to come that may act the stop is the end of the run, in `dma` as in `halted`: every
further run leaves the state as it is (R308, R309). -/
def Obligations.HltAndDmaStopTheClock : Prop :=
  ∀ s : State,
    exec .hlt s = .next { s with pc := s.pc + 2, run := .halted } ∧
    exec .dma s = .next { s with pc := s.pc + 2, run := .dma, written := [] } ∧
    (s.Undisturbed → (s.run = .halted ∨ s.run = .dma) → step s = .next { s with hostEvents := s.hostEvents.tail }) ∧
    (s.hostEvents = [] → (s.run = .halted → s.EndsRun .completed) ∧ (s.run = .dma → s.EndsRun .stoppedInDma)) ∧
    (s.Final → ∀ k, Sys2Proof.core.run k s = .next { s with hostEvents := s.hostEvents.drop k })

/-- RESET puts every register, flag and mode of the CPU at its value after reset and leaves memory and the host's side alone
(47_misc.md R252, 70_reset_and_hazards.md R301; that MDB, IVB, the masks and the prefix are cleared and where pc goes is
decision D15, log 18). That the output events recorded so far stay is a choice of the model (decision D27, log 17), and so it
is of its own fields, the count of free values and the host's list, and of the parameters (log 22, 20, 8, 12). -/
def Obligations.ResetClearsTheCpu : Prop :=
  ∀ s : State, ∃ t, exec .reset s = .next t ∧
    (∀ i : RegNo, t.x[i.toNat]'i.isLt = 0) ∧ t.pc = 0 ∧ t.sp = 0 ∧ t.fp = 0 ∧ t.bp = 0 ∧
    t.flags = ⟨false, false, false, false⟩ ∧ t.srRest = 0 ∧ t.mdb = 0 ∧ t.ivb = 0 ∧
    (∀ m : RegNo, t.im[m.toNat]'m.isLt = false) ∧ t.pfx = none ∧ t.run = .running ∧ t.written = [] ∧
    t.memory = s.memory ∧ t.outputs = s.outputs ∧ t.draws = s.draws ∧ t.hostEvents = s.hostEvents ∧
    t.subCarry = s.subCarry ∧ t.srLayout = s.srLayout

/-- SETPR records its prefix number and advances one word (47_misc.md R255); the next step of the running CPU is refused,
whatever it would fetch (decision D12; log 14). -/
def Obligations.SetprRecordsThePrefix : Prop :=
  ∀ (s : State) (n : RegNo),
    exec (.setpr n) s = .next { s with pc := s.pc + 2, pfx := some n } ∧
    ∀ t, exec (.setpr n) s = .next t → t.Undisturbed → t.run = .running → step t = .refused .prefixedInstruction

/-- SETIM (47_misc.md R257): the words 0000 0111 mmmx xxxx, one word long, set mask M and change no other mask and nothing
else but pc; setting a mask that is set changes nothing. -/
def Obligations.SetimSetsOneMask : Prop :=
  (∀ w1 w2 : Word, w1.extractLsb' 8 8 = 0b00000111 →
    lengthWords w1 = 1 ∧ decodeWords w1 w2 = .setim (w1.extractLsb' 5 3)) ∧
  decodeWords 0x07E0 0 = .setim 7 ∧
  ∀ (s : State) (m : RegNo), ∃ im',
    exec (.setim m) s = .next { s with pc := s.pc + 2, im := im' } ∧
    ∀ k : RegNo, im'[k.toNat]'k.isLt = if k = m then true else s.im[k.toNat]'k.isLt

/-- CLRIM clears mask M and changes no other mask and nothing else but pc (47_misc.md R256). -/
def Obligations.ClrimClearsOneMask : Prop :=
  ∀ (s : State) (m : RegNo), ∃ im',
    exec (.clrim m) s = .next { s with pc := s.pc + 2, im := im' } ∧
    ∀ k : RegNo, im'[k.toNat]'k.isLt = if k = m then false else s.im[k.toNat]'k.isLt

/-- The stops: the reserved patterns of 30_encoding.md R89 (decision D13; log 23), EINT (47_misc.md R254, decision D14; log
28) and (ADDpo) (46_address_arithmetic.md R242, decision D26; log 24) are refused, each by its name, in every state. -/
def Obligations.ReservedAndContestedWordsAreRefused : Prop :=
  ∀ s : State,
    (∀ op, exec (.rsv1 op) s = .refused .reservedEncoding) ∧
    (∀ i ∈ [Instr.rsv2op6, .rsv2op7, .rsv3, .rsv6ReadSr, .rsv6ReadMdb, .rsv6ReadIvb, .rsv6WriteSr, .rsv6WriteMdb,
            .rsv6WriteIvb, .rsv5c3, .rsv5c5, .rsv5c6, .rsv5c9, .rsv5c10, .rsv5c12],
      exec i s = .refused .reservedEncoding) ∧
    (∀ n, exec (.eint n) s = .refused .interruptEntryNotDescribed) ∧
    ∀ p off, exec (.addpo p off) s = .refused .addrArithBit4Form

/-! ### The whole machine -/

/-- The flags are set by the last ALU operation: no instruction outside the ALU family but MOVs SR rA and RESET changes them
(10_state.md R29). -/
def Obligations.OnlyAluSrAndResetChangeFlags : Prop :=
  ∀ (i : Instr) (s t : State), WritesFlags i = false → exec i s = .next t → t.flags = s.flags

/-- Memory, the record of written words and the output events change only by an instruction that stores; DMA and RESET
alone end what counts as written (10_state.md R20, 20_memory.md R61; log 21). The output events are the model's record of the
stores in the I/O range (R56, decision D27), and that RESET keeps them is its choice (log 17). -/
def Obligations.OnlyStoresChangeMemory : Prop :=
  ∀ (i : Instr) (s t : State), StoresMemory i = false → exec i s = .next t →
    t.memory = s.memory ∧ t.outputs = s.outputs ∧ (i ≠ .dma → i ≠ .reset → t.written = s.written)

/-- Each control register has its own writers and RESET: MDB by MOVs MDB rA, IVB by MOVs IVB rA, the prefix by SETPR, the run
state by HLT and DMA, the rest of SR by MOVs SR rA, the masks by SETIM and CLRIM (10_state.md R20, R31 to R36, 60_exceptions.md
R272; that the masks are no part of SR is log 12). No instruction takes a host event or changes SUB_CARRY or SR_LAYOUT (log 8,
12). -/
def Obligations.ControlRegistersHaveTheirOwnWriters : Prop :=
  ∀ (i : Instr) (s t : State), i ≠ .reset → exec i s = .next t →
    ((∀ r, i ≠ .movsMdbR r) → t.mdb = s.mdb) ∧
    ((∀ r, i ≠ .movsIvbR r) → t.ivb = s.ivb) ∧
    ((∀ n, i ≠ .setpr n) → t.pfx = s.pfx) ∧
    (i ≠ .hlt → i ≠ .dma → t.run = s.run) ∧
    ((∀ r, i ≠ .movsSrR r) → t.srRest = s.srRest) ∧
    ((∀ m, i ≠ .setim m) → (∀ m, i ≠ .clrim m) → t.im = s.im) ∧
    t.hostEvents = s.hostEvents ∧ t.subCarry = s.subCarry ∧ t.srLayout = s.srLayout

/-- A general register changes only as the destination of the instruction, or by RESET (10_state.md R20, R21). -/
def Obligations.OnlyTheDestinationRegisterChanges : Prop :=
  ∀ (i : Instr) (s t : State) (k : RegNo), i ≠ .reset → gprTarget i ≠ some k → exec i s = .next t →
    t.x[k.toNat]'k.isLt = s.x[k.toNat]'k.isLt

/-- An instruction that cannot jump leaves pc after its own words (10_state.md R24): for every first word and extension word
that decode to it. -/
def Obligations.OnlyJumpsLeaveTheSequence : Prop :=
  ∀ (w1 w2 : Word) (s t : State), MayJump (decodeWords w1 w2) = false →
    exec (decodeWords w1 w2) s = .next t → t.pc = s.pc + BitVec.ofNat 32 (2 * lengthWords w1)

/-- MDB, IVB and the interrupt masks are never read: two machines that differ only there make the same steps, and differ
only there afterwards (41_mov.md R157, 10_state.md R33, 60_exceptions.md R272; what MOVs rB MDB gives is a free value, log
13). -/
def Obligations.ControlRegistersAreNeverRead : Prop :=
  ∀ (s : State) (m v : Word) (k : Vector Bool 8),
    (∀ why, step s = .refused why → step { s with mdb := m, ivb := v, im := k } = .refused why) ∧
    (∀ t, step s = .next t → ∃ t', step { s with mdb := m, ivb := v, im := k } = .next t' ∧
      t = { t' with mdb := t.mdb, ivb := t.ivb, im := t.im })
end

