-- ==== Sys2Proof/Laws/Decode.lean ====
section
/-! SUPPORT. Laws of words, bytes and fields: what the decoder and the encoder read and write. -/

namespace Sys2Proof

theorem Pair.index_lt (p : Pair) : p.index < 4 := by cases p <;> decide

@[simp] theorem Pair.ofIndex_index (p : Pair) : Pair.ofIndex p.index = p := by cases p <;> rfl

theorem Reg.nibble_lt (r : Reg) : r.nibble < 16 := by
  have := r.num.isLt
  unfold Reg.nibble
  split <;> omega

/-- A word made of a number below 2^16 is that number. -/
theorem word_toNat (n : Nat) (h : n < 2 ^ 16) : (word n).toNat = n := by
  simp only [word, BitVec.toNat_ofNat]
  exact Nat.mod_eq_of_lt h

@[simp] theorem joinBytes_highByte_lowByte (v : Word) : joinBytes (highByte v) (lowByte v) = v := by
  have := v.isLt
  apply BitVec.eq_of_toNat_eq
  simp only [joinBytes, highByte, lowByte, BitVec.toNat_ofNat]
  omega

@[simp] theorem highByte_joinBytes (hi lo : Byte) : highByte (joinBytes hi lo) = hi := by
  have := hi.isLt
  have := lo.isLt
  apply BitVec.eq_of_toNat_eq
  simp only [joinBytes, highByte, BitVec.toNat_ofNat]
  omega

@[simp] theorem lowByte_joinBytes (hi lo : Byte) : lowByte (joinBytes hi lo) = lo := by
  have := hi.isLt
  have := lo.isLt
  apply BitVec.eq_of_toNat_eq
  simp only [joinBytes, lowByte, BitVec.toNat_ofNat]
  omega

/-- A word laid out in a byte order and read in the same order is the word. -/
@[simp] theorem wordOfBytes_firstByte_secondByte (order : ByteOrder) (v : Word) :
    wordOfBytes order (firstByte order v) (secondByte order v) = v := by
  cases order <;> simp [wordOfBytes, firstByte, secondByte]

@[simp] theorem firstByte_wordOfBytes (order : ByteOrder) (b0 b1 : Byte) :
    firstByte order (wordOfBytes order b0 b1) = b0 := by
  cases order <;> simp [wordOfBytes, firstByte]

@[simp] theorem secondByte_wordOfBytes (order : ByteOrder) (b0 b1 : Byte) :
    secondByte order (wordOfBytes order b0 b1) = b1 := by
  cases order <;> simp [wordOfBytes, secondByte]

/-- Every slice is below 2 to its width. -/
theorem bits_lt (v : Word) (hi lo : Nat) : bits v hi lo < 2 ^ (hi + 1 - lo) :=
  Nat.mod_lt _ (Nat.two_pow_pos _)

/-! ### Slices in the terms of the statements -/

theorem bits_eq_extract (v : Word) (hi lo : Nat) : bits v hi lo = (v.extractLsb' lo (hi + 1 - lo)).toNat := by
  simp [bits, Nat.shiftRight_eq_div_pow]

theorem bits_one_eq_getLsbD (v : Word) (k : Nat) : bits v k k = (v.getLsbD k).toNat := by
  rw [bits, Nat.add_sub_cancel_left, pow_one, BitVec.getLsbD, Nat.testBit_eq_decide_div_mod_eq]
  rcases Nat.mod_two_eq_zero_or_one (v.toNat / 2 ^ k) with h | h <;> simp [h]

theorem regAt_eq_extract (v : Word) (lo : Nat) : regAt v lo = v.extractLsb' lo 3 := by
  rw [regAt, bits_eq_extract, show lo + 2 + 1 - lo = 3 by omega, BitVec.ofNat_toNat, BitVec.setWidth_eq]

theorem imm8_eq_extract (w1 : Word) : imm8 w1 = w1.extractLsb' 0 8 := by
  rw [imm8, bits_eq_extract, BitVec.ofNat_toNat, BitVec.setWidth_eq]

/-- A number of `n` high bits and one word below them is their concatenation. -/
theorem ofNat_eq_append {n : Nat} (h : BitVec n) (l : Word) :
    BitVec.ofNat (n + 16) (h.toNat * 2 ^ 16 + l.toNat) = h ++ l := by
  have hh := h.isLt
  have hl := l.isLt
  apply BitVec.eq_of_toNat_eq
  rw [BitVec.toNat_append, ← Nat.shiftLeft_add_eq_or_of_lt hl, Nat.shiftLeft_eq, BitVec.toNat_ofNat]
  apply Nat.mod_eq_of_lt
  rw [Nat.pow_add]
  have : (h.toNat + 1) * 2 ^ 16 ≤ 2 ^ n * 2 ^ 16 := Nat.mul_le_mul_right _ hh
  omega

theorem imm24_eq_append (w1 w2 : Word) : imm24 w1 w2 = w1.extractLsb' 0 8 ++ w2 := by
  rw [imm24, bits_eq_extract]
  exact ofNat_eq_append _ _

theorem imm25_eq_append (w1 w2 : Word) : imm25 w1 w2 = w1.extractLsb' 0 9 ++ w2 := by
  rw [imm25, bits_eq_extract]
  exact ofNat_eq_append _ _

theorem transferReg_eq (w1 : Word) :
    transferReg w1 = ⟨if w1.getLsbD 11 then .mp else .gpr, w1.extractLsb' 8 3⟩ := by
  rw [transferReg, regAt_eq_extract, bits_one_eq_getLsbD]
  cases w1.getLsbD 11 <;> rfl

/-- Every word with bit 15 = 1 is decoded as an ALU word. -/
theorem decodeWords_alu {w1 : Word} (h : w1.getLsbD 15 = true) (w2 : Word) : decodeWords w1 w2 = decodeAlu w1 := by
  have h1 := bits_one_eq_getLsbD w1 15
  rw [h] at h1
  have hb : 8 ≤ bits w1 15 12 := by
    simp only [bits] at h1 ⊢
    rw [Bool.toNat_true] at h1
    omega
  unfold decodeWords
  split <;> first | rfl | omega

/-- An instruction is one or two words long (30_encoding.md R80). -/
theorem lengthWords_eq_one_or_two (w1 : Word) : lengthWords w1 = 1 ∨ lengthWords w1 = 2 := by
  unfold lengthWords
  repeat' split
  all_goals simp

/-- Every word with bit 15 = 1 is an ALU instruction, one word long (30_encoding.md R81, R82, 40_alu.md R137). -/
theorem lengthWords_alu {w1 : Word} (h : 2 ^ 15 ≤ w1.toNat) : lengthWords w1 = 1 := by
  have h' := w1.isLt
  have hb : 8 ≤ bits w1 15 12 := by rw [bits]; omega
  unfold lengthWords
  split <;> first | rfl | omega

/-- Decoding the bytes of one word that is a whole instruction. -/
theorem decode_one_word (order : ByteOrder) {w1 : Word} (h : lengthWords w1 = 1) (rest : List Byte) :
    decode order (bytesOfWords order [w1] ++ rest) = .ok (decodeWords w1 0, rest) := by
  simp [bytesOfWords, decode, h]

/-- Decoding the bytes of two words that are a whole instruction. -/
theorem decode_two_words (order : ByteOrder) {w1 w2 : Word} (h : lengthWords w1 = 2) (rest : List Byte) :
    decode order (bytesOfWords order [w1, w2] ++ rest) = .ok (decodeWords w1 w2, rest) := by
  simp [bytesOfWords, decode, h]

/-- The table word decodes the same whichever byte order its words are laid out in (20_memory.md R52; log 1). -/
theorem decodeTableWord_any_order (order : ByteOrder) (nbits w : Nat) :
    decodeTableWord nbits w =
      match decode order (bytesOfWords order [BitVec.ofNat 16 (w % 2 ^ nbits), BitVec.ofNat 16 (w % 2 ^ nbits / 2 ^ 16)]) with
      | .ok (i, _) => some i
      | .error _ => none := by
  by_cases h : lengthWords (BitVec.ofNat 16 (w % 2 ^ nbits)) = 1 <;> simp [decodeTableWord, bytesOfWords, decode, h]

end Sys2Proof
end

