-- ==== Sys2Proof/Laws/Memory.lean ====
section
/-! SUPPORT. Laws of memory: read after write, the canonical form, whole words; and of the list of written addresses. -/

namespace Sys2Proof.Machine

/-! ### Bytes -/

@[simp] theorem Memory.read_nil (a : Nat) : Memory.read [] a = none := rfl

/-- Reading after a write: the byte written at its address, the old byte elsewhere. -/
theorem Memory.read_write (m : Memory) (a b : Nat) (v : Byte) :
    (m.write a v).read b = if a = b then some v else m.read b := by
  induction m with
  | nil => simp [Memory.write, Memory.read]
  | cons c m ih =>
    obtain ⟨k, u⟩ := c
    simp only [Memory.write]
    split
    · simp [Memory.read]
    · split
      · subst_vars
        simp only [Memory.read]
        split <;> rfl
      · simp only [Memory.read, ih]
        split <;> split <;> simp_all

@[simp] theorem Memory.read_write_same (m : Memory) (a : Nat) (v : Byte) : (m.write a v).read a = some v := by
  simp [Memory.read_write]

theorem Memory.read_write_other (m : Memory) {a b : Nat} (v : Byte) (h : a ≠ b) :
    (m.write a v).read b = m.read b := by
  simp [Memory.read_write, h]

/-- The addresses listed after a write. -/
theorem Memory.mem_write {m : Memory} {a : Nat} {v : Byte} {c : Host.Cell} (h : c ∈ m.write a v) :
    c = (a, v) ∨ c ∈ m := by
  induction m with
  | nil => simpa [Memory.write] using h
  | cons d m ih =>
    obtain ⟨k, u⟩ := d
    simp only [Memory.write] at h
    split at h
    · simpa using h
    · split at h
      · rcases List.mem_cons.mp h with h | h
        · exact .inl h
        · exact .inr (List.mem_cons_of_mem _ h)
      · rcases List.mem_cons.mp h with h | h
        · exact .inr (h ▸ List.mem_cons_self)
        · exact (ih h).imp_right (List.mem_cons_of_mem _)

/-- A write keeps the canonical form. -/
theorem Memory.wf_write {m : Memory} (a : Nat) (v : Byte) (h : m.wf) : (m.write a v).wf := by
  induction m with
  | nil => simp [Memory.write, Memory.wf]
  | cons c m ih =>
    obtain ⟨k, u⟩ := c
    have hk : ∀ d ∈ m, k < d.1 := by
      intro d hd
      exact (List.pairwise_cons.mp h).1 _ (List.mem_map_of_mem hd)
    have hm : Memory.wf m := (List.pairwise_cons.mp h).2
    simp only [Memory.write]
    split
    · rename_i hlt
      refine List.pairwise_cons.mpr ⟨?_, h⟩
      intro b hb
      obtain ⟨d, hd, rfl⟩ := List.mem_map.mp hb
      rcases List.mem_cons.mp hd with rfl | hd
      · exact hlt
      · exact hlt.trans (hk d hd)
    · split
      · subst_vars
        exact h
      · refine List.pairwise_cons.mpr ⟨?_, ih hm⟩
        intro b hb
        obtain ⟨d, hd, rfl⟩ := List.mem_map.mp hb
        rcases Memory.mem_write hd with rfl | hd
        · simp only
          omega
        · exact hk d hd

/-- A listed byte is the one its address reads as, in canonical memory. -/
theorem Memory.read_eq_none {m : Memory} {a : Nat} (h : ∀ c ∈ m, c.1 ≠ a) : m.read a = none := by
  induction m with
  | nil => rfl
  | cons c m ih =>
    obtain ⟨k, u⟩ := c
    have hk : k ≠ a := h (k, u) List.mem_cons_self
    simp only [Memory.read, hk, if_false]
    exact ih fun d hd => h d (List.mem_cons_of_mem _ hd)

/-! ### Words -/

/-- The cells after a word is stored: its two halves at its two addresses, the old cells elsewhere. -/
theorem Memory.read_setWord (m : Memory) (a b : Nat) (v : Word) :
    (m.setWord a v).read b =
      if a + 1 = b then some (lowByte v) else if a = b then some (highByte v) else m.read b := by
  simp only [Memory.setWord, Memory.read_write]

theorem Memory.read_setWord_other (m : Memory) {a b : Nat} (v : Word) (h0 : b ≠ a) (h1 : b ≠ a + 1) :
    (m.setWord a v).read b = m.read b := by
  simp [Memory.read_setWord, h0.symm, h1.symm]

/-- A word read back after it is stored. -/
@[simp] theorem Memory.wordAt_setWord_same (m : Memory) (a : Nat) (v : Word) : (m.setWord a v).wordAt a = some v := by
  simp [Memory.wordAt, Memory.read_setWord]

/-- Storing a word leaves every other word at a distance of two or more alone. -/
theorem Memory.wordAt_setWord_other (m : Memory) {a b : Nat} (v : Word) (h : a + 2 ≤ b ∨ b + 2 ≤ a) :
    (m.setWord a v).wordAt b = m.wordAt b := by
  simp only [Memory.wordAt]
  rw [Memory.read_setWord_other m v (by omega) (by omega), Memory.read_setWord_other m v (by omega) (by omega)]

/-- Storing a word keeps the canonical form. -/
theorem Memory.wf_setWord {m : Memory} (a : Nat) (v : Word) (h : m.wf) : (m.setWord a v).wf :=
  Memory.wf_write _ _ (Memory.wf_write _ _ h)

/-- Storing a word at an even address inside the space stays inside the space. -/
theorem Memory.inSpace_setWord {m : Memory} {a : Nat} (v : Word) (h : m.InSpace) (ha : a + 1 < 2 ^ 32) :
    (m.setWord a v).InSpace := by
  intro c hc
  rcases Memory.mem_write hc with rfl | hc
  · exact ha
  · rcases Memory.mem_write hc with rfl | hc
    · simp only
      omega
    · exact h c hc

/-- Storing a word at an even address keeps memory made of whole words. -/
theorem Memory.wholeWords_setWord {m : Memory} {a : Nat} (v : Word) (h : m.WholeWords) (ha : a % 2 = 0) :
    (m.setWord a v).WholeWords := by
  intro b hb
  by_cases hab : a = b
  · subst hab
    simp [Memory.read_setWord]
  · rw [Memory.read_setWord_other m v (by omega) (by omega), Memory.read_setWord_other m v (by omega) (by omega)]
    exact h b hb

/-- The bytes of a stored word at its two byte addresses are those of BYTE_ORDER (20_memory.md R52; log 1). -/
theorem Memory.byteAt_setWord (m : Memory) {a : Nat} (v : Word) (h : a % 2 = 0) :
    (m.setWord a v).byteAt a = some (firstByte Config.byteOrder v) ∧
      (m.setWord a v).byteAt (a + 1) = some (secondByte Config.byteOrder v) := by
  have h1 : ¬ (a + 1) % 2 = 0 := by omega
  unfold Memory.byteAt
  cases Config.byteOrder <;> simp [Memory.read_setWord, firstByte, secondByte, h, h1]

/-! ### The list of written addresses -/

theorem mem_insertAddr {a b : Nat} {l : List Nat} : b ∈ insertAddr a l ↔ b = a ∨ b ∈ l := by
  induction l with
  | nil => simp [insertAddr]
  | cons k l ih =>
    simp only [insertAddr]
    split
    · simp
    · split
      · subst_vars
        simp
      · simp only [List.mem_cons, ih]
        tauto

/-- Inserting keeps the addresses strictly rising. -/
theorem pairwise_insertAddr {a : Nat} {l : List Nat} (h : l.Pairwise (· < ·)) :
    (insertAddr a l).Pairwise (· < ·) := by
  induction l with
  | nil => simp [insertAddr]
  | cons k l ih =>
    obtain ⟨hk, hl⟩ := List.pairwise_cons.mp h
    simp only [insertAddr]
    split
    · rename_i hlt
      refine List.pairwise_cons.mpr ⟨fun b hb => ?_, h⟩
      rcases List.mem_cons.mp hb with rfl | hb
      · exact hlt
      · exact hlt.trans (hk b hb)
    · split
      · exact h
      · refine List.pairwise_cons.mpr ⟨fun b hb => ?_, ih hl⟩
        rcases mem_insertAddr.mp hb with rfl | hb
        · omega
        · exact hk b hb

end Sys2Proof.Machine
end

