-- ==== Sys2Proof/Laws/State.lean ====
section
/-! SUPPORT. One lemma per field per update of the state: what each named update leaves alone, and what it writes. -/

namespace Sys2Proof.Machine

@[simp] theorem advance_x (len : Nat) (s : State) : (advance len s).x = s.x := rfl
@[simp] theorem advance_pc (len : Nat) (s : State) : (advance len s).pc = pcNext len s := rfl
@[simp] theorem advance_sp (len : Nat) (s : State) : (advance len s).sp = s.sp := rfl
@[simp] theorem advance_fp (len : Nat) (s : State) : (advance len s).fp = s.fp := rfl
@[simp] theorem advance_bp (len : Nat) (s : State) : (advance len s).bp = s.bp := rfl
@[simp] theorem advance_flags (len : Nat) (s : State) : (advance len s).flags = s.flags := rfl
@[simp] theorem advance_srRest (len : Nat) (s : State) : (advance len s).srRest = s.srRest := rfl
@[simp] theorem advance_mdb (len : Nat) (s : State) : (advance len s).mdb = s.mdb := rfl
@[simp] theorem advance_ivb (len : Nat) (s : State) : (advance len s).ivb = s.ivb := rfl
@[simp] theorem advance_im (len : Nat) (s : State) : (advance len s).im = s.im := rfl
@[simp] theorem advance_pfx (len : Nat) (s : State) : (advance len s).pfx = s.pfx := rfl
@[simp] theorem advance_run (len : Nat) (s : State) : (advance len s).run = s.run := rfl
@[simp] theorem advance_memory (len : Nat) (s : State) : (advance len s).memory = s.memory := rfl
@[simp] theorem advance_written (len : Nat) (s : State) : (advance len s).written = s.written := rfl
@[simp] theorem advance_outputs (len : Nat) (s : State) : (advance len s).outputs = s.outputs := rfl
@[simp] theorem advance_draws (len : Nat) (s : State) : (advance len s).draws = s.draws := rfl
@[simp] theorem advance_hostEvents (len : Nat) (s : State) : (advance len s).hostEvents = s.hostEvents := rfl
@[simp] theorem advance_subCarry (len : Nat) (s : State) : (advance len s).subCarry = s.subCarry := rfl
@[simp] theorem advance_srLayout (len : Nat) (s : State) : (advance len s).srLayout = s.srLayout := rfl

@[simp] theorem drawBit_x (s : State) : ((drawBit s).2).x = s.x := rfl
@[simp] theorem drawBit_pc (s : State) : ((drawBit s).2).pc = s.pc := rfl
@[simp] theorem drawBit_sp (s : State) : ((drawBit s).2).sp = s.sp := rfl
@[simp] theorem drawBit_fp (s : State) : ((drawBit s).2).fp = s.fp := rfl
@[simp] theorem drawBit_bp (s : State) : ((drawBit s).2).bp = s.bp := rfl
@[simp] theorem drawBit_flags (s : State) : ((drawBit s).2).flags = s.flags := rfl
@[simp] theorem drawBit_srRest (s : State) : ((drawBit s).2).srRest = s.srRest := rfl
@[simp] theorem drawBit_mdb (s : State) : ((drawBit s).2).mdb = s.mdb := rfl
@[simp] theorem drawBit_ivb (s : State) : ((drawBit s).2).ivb = s.ivb := rfl
@[simp] theorem drawBit_im (s : State) : ((drawBit s).2).im = s.im := rfl
@[simp] theorem drawBit_pfx (s : State) : ((drawBit s).2).pfx = s.pfx := rfl
@[simp] theorem drawBit_run (s : State) : ((drawBit s).2).run = s.run := rfl
@[simp] theorem drawBit_memory (s : State) : ((drawBit s).2).memory = s.memory := rfl
@[simp] theorem drawBit_written (s : State) : ((drawBit s).2).written = s.written := rfl
@[simp] theorem drawBit_outputs (s : State) : ((drawBit s).2).outputs = s.outputs := rfl
@[simp] theorem drawBit_draws (s : State) : ((drawBit s).2).draws = s.draws + 1 := rfl
@[simp] theorem drawBit_hostEvents (s : State) : ((drawBit s).2).hostEvents = s.hostEvents := rfl
@[simp] theorem drawBit_subCarry (s : State) : ((drawBit s).2).subCarry = s.subCarry := rfl
@[simp] theorem drawBit_srLayout (s : State) : ((drawBit s).2).srLayout = s.srLayout := rfl

@[simp] theorem drawBit_fst (s : State) : (drawBit s).1 = Config.freeBit s.draws := rfl

@[simp] theorem drawWord_x (s : State) : ((drawWord s).2).x = s.x := rfl
@[simp] theorem drawWord_pc (s : State) : ((drawWord s).2).pc = s.pc := rfl
@[simp] theorem drawWord_sp (s : State) : ((drawWord s).2).sp = s.sp := rfl
@[simp] theorem drawWord_fp (s : State) : ((drawWord s).2).fp = s.fp := rfl
@[simp] theorem drawWord_bp (s : State) : ((drawWord s).2).bp = s.bp := rfl
@[simp] theorem drawWord_flags (s : State) : ((drawWord s).2).flags = s.flags := rfl
@[simp] theorem drawWord_srRest (s : State) : ((drawWord s).2).srRest = s.srRest := rfl
@[simp] theorem drawWord_mdb (s : State) : ((drawWord s).2).mdb = s.mdb := rfl
@[simp] theorem drawWord_ivb (s : State) : ((drawWord s).2).ivb = s.ivb := rfl
@[simp] theorem drawWord_im (s : State) : ((drawWord s).2).im = s.im := rfl
@[simp] theorem drawWord_pfx (s : State) : ((drawWord s).2).pfx = s.pfx := rfl
@[simp] theorem drawWord_run (s : State) : ((drawWord s).2).run = s.run := rfl
@[simp] theorem drawWord_memory (s : State) : ((drawWord s).2).memory = s.memory := rfl
@[simp] theorem drawWord_written (s : State) : ((drawWord s).2).written = s.written := rfl
@[simp] theorem drawWord_outputs (s : State) : ((drawWord s).2).outputs = s.outputs := rfl
@[simp] theorem drawWord_draws (s : State) : ((drawWord s).2).draws = s.draws + 1 := rfl
@[simp] theorem drawWord_hostEvents (s : State) : ((drawWord s).2).hostEvents = s.hostEvents := rfl
@[simp] theorem drawWord_subCarry (s : State) : ((drawWord s).2).subCarry = s.subCarry := rfl
@[simp] theorem drawWord_srLayout (s : State) : ((drawWord s).2).srLayout = s.srLayout := rfl

@[simp] theorem drawWord_fst (s : State) : (drawWord s).1 = Config.freeWord s.draws := rfl

@[simp] theorem writeGpr_pc (i : RegNo) (v : Word) (s : State) : (writeGpr i v s).pc = s.pc := rfl
@[simp] theorem writeGpr_sp (i : RegNo) (v : Word) (s : State) : (writeGpr i v s).sp = s.sp := rfl
@[simp] theorem writeGpr_fp (i : RegNo) (v : Word) (s : State) : (writeGpr i v s).fp = s.fp := rfl
@[simp] theorem writeGpr_bp (i : RegNo) (v : Word) (s : State) : (writeGpr i v s).bp = s.bp := rfl
@[simp] theorem writeGpr_flags (i : RegNo) (v : Word) (s : State) : (writeGpr i v s).flags = s.flags := rfl
@[simp] theorem writeGpr_srRest (i : RegNo) (v : Word) (s : State) : (writeGpr i v s).srRest = s.srRest := rfl
@[simp] theorem writeGpr_mdb (i : RegNo) (v : Word) (s : State) : (writeGpr i v s).mdb = s.mdb := rfl
@[simp] theorem writeGpr_ivb (i : RegNo) (v : Word) (s : State) : (writeGpr i v s).ivb = s.ivb := rfl
@[simp] theorem writeGpr_im (i : RegNo) (v : Word) (s : State) : (writeGpr i v s).im = s.im := rfl
@[simp] theorem writeGpr_pfx (i : RegNo) (v : Word) (s : State) : (writeGpr i v s).pfx = s.pfx := rfl
@[simp] theorem writeGpr_run (i : RegNo) (v : Word) (s : State) : (writeGpr i v s).run = s.run := rfl
@[simp] theorem writeGpr_memory (i : RegNo) (v : Word) (s : State) : (writeGpr i v s).memory = s.memory := rfl
@[simp] theorem writeGpr_written (i : RegNo) (v : Word) (s : State) : (writeGpr i v s).written = s.written := rfl
@[simp] theorem writeGpr_outputs (i : RegNo) (v : Word) (s : State) : (writeGpr i v s).outputs = s.outputs := rfl
@[simp] theorem writeGpr_draws (i : RegNo) (v : Word) (s : State) : (writeGpr i v s).draws = s.draws := rfl
@[simp] theorem writeGpr_hostEvents (i : RegNo) (v : Word) (s : State) : (writeGpr i v s).hostEvents = s.hostEvents := rfl
@[simp] theorem writeGpr_subCarry (i : RegNo) (v : Word) (s : State) : (writeGpr i v s).subCarry = s.subCarry := rfl
@[simp] theorem writeGpr_srLayout (i : RegNo) (v : Word) (s : State) : (writeGpr i v s).srLayout = s.srLayout := rfl

@[simp] theorem writePair_x (p : Pair) (v : Addr) (s : State) : (writePair p v s).x = s.x := by cases p <;> rfl
@[simp] theorem writePair_flags (p : Pair) (v : Addr) (s : State) : (writePair p v s).flags = s.flags := by cases p <;> rfl
@[simp] theorem writePair_srRest (p : Pair) (v : Addr) (s : State) : (writePair p v s).srRest = s.srRest := by cases p <;> rfl
@[simp] theorem writePair_mdb (p : Pair) (v : Addr) (s : State) : (writePair p v s).mdb = s.mdb := by cases p <;> rfl
@[simp] theorem writePair_ivb (p : Pair) (v : Addr) (s : State) : (writePair p v s).ivb = s.ivb := by cases p <;> rfl
@[simp] theorem writePair_im (p : Pair) (v : Addr) (s : State) : (writePair p v s).im = s.im := by cases p <;> rfl
@[simp] theorem writePair_pfx (p : Pair) (v : Addr) (s : State) : (writePair p v s).pfx = s.pfx := by cases p <;> rfl
@[simp] theorem writePair_run (p : Pair) (v : Addr) (s : State) : (writePair p v s).run = s.run := by cases p <;> rfl
@[simp] theorem writePair_memory (p : Pair) (v : Addr) (s : State) : (writePair p v s).memory = s.memory := by cases p <;> rfl
@[simp] theorem writePair_written (p : Pair) (v : Addr) (s : State) : (writePair p v s).written = s.written := by cases p <;> rfl
@[simp] theorem writePair_outputs (p : Pair) (v : Addr) (s : State) : (writePair p v s).outputs = s.outputs := by cases p <;> rfl
@[simp] theorem writePair_draws (p : Pair) (v : Addr) (s : State) : (writePair p v s).draws = s.draws := by cases p <;> rfl
@[simp] theorem writePair_hostEvents (p : Pair) (v : Addr) (s : State) : (writePair p v s).hostEvents = s.hostEvents := by cases p <;> rfl
@[simp] theorem writePair_subCarry (p : Pair) (v : Addr) (s : State) : (writePair p v s).subCarry = s.subCarry := by cases p <;> rfl
@[simp] theorem writePair_srLayout (p : Pair) (v : Addr) (s : State) : (writePair p v s).srLayout = s.srLayout := by cases p <;> rfl

@[simp] theorem writePair_pc_pc (v : Addr) (s : State) : (writePair .pc v s).pc = v := rfl
@[simp] theorem writePair_pc_sp (v : Addr) (s : State) : (writePair .pc v s).sp = s.sp := rfl
@[simp] theorem writePair_pc_fp (v : Addr) (s : State) : (writePair .pc v s).fp = s.fp := rfl
@[simp] theorem writePair_pc_bp (v : Addr) (s : State) : (writePair .pc v s).bp = s.bp := rfl
@[simp] theorem writePair_sp_pc (v : Addr) (s : State) : (writePair .sp v s).pc = s.pc := rfl
@[simp] theorem writePair_sp_sp (v : Addr) (s : State) : (writePair .sp v s).sp = v := rfl
@[simp] theorem writePair_sp_fp (v : Addr) (s : State) : (writePair .sp v s).fp = s.fp := rfl
@[simp] theorem writePair_sp_bp (v : Addr) (s : State) : (writePair .sp v s).bp = s.bp := rfl
@[simp] theorem writePair_fp_pc (v : Addr) (s : State) : (writePair .fp v s).pc = s.pc := rfl
@[simp] theorem writePair_fp_sp (v : Addr) (s : State) : (writePair .fp v s).sp = s.sp := rfl
@[simp] theorem writePair_fp_fp (v : Addr) (s : State) : (writePair .fp v s).fp = v := rfl
@[simp] theorem writePair_fp_bp (v : Addr) (s : State) : (writePair .fp v s).bp = s.bp := rfl
@[simp] theorem writePair_bp_pc (v : Addr) (s : State) : (writePair .bp v s).pc = s.pc := rfl
@[simp] theorem writePair_bp_sp (v : Addr) (s : State) : (writePair .bp v s).sp = s.sp := rfl
@[simp] theorem writePair_bp_fp (v : Addr) (s : State) : (writePair .bp v s).fp = s.fp := rfl
@[simp] theorem writePair_bp_bp (v : Addr) (s : State) : (writePair .bp v s).bp = v := rfl

@[simp] theorem writeMp_x (i : RegNo) (v : Word) (s : State) : (writeMp i v s).x = s.x := by unfold writeMp; split <;> rfl
@[simp] theorem writeMp_pc (i : RegNo) (v : Word) (s : State) : (writeMp i v s).pc = s.pc := by unfold writeMp; split <;> rfl
@[simp] theorem writeMp_flags (i : RegNo) (v : Word) (s : State) : (writeMp i v s).flags = s.flags := by unfold writeMp; split <;> rfl
@[simp] theorem writeMp_srRest (i : RegNo) (v : Word) (s : State) : (writeMp i v s).srRest = s.srRest := by unfold writeMp; split <;> rfl
@[simp] theorem writeMp_mdb (i : RegNo) (v : Word) (s : State) : (writeMp i v s).mdb = s.mdb := by unfold writeMp; split <;> rfl
@[simp] theorem writeMp_ivb (i : RegNo) (v : Word) (s : State) : (writeMp i v s).ivb = s.ivb := by unfold writeMp; split <;> rfl
@[simp] theorem writeMp_im (i : RegNo) (v : Word) (s : State) : (writeMp i v s).im = s.im := by unfold writeMp; split <;> rfl
@[simp] theorem writeMp_pfx (i : RegNo) (v : Word) (s : State) : (writeMp i v s).pfx = s.pfx := by unfold writeMp; split <;> rfl
@[simp] theorem writeMp_run (i : RegNo) (v : Word) (s : State) : (writeMp i v s).run = s.run := by unfold writeMp; split <;> rfl
@[simp] theorem writeMp_memory (i : RegNo) (v : Word) (s : State) : (writeMp i v s).memory = s.memory := by unfold writeMp; split <;> rfl
@[simp] theorem writeMp_written (i : RegNo) (v : Word) (s : State) : (writeMp i v s).written = s.written := by unfold writeMp; split <;> rfl
@[simp] theorem writeMp_outputs (i : RegNo) (v : Word) (s : State) : (writeMp i v s).outputs = s.outputs := by unfold writeMp; split <;> rfl
@[simp] theorem writeMp_draws (i : RegNo) (v : Word) (s : State) : (writeMp i v s).draws = s.draws := by unfold writeMp; split <;> rfl
@[simp] theorem writeMp_hostEvents (i : RegNo) (v : Word) (s : State) : (writeMp i v s).hostEvents = s.hostEvents := by unfold writeMp; split <;> rfl
@[simp] theorem writeMp_subCarry (i : RegNo) (v : Word) (s : State) : (writeMp i v s).subCarry = s.subCarry := by unfold writeMp; split <;> rfl
@[simp] theorem writeMp_srLayout (i : RegNo) (v : Word) (s : State) : (writeMp i v s).srLayout = s.srLayout := by unfold writeMp; split <;> rfl

@[simp] theorem writeReg_pc (r : Reg) (v : Word) (s : State) : (writeReg r v s).pc = s.pc := by unfold writeReg; split <;> simp
@[simp] theorem writeReg_flags (r : Reg) (v : Word) (s : State) : (writeReg r v s).flags = s.flags := by unfold writeReg; split <;> simp
@[simp] theorem writeReg_srRest (r : Reg) (v : Word) (s : State) : (writeReg r v s).srRest = s.srRest := by unfold writeReg; split <;> simp
@[simp] theorem writeReg_mdb (r : Reg) (v : Word) (s : State) : (writeReg r v s).mdb = s.mdb := by unfold writeReg; split <;> simp
@[simp] theorem writeReg_ivb (r : Reg) (v : Word) (s : State) : (writeReg r v s).ivb = s.ivb := by unfold writeReg; split <;> simp
@[simp] theorem writeReg_im (r : Reg) (v : Word) (s : State) : (writeReg r v s).im = s.im := by unfold writeReg; split <;> simp
@[simp] theorem writeReg_pfx (r : Reg) (v : Word) (s : State) : (writeReg r v s).pfx = s.pfx := by unfold writeReg; split <;> simp
@[simp] theorem writeReg_run (r : Reg) (v : Word) (s : State) : (writeReg r v s).run = s.run := by unfold writeReg; split <;> simp
@[simp] theorem writeReg_memory (r : Reg) (v : Word) (s : State) : (writeReg r v s).memory = s.memory := by unfold writeReg; split <;> simp
@[simp] theorem writeReg_written (r : Reg) (v : Word) (s : State) : (writeReg r v s).written = s.written := by unfold writeReg; split <;> simp
@[simp] theorem writeReg_outputs (r : Reg) (v : Word) (s : State) : (writeReg r v s).outputs = s.outputs := by unfold writeReg; split <;> simp
@[simp] theorem writeReg_draws (r : Reg) (v : Word) (s : State) : (writeReg r v s).draws = s.draws := by unfold writeReg; split <;> simp
@[simp] theorem writeReg_hostEvents (r : Reg) (v : Word) (s : State) : (writeReg r v s).hostEvents = s.hostEvents := by unfold writeReg; split <;> simp
@[simp] theorem writeReg_subCarry (r : Reg) (v : Word) (s : State) : (writeReg r v s).subCarry = s.subCarry := by unfold writeReg; split <;> simp
@[simp] theorem writeReg_srLayout (r : Reg) (v : Word) (s : State) : (writeReg r v s).srLayout = s.srLayout := by unfold writeReg; split <;> simp

@[simp] theorem writeResult_pc (d : Option RegNo) (v : Word) (s : State) : (writeResult d v s).pc = s.pc := by cases d <;> rfl
@[simp] theorem writeResult_sp (d : Option RegNo) (v : Word) (s : State) : (writeResult d v s).sp = s.sp := by cases d <;> rfl
@[simp] theorem writeResult_fp (d : Option RegNo) (v : Word) (s : State) : (writeResult d v s).fp = s.fp := by cases d <;> rfl
@[simp] theorem writeResult_bp (d : Option RegNo) (v : Word) (s : State) : (writeResult d v s).bp = s.bp := by cases d <;> rfl
@[simp] theorem writeResult_flags (d : Option RegNo) (v : Word) (s : State) : (writeResult d v s).flags = s.flags := by cases d <;> rfl
@[simp] theorem writeResult_srRest (d : Option RegNo) (v : Word) (s : State) : (writeResult d v s).srRest = s.srRest := by cases d <;> rfl
@[simp] theorem writeResult_mdb (d : Option RegNo) (v : Word) (s : State) : (writeResult d v s).mdb = s.mdb := by cases d <;> rfl
@[simp] theorem writeResult_ivb (d : Option RegNo) (v : Word) (s : State) : (writeResult d v s).ivb = s.ivb := by cases d <;> rfl
@[simp] theorem writeResult_im (d : Option RegNo) (v : Word) (s : State) : (writeResult d v s).im = s.im := by cases d <;> rfl
@[simp] theorem writeResult_pfx (d : Option RegNo) (v : Word) (s : State) : (writeResult d v s).pfx = s.pfx := by cases d <;> rfl
@[simp] theorem writeResult_run (d : Option RegNo) (v : Word) (s : State) : (writeResult d v s).run = s.run := by cases d <;> rfl
@[simp] theorem writeResult_memory (d : Option RegNo) (v : Word) (s : State) : (writeResult d v s).memory = s.memory := by cases d <;> rfl
@[simp] theorem writeResult_written (d : Option RegNo) (v : Word) (s : State) : (writeResult d v s).written = s.written := by cases d <;> rfl
@[simp] theorem writeResult_outputs (d : Option RegNo) (v : Word) (s : State) : (writeResult d v s).outputs = s.outputs := by cases d <;> rfl
@[simp] theorem writeResult_draws (d : Option RegNo) (v : Word) (s : State) : (writeResult d v s).draws = s.draws := by cases d <;> rfl
@[simp] theorem writeResult_hostEvents (d : Option RegNo) (v : Word) (s : State) : (writeResult d v s).hostEvents = s.hostEvents := by cases d <;> rfl
@[simp] theorem writeResult_subCarry (d : Option RegNo) (v : Word) (s : State) : (writeResult d v s).subCarry = s.subCarry := by cases d <;> rfl
@[simp] theorem writeResult_srLayout (d : Option RegNo) (v : Word) (s : State) : (writeResult d v s).srLayout = s.srLayout := by cases d <;> rfl

@[simp] theorem updatePair_x (u : Bool) (p : Pair) (v : Addr) (s : State) : (updatePair u p v s).x = s.x := by cases u <;> cases p <;> rfl
@[simp] theorem updatePair_flags (u : Bool) (p : Pair) (v : Addr) (s : State) : (updatePair u p v s).flags = s.flags := by cases u <;> cases p <;> rfl
@[simp] theorem updatePair_srRest (u : Bool) (p : Pair) (v : Addr) (s : State) : (updatePair u p v s).srRest = s.srRest := by cases u <;> cases p <;> rfl
@[simp] theorem updatePair_mdb (u : Bool) (p : Pair) (v : Addr) (s : State) : (updatePair u p v s).mdb = s.mdb := by cases u <;> cases p <;> rfl
@[simp] theorem updatePair_ivb (u : Bool) (p : Pair) (v : Addr) (s : State) : (updatePair u p v s).ivb = s.ivb := by cases u <;> cases p <;> rfl
@[simp] theorem updatePair_im (u : Bool) (p : Pair) (v : Addr) (s : State) : (updatePair u p v s).im = s.im := by cases u <;> cases p <;> rfl
@[simp] theorem updatePair_pfx (u : Bool) (p : Pair) (v : Addr) (s : State) : (updatePair u p v s).pfx = s.pfx := by cases u <;> cases p <;> rfl
@[simp] theorem updatePair_run (u : Bool) (p : Pair) (v : Addr) (s : State) : (updatePair u p v s).run = s.run := by cases u <;> cases p <;> rfl
@[simp] theorem updatePair_memory (u : Bool) (p : Pair) (v : Addr) (s : State) : (updatePair u p v s).memory = s.memory := by cases u <;> cases p <;> rfl
@[simp] theorem updatePair_written (u : Bool) (p : Pair) (v : Addr) (s : State) : (updatePair u p v s).written = s.written := by cases u <;> cases p <;> rfl
@[simp] theorem updatePair_outputs (u : Bool) (p : Pair) (v : Addr) (s : State) : (updatePair u p v s).outputs = s.outputs := by cases u <;> cases p <;> rfl
@[simp] theorem updatePair_draws (u : Bool) (p : Pair) (v : Addr) (s : State) : (updatePair u p v s).draws = s.draws := by cases u <;> cases p <;> rfl
@[simp] theorem updatePair_hostEvents (u : Bool) (p : Pair) (v : Addr) (s : State) : (updatePair u p v s).hostEvents = s.hostEvents := by cases u <;> cases p <;> rfl
@[simp] theorem updatePair_subCarry (u : Bool) (p : Pair) (v : Addr) (s : State) : (updatePair u p v s).subCarry = s.subCarry := by cases u <;> cases p <;> rfl
@[simp] theorem updatePair_srLayout (u : Bool) (p : Pair) (v : Addr) (s : State) : (updatePair u p v s).srLayout = s.srLayout := by cases u <;> cases p <;> rfl

@[simp] theorem memRead_x (a : Addr) (s : State) : ((memRead a s).2).x = s.x := by unfold memRead; split <;> [rfl; (split <;> rfl)]
@[simp] theorem memRead_pc (a : Addr) (s : State) : ((memRead a s).2).pc = s.pc := by unfold memRead; split <;> [rfl; (split <;> rfl)]
@[simp] theorem memRead_sp (a : Addr) (s : State) : ((memRead a s).2).sp = s.sp := by unfold memRead; split <;> [rfl; (split <;> rfl)]
@[simp] theorem memRead_fp (a : Addr) (s : State) : ((memRead a s).2).fp = s.fp := by unfold memRead; split <;> [rfl; (split <;> rfl)]
@[simp] theorem memRead_bp (a : Addr) (s : State) : ((memRead a s).2).bp = s.bp := by unfold memRead; split <;> [rfl; (split <;> rfl)]
@[simp] theorem memRead_flags (a : Addr) (s : State) : ((memRead a s).2).flags = s.flags := by unfold memRead; split <;> [rfl; (split <;> rfl)]
@[simp] theorem memRead_srRest (a : Addr) (s : State) : ((memRead a s).2).srRest = s.srRest := by unfold memRead; split <;> [rfl; (split <;> rfl)]
@[simp] theorem memRead_mdb (a : Addr) (s : State) : ((memRead a s).2).mdb = s.mdb := by unfold memRead; split <;> [rfl; (split <;> rfl)]
@[simp] theorem memRead_ivb (a : Addr) (s : State) : ((memRead a s).2).ivb = s.ivb := by unfold memRead; split <;> [rfl; (split <;> rfl)]
@[simp] theorem memRead_im (a : Addr) (s : State) : ((memRead a s).2).im = s.im := by unfold memRead; split <;> [rfl; (split <;> rfl)]
@[simp] theorem memRead_pfx (a : Addr) (s : State) : ((memRead a s).2).pfx = s.pfx := by unfold memRead; split <;> [rfl; (split <;> rfl)]
@[simp] theorem memRead_run (a : Addr) (s : State) : ((memRead a s).2).run = s.run := by unfold memRead; split <;> [rfl; (split <;> rfl)]
@[simp] theorem memRead_memory (a : Addr) (s : State) : ((memRead a s).2).memory = s.memory := by unfold memRead; split <;> [rfl; (split <;> rfl)]
@[simp] theorem memRead_written (a : Addr) (s : State) : ((memRead a s).2).written = s.written := by unfold memRead; split <;> [rfl; (split <;> rfl)]
@[simp] theorem memRead_outputs (a : Addr) (s : State) : ((memRead a s).2).outputs = s.outputs := by unfold memRead; split <;> [rfl; (split <;> rfl)]
@[simp] theorem memRead_hostEvents (a : Addr) (s : State) : ((memRead a s).2).hostEvents = s.hostEvents := by unfold memRead; split <;> [rfl; (split <;> rfl)]
@[simp] theorem memRead_subCarry (a : Addr) (s : State) : ((memRead a s).2).subCarry = s.subCarry := by unfold memRead; split <;> [rfl; (split <;> rfl)]
@[simp] theorem memRead_srLayout (a : Addr) (s : State) : ((memRead a s).2).srLayout = s.srLayout := by unfold memRead; split <;> [rfl; (split <;> rfl)]

@[simp] theorem memWrite_x (a : Addr) (v : Word) (s : State) : (memWrite a v s).x = s.x := by unfold memWrite; split <;> rfl
@[simp] theorem memWrite_pc (a : Addr) (v : Word) (s : State) : (memWrite a v s).pc = s.pc := by unfold memWrite; split <;> rfl
@[simp] theorem memWrite_sp (a : Addr) (v : Word) (s : State) : (memWrite a v s).sp = s.sp := by unfold memWrite; split <;> rfl
@[simp] theorem memWrite_fp (a : Addr) (v : Word) (s : State) : (memWrite a v s).fp = s.fp := by unfold memWrite; split <;> rfl
@[simp] theorem memWrite_bp (a : Addr) (v : Word) (s : State) : (memWrite a v s).bp = s.bp := by unfold memWrite; split <;> rfl
@[simp] theorem memWrite_flags (a : Addr) (v : Word) (s : State) : (memWrite a v s).flags = s.flags := by unfold memWrite; split <;> rfl
@[simp] theorem memWrite_srRest (a : Addr) (v : Word) (s : State) : (memWrite a v s).srRest = s.srRest := by unfold memWrite; split <;> rfl
@[simp] theorem memWrite_mdb (a : Addr) (v : Word) (s : State) : (memWrite a v s).mdb = s.mdb := by unfold memWrite; split <;> rfl
@[simp] theorem memWrite_ivb (a : Addr) (v : Word) (s : State) : (memWrite a v s).ivb = s.ivb := by unfold memWrite; split <;> rfl
@[simp] theorem memWrite_im (a : Addr) (v : Word) (s : State) : (memWrite a v s).im = s.im := by unfold memWrite; split <;> rfl
@[simp] theorem memWrite_pfx (a : Addr) (v : Word) (s : State) : (memWrite a v s).pfx = s.pfx := by unfold memWrite; split <;> rfl
@[simp] theorem memWrite_run (a : Addr) (v : Word) (s : State) : (memWrite a v s).run = s.run := by unfold memWrite; split <;> rfl
@[simp] theorem memWrite_draws (a : Addr) (v : Word) (s : State) : (memWrite a v s).draws = s.draws := by unfold memWrite; split <;> rfl
@[simp] theorem memWrite_hostEvents (a : Addr) (v : Word) (s : State) : (memWrite a v s).hostEvents = s.hostEvents := by unfold memWrite; split <;> rfl
@[simp] theorem memWrite_subCarry (a : Addr) (v : Word) (s : State) : (memWrite a v s).subCarry = s.subCarry := by unfold memWrite; split <;> rfl
@[simp] theorem memWrite_srLayout (a : Addr) (v : Word) (s : State) : (memWrite a v s).srLayout = s.srLayout := by unfold memWrite; split <;> rfl

@[simp] theorem writeMask_x (m : RegNo) (b : Bool) (s : State) : (writeMask m b s).x = s.x := rfl
@[simp] theorem writeMask_pc (m : RegNo) (b : Bool) (s : State) : (writeMask m b s).pc = s.pc := rfl
@[simp] theorem writeMask_sp (m : RegNo) (b : Bool) (s : State) : (writeMask m b s).sp = s.sp := rfl
@[simp] theorem writeMask_fp (m : RegNo) (b : Bool) (s : State) : (writeMask m b s).fp = s.fp := rfl
@[simp] theorem writeMask_bp (m : RegNo) (b : Bool) (s : State) : (writeMask m b s).bp = s.bp := rfl
@[simp] theorem writeMask_flags (m : RegNo) (b : Bool) (s : State) : (writeMask m b s).flags = s.flags := rfl
@[simp] theorem writeMask_srRest (m : RegNo) (b : Bool) (s : State) : (writeMask m b s).srRest = s.srRest := rfl
@[simp] theorem writeMask_mdb (m : RegNo) (b : Bool) (s : State) : (writeMask m b s).mdb = s.mdb := rfl
@[simp] theorem writeMask_ivb (m : RegNo) (b : Bool) (s : State) : (writeMask m b s).ivb = s.ivb := rfl
@[simp] theorem writeMask_pfx (m : RegNo) (b : Bool) (s : State) : (writeMask m b s).pfx = s.pfx := rfl
@[simp] theorem writeMask_run (m : RegNo) (b : Bool) (s : State) : (writeMask m b s).run = s.run := rfl
@[simp] theorem writeMask_memory (m : RegNo) (b : Bool) (s : State) : (writeMask m b s).memory = s.memory := rfl
@[simp] theorem writeMask_written (m : RegNo) (b : Bool) (s : State) : (writeMask m b s).written = s.written := rfl
@[simp] theorem writeMask_outputs (m : RegNo) (b : Bool) (s : State) : (writeMask m b s).outputs = s.outputs := rfl
@[simp] theorem writeMask_draws (m : RegNo) (b : Bool) (s : State) : (writeMask m b s).draws = s.draws := rfl
@[simp] theorem writeMask_hostEvents (m : RegNo) (b : Bool) (s : State) : (writeMask m b s).hostEvents = s.hostEvents := rfl
@[simp] theorem writeMask_subCarry (m : RegNo) (b : Bool) (s : State) : (writeMask m b s).subCarry = s.subCarry := rfl
@[simp] theorem writeMask_srLayout (m : RegNo) (b : Bool) (s : State) : (writeMask m b s).srLayout = s.srLayout := rfl

@[simp] theorem resetCpu_x (s : State) : (resetCpu s).x = State.reset.x := rfl
@[simp] theorem resetCpu_pc (s : State) : (resetCpu s).pc = State.reset.pc := rfl
@[simp] theorem resetCpu_sp (s : State) : (resetCpu s).sp = State.reset.sp := rfl
@[simp] theorem resetCpu_fp (s : State) : (resetCpu s).fp = State.reset.fp := rfl
@[simp] theorem resetCpu_bp (s : State) : (resetCpu s).bp = State.reset.bp := rfl
@[simp] theorem resetCpu_flags (s : State) : (resetCpu s).flags = State.reset.flags := rfl
@[simp] theorem resetCpu_srRest (s : State) : (resetCpu s).srRest = State.reset.srRest := rfl
@[simp] theorem resetCpu_mdb (s : State) : (resetCpu s).mdb = State.reset.mdb := rfl
@[simp] theorem resetCpu_ivb (s : State) : (resetCpu s).ivb = State.reset.ivb := rfl
@[simp] theorem resetCpu_im (s : State) : (resetCpu s).im = State.reset.im := rfl
@[simp] theorem resetCpu_pfx (s : State) : (resetCpu s).pfx = State.reset.pfx := rfl
@[simp] theorem resetCpu_run (s : State) : (resetCpu s).run = State.reset.run := rfl
@[simp] theorem resetCpu_memory (s : State) : (resetCpu s).memory = s.memory := rfl
@[simp] theorem resetCpu_written (s : State) : (resetCpu s).written = State.reset.written := rfl
@[simp] theorem resetCpu_outputs (s : State) : (resetCpu s).outputs = s.outputs := rfl
@[simp] theorem resetCpu_draws (s : State) : (resetCpu s).draws = s.draws := rfl
@[simp] theorem resetCpu_hostEvents (s : State) : (resetCpu s).hostEvents = s.hostEvents := rfl
@[simp] theorem resetCpu_subCarry (s : State) : (resetCpu s).subCarry = s.subCarry := rfl
@[simp] theorem resetCpu_srLayout (s : State) : (resetCpu s).srLayout = s.srLayout := rfl

@[simp] theorem passHost_x (s : State) : (passHost s).x = s.x := rfl
@[simp] theorem passHost_pc (s : State) : (passHost s).pc = s.pc := rfl
@[simp] theorem passHost_sp (s : State) : (passHost s).sp = s.sp := rfl
@[simp] theorem passHost_fp (s : State) : (passHost s).fp = s.fp := rfl
@[simp] theorem passHost_bp (s : State) : (passHost s).bp = s.bp := rfl
@[simp] theorem passHost_flags (s : State) : (passHost s).flags = s.flags := rfl
@[simp] theorem passHost_srRest (s : State) : (passHost s).srRest = s.srRest := rfl
@[simp] theorem passHost_mdb (s : State) : (passHost s).mdb = s.mdb := rfl
@[simp] theorem passHost_ivb (s : State) : (passHost s).ivb = s.ivb := rfl
@[simp] theorem passHost_im (s : State) : (passHost s).im = s.im := rfl
@[simp] theorem passHost_pfx (s : State) : (passHost s).pfx = s.pfx := rfl
@[simp] theorem passHost_run (s : State) : (passHost s).run = s.run := rfl
@[simp] theorem passHost_memory (s : State) : (passHost s).memory = s.memory := rfl
@[simp] theorem passHost_written (s : State) : (passHost s).written = s.written := rfl
@[simp] theorem passHost_outputs (s : State) : (passHost s).outputs = s.outputs := rfl
@[simp] theorem passHost_draws (s : State) : (passHost s).draws = s.draws := rfl
@[simp] theorem passHost_subCarry (s : State) : (passHost s).subCarry = s.subCarry := rfl
@[simp] theorem passHost_srLayout (s : State) : (passHost s).srLayout = s.srLayout := rfl
@[simp] theorem passHost_hostEvents (s : State) : (passHost s).hostEvents = s.hostEvents.tail := rfl

end Sys2Proof.Machine
end

