-- ==== Sys2Proof/Laws/Registers.lean ====
section
/-! SUPPORT. Laws of the registers: read after write, and the halves of a pair. -/

namespace Sys2Proof.Machine

/-- x[j] after x[i] <- v. -/
theorem readGpr_writeGpr (i j : RegNo) (v : Word) (s : State) :
    readGpr j (writeGpr i v s) = if i = j then v else readGpr j s := by
  simp [readGpr, writeGpr, Vector.getElem_set, BitVec.toNat_inj]

@[simp] theorem readGpr_writeGpr_same (i : RegNo) (v : Word) (s : State) : readGpr i (writeGpr i v s) = v := by
  simp [readGpr_writeGpr]

theorem readGpr_writeGpr_other {i j : RegNo} (v : Word) (s : State) (h : i ≠ j) :
    readGpr j (writeGpr i v s) = readGpr j s := by
  simp [readGpr_writeGpr, h]

/-- x[j] depends on the GPRs alone. -/
theorem readGpr_congr {s t : State} (h : t.x = s.x) (j : RegNo) : readGpr j t = readGpr j s := by
  simp [readGpr, h]

/-- The GPRs after an ALU result is written. -/
theorem writeResult_some_x (y : RegNo) (v : Word) (s : State) : (writeResult (some y) v s).x = s.x.set y.toNat v y.isLt := rfl

@[simp] theorem writeResult_none (v : Word) (s : State) : writeResult none v s = s := rfl

@[simp] theorem writeReg_gpr (n : RegNo) (v : Word) (s : State) : writeReg ⟨.gpr, n⟩ v s = writeGpr n v s := rfl

@[simp] theorem writeReg_mp (n : RegNo) (v : Word) (s : State) : writeReg ⟨.mp, n⟩ v s = writeMp n v s := rfl

@[simp] theorem updatePair_false (p : Pair) (v : Addr) (s : State) : updatePair false p v s = s := rfl

@[simp] theorem updatePair_true (p : Pair) (v : Addr) (s : State) : updatePair true p v s = writePair p v s := rfl

/-! ### Halves -/

@[simp] theorem highHalf_joinHalves (h l : Word) : highHalf (joinHalves h l) = h := by
  have := h.isLt
  have := l.isLt
  apply BitVec.eq_of_toNat_eq
  simp only [highHalf, joinHalves, BitVec.toNat_ofNat]
  omega

@[simp] theorem lowHalf_joinHalves (h l : Word) : lowHalf (joinHalves h l) = l := by
  have := h.isLt
  have := l.isLt
  apply BitVec.eq_of_toNat_eq
  simp only [lowHalf, joinHalves, BitVec.toNat_ofNat]
  omega

@[simp] theorem joinHalves_highHalf_lowHalf (v : Addr) : joinHalves (highHalf v) (lowHalf v) = v := by
  have := v.isLt
  apply BitVec.eq_of_toNat_eq
  simp only [highHalf, lowHalf, joinHalves, BitVec.toNat_ofNat]
  omega

@[simp] theorem halfOf_withHalf (i : RegNo) (h : Word) (v : Addr) : halfOf i (withHalf i h v) = h := by
  unfold halfOf withHalf
  split <;> simp

/-- Writing one half of a pair leaves the other half. -/
theorem halfOf_withHalf_other {i j : RegNo} (h : Word) (v : Addr) (hij : holdsHighHalf i ≠ holdsHighHalf j) :
    halfOf j (withHalf i h v) = halfOf j v := by
  unfold halfOf withHalf
  cases hi : holdsHighHalf i <;> cases hj : holdsHighHalf j <;> simp_all

/-! ### Memory Pointer registers -/

/-- The parameters at their defaults: the even register of a pair is the high half (10_state.md R23). -/
theorem holdsHighHalf_iff (i : RegNo) : holdsHighHalf i = (i.toNat % 2 == 0) := by
  simp [holdsHighHalf, Params.mpHighFirst]

/-- PC read as data is pc_next (10_state.md R25). -/
@[simp] theorem pcAsData_eq (len : Nat) (s : State) : pcAsData len s = pcNext len s := rfl

@[simp] theorem readPair_pc (len : Nat) (s : State) : readPair len .pc s = pcNext len s := rfl
@[simp] theorem readPair_sp (len : Nat) (s : State) : readPair len .sp s = s.sp := rfl
@[simp] theorem readPair_fp (len : Nat) (s : State) : readPair len .fp s = s.fp := rfl
@[simp] theorem readPair_bp (len : Nat) (s : State) : readPair len .bp s = s.bp := rfl

/-- A pair read after a pair other than PC is written. -/
theorem readPair_writePair (len : Nat) (p q : Pair) (v : Addr) (s : State) (hp : p ≠ .pc) :
    readPair len q (writePair p v s) = if p = q then v else readPair len q s := by
  cases p <;> cases q <;> first | contradiction | rfl

/-- MP register `i` written, its pair read: the half replaced. -/
theorem readPair_writeMp_same (len : Nat) (i : RegNo) (v : Word) (s : State) (hi : pairOfMp i ≠ .pc) :
    readPair len (pairOfMp i) (writeMp i v s) = withHalf i v (readPair len (pairOfMp i) s) := by
  unfold writeMp
  cases h : pairOfMp i <;> simp_all

/-- MP register `i` written: every pair but its own is as before. -/
theorem readPair_writeMp_other (len : Nat) (i : RegNo) (q : Pair) (v : Word) (s : State) (hq : pairOfMp i ≠ q) :
    readPair len q (writeMp i v s) = readPair len q s := by
  unfold writeMp
  cases h : pairOfMp i <;> cases q <;> simp_all [pcNext]

/-- mp[i] after mp[i] <- v, outside PC. -/
theorem readMp_writeMp_same (len : Nat) (i : RegNo) (v : Word) (s : State) (hi : pairOfMp i ≠ .pc) :
    readMp len i (writeMp i v s) = v := by
  rw [readMp, readPair_writeMp_same len i v s hi, halfOf_withHalf]

end Sys2Proof.Machine
end

