-- ==== Sys2Proof/Laws/Ops.lean ====
section
/-! SUPPORT. One lemma per shared operation: everything it can do, in the terms of Safety.lean. -/

namespace Sys2Proof.Machine

/-! ### Writes of PC -/

theorem jumpTo_even {v : Addr} (h : v.toNat % 2 = 0) (s : State) : jumpTo v s = .next { s with pc := v } := by
  simp [jumpTo, Params.oddAddress, h]

theorem jumpTo_odd {v : Addr} (h : v.toNat % 2 = 1) (s : State) : jumpTo v s = .refused .oddPc := by
  simp [jumpTo, Params.oddAddress, h]

/-- A write of PC answers a next state only for an even value, and changes nothing but pc. -/
theorem jumpTo_next {v : Addr} {s t : State} (h : jumpTo v s = .next t) :
    v.toNat % 2 = 0 ∧ t = { s with pc := v } := by
  rcases Nat.mod_two_eq_zero_or_one v.toNat with he | he
  · rw [jumpTo_even he] at h
    exact ⟨he, (Host.Outcome.next.inj h).symm⟩
  · rw [jumpTo_odd he] at h
    cases h

/-- A write of a whole pair answers a next state: a jump for PC, the pair replaced and the advance for the others. -/
theorem assignPair_next {len : Nat} {p : Pair} {v : Addr} {s t : State} (h : assignPair len p v s = .next t) :
    (p = .pc ∧ v.toNat % 2 = 0 ∧ t = { s with pc := v }) ∨ (p ≠ .pc ∧ t = advance len (writePair p v s)) := by
  cases p
  · exact .inl ⟨rfl, jumpTo_next h⟩
  all_goals exact .inr ⟨by simp, (Host.Outcome.next.inj h).symm⟩

/-! ### Data accesses -/

theorem withEvenAddress_even {a : Addr} (h : a.toNat % 2 = 0) (f : Addr → Out) : withEvenAddress a f = f a := by
  simp [withEvenAddress, Params.oddAddress, h]

theorem withEvenAddress_odd {a : Addr} (h : a.toNat % 2 = 1) (f : Addr → Out) :
    withEvenAddress a f = .refused .oddAddress := by
  simp [withEvenAddress, Params.oddAddress, h]

/-- A data access answers a next state only at an even address. -/
theorem withEvenAddress_next {a : Addr} {f : Addr → Out} {t : State} (h : withEvenAddress a f = .next t) :
    a.toNat % 2 = 0 ∧ f a = .next t := by
  rcases Nat.mod_two_eq_zero_or_one a.toNat with he | he
  · rw [withEvenAddress_even he] at h
    exact ⟨he, h⟩
  · rw [withEvenAddress_odd he] at h
    cases h

theorem isIo_eq_true {a : Addr} : isIo a = true ↔ 0xFF000000 ≤ a.toNat := by simp [isIo]

theorem isIo_eq_false {a : Addr} : isIo a = false ↔ a.toNat < 0xFF000000 := by simp [isIo]

/-- A read of a word gives what `ReadsWord` says and changes only the count of free values. -/
theorem memRead_reads (a : Addr) (s : State) :
    ∃ n, ReadsWord s a (memRead a s).1 n ∧ (memRead a s).2 = { s with draws := s.draws + n } := by
  unfold memRead ReadsWord
  by_cases hio : isIo a = true
  · exact ⟨1, by simp [hio, isIo_eq_true.mp hio, drawWord]⟩
  · have hlt : a.toNat < 0xFF000000 := isIo_eq_false.mp (by simpa using hio)
    cases hm : s.memory.wordAt a.toNat with
    | none => exact ⟨1, by simp [hio, drawWord]⟩
    | some v => exact ⟨0, by simp [hio, hlt]⟩

/-- The word read and the count of free values drawn are determined. -/
theorem ReadsWord.unique {s : State} {a : Addr} {v v' : Word} {n n' : Nat}
    (h : ReadsWord s a v n) (h' : ReadsWord s a v' n') : v = v' ∧ n = n' := by
  rcases h with ⟨h1, h2, rfl⟩ | ⟨h1, rfl, rfl⟩ <;> rcases h' with ⟨h1', h2', rfl⟩ | ⟨h1', rfl, rfl⟩
  · simp_all
  · rcases h1' with h1' | h1'
    · omega
    · simp_all
  · rcases h1 with h1 | h1
    · omega
    · simp_all
  · simp

/-- A write of a word does what `StoresWord` says. -/
theorem memWrite_stores (a : Addr) (v : Word) (s : State) : StoresWord s a v (memWrite a v s) := by
  unfold memWrite StoresWord
  by_cases hio : isIo a = true
  · have := isIo_eq_true.mp hio
    simp only [hio, if_true, true_and]
    exact ⟨fun _ => by simp, fun h => absurd h (by omega)⟩
  · have := isIo_eq_false.mp (by simpa using hio)
    simp only [hio, Bool.false_eq_true, if_false, true_and]
    refine ⟨fun h => absurd h (by omega), fun _ => ⟨by simp, fun b h0 h1 => ?_, fun k => mem_insertAddr⟩⟩
    exact Memory.read_setWord_other _ _ h0 h1

/-- A store at an even address counts the word of every byte it changes as written, and keeps what was counted. -/
theorem StoresWord.recorded {s t : State} {ea : Addr} {v : Word} (h : StoresWord s ea v t) (he : ea.toNat % 2 = 0) :
    (∀ b, t.memory.read b ≠ s.memory.read b → b / 2 * 2 ∈ t.written) ∧ ∀ k ∈ s.written, k ∈ t.written := by
  obtain ⟨-, h1, h2⟩ := h
  by_cases hio : 0xFF000000 ≤ ea.toNat
  · obtain ⟨-, hw, hm⟩ := h1 hio
    exact ⟨fun b hb => absurd (hm b) hb, fun k hk => hw ▸ hk⟩
  · obtain ⟨-, -, hm, hw⟩ := h2 (by omega)
    refine ⟨fun b hb => (hw _).mpr (.inl ?_), fun k hk => (hw k).mpr (.inr hk)⟩
    by_contra hne
    exact hb (hm b (by omega) (by omega))

/-! ### Registers in the terms of the statements -/

theorem highHalf_eq (v : Addr) : highHalf v = v.extractLsb' 16 16 := by
  apply BitVec.eq_of_toNat_eq
  simp [highHalf, Nat.shiftRight_eq_div_pow]

theorem lowHalf_eq (v : Addr) : lowHalf v = v.extractLsb' 0 16 := by
  apply BitVec.eq_of_toNat_eq
  simp [lowHalf]

theorem joinHalves_eq (h l : Word) : joinHalves h l = h ++ l := by
  have := h.isLt
  have := l.isLt
  apply BitVec.eq_of_toNat_eq
  rw [BitVec.toNat_append, ← Nat.shiftLeft_add_eq_or_of_lt l.isLt, Nat.shiftLeft_eq]
  simp only [joinHalves, BitVec.toNat_ofNat]
  omega

theorem pcNext_eq (len : Nat) (s : State) : pcNext len s = s.pc + BitVec.ofNat 32 (2 * len) := rfl

theorem readMp_eq_mpWord (len : Nat) (i : RegNo) (s : State) : readMp len i s = mpWord len i s := by
  have h := i.isLt
  obtain ⟨n, hn⟩ : ∃ n, i.toNat = n := ⟨_, rfl⟩
  have hn' : n < 8 := hn ▸ h
  interval_cases n <;>
    simp [readMp, halfOf, holdsHighHalf, pairOfMp, mpWord, hn, Pair.ofIndex, Params.mpHighFirst, readPair, pcAsData,
      Params.pcBase, pcNext, highHalf_eq, lowHalf_eq]

theorem writeMp_eq_withMp {i : RegNo} (hi : 2 ≤ i.toNat) (v : Word) (s : State) : writeMp i v s = withMp i v s := by
  have h := i.isLt
  obtain ⟨n, hn⟩ : ∃ n, i.toNat = n := ⟨_, rfl⟩
  have hn' : n < 8 := hn ▸ h
  interval_cases n <;> first | omega |
    simp [writeMp, withHalf, holdsHighHalf, pairOfMp, withMp, hn, Pair.ofIndex, Params.mpHighFirst, highHalf_eq, lowHalf_eq,
      joinHalves_eq]

theorem readReg_eq_regWord (len : Nat) (r : Reg) (s : State) : readReg len r s = regWord len r s := by
  obtain ⟨f, n⟩ := r
  cases f
  · rfl
  · exact readMp_eq_mpWord len n s

/-- A register is outside PC exactly if it is a GPR or one of mp2 to mp7. -/
theorem isPcHalf_eq (i : RegNo) : isPcHalf i = decide (i.toNat < 2) := by
  have h := i.isLt
  obtain ⟨n, hn⟩ : ∃ n, i.toNat = n := ⟨_, rfl⟩
  have hn' : n < 8 := hn ▸ h
  interval_cases n <;> simp [isPcHalf, pairOfMp, hn, Pair.ofIndex]

theorem unlessPcHalf_outside {r : Reg} (h : ¬ InPc r) (out : Out) : unlessPcHalf r out = out := by
  obtain ⟨f, n⟩ := r
  cases f
  · rfl
  · have : ¬ n.toNat < 2 := fun hn => h ⟨rfl, hn⟩
    simp [unlessPcHalf, isPcHalf_eq, this]

theorem unlessPcHalf_inside {r : Reg} (h : InPc r) (out : Out) : unlessPcHalf r out = .refused .halfWriteOfPc := by
  obtain ⟨f, n⟩ := r
  obtain ⟨rfl, hn⟩ := h
  have : n.toNat < 2 := hn
  simp [unlessPcHalf, isPcHalf_eq, this]

/-- A write of an MP register that may be a half of PC answers a next state only outside PC. -/
theorem unlessPcHalf_next {r : Reg} {out : Out} {t : State} (h : unlessPcHalf r out = .next t) :
    ¬ InPc r ∧ out = .next t := by
  by_cases hr : InPc r
  · rw [unlessPcHalf_inside hr] at h
    cases h
  · rw [unlessPcHalf_outside hr] at h
    exact ⟨hr, h⟩

theorem writeReg_eq_withReg {r : Reg} (h : ¬ InPc r) (v : Word) (s : State) : writeReg r v s = withReg r v s := by
  obtain ⟨f, n⟩ := r
  cases f
  · rfl
  · exact writeMp_eq_withMp (Nat.le_of_not_lt fun hn => h ⟨rfl, hn⟩) v s

theorem writePair_eq_withPair {p : Pair} (h : p ≠ .pc) (v : Addr) (s : State) : writePair p v s = withPair p v s := by
  cases p <;> first | contradiction | rfl

theorem insidePair_iff (r : Reg) (p : Pair) : insidePair r p = true ↔ InPair r p := by
  obtain ⟨f, n⟩ := r
  have h := n.isLt
  obtain ⟨k, hk⟩ : ∃ k, n.toNat = k := ⟨_, rfl⟩
  have hk' : k < 8 := hk ▸ h
  cases f
  · simp [insidePair, InPair]
  · interval_cases k <;> cases p <;> simp [insidePair, InPair, pairOfMp, hk, Pair.ofIndex, Pair.index]

/-! ### The ALU -/

theorem ofInt_toNat16 (v : Int) : ((BitVec.ofInt 16 v).toNat : Int) = v % 65536 := by
  rw [BitVec.toNat_ofInt]
  omega

/-- A word read as a signed number, in its two cases. -/
theorem toInt16_cases (a : Word) :
    a.toInt = a.toNat ∧ a.toNat < 32768 ∨ a.toInt = a.toNat - 65536 ∧ 32768 ≤ a.toNat ∧ a.toNat < 65536 := by
  have := a.isLt
  rw [BitVec.toInt_eq_toNat_cond]
  split <;> omega

/-- The flags of a 16-bit result whose exact value is `v`, given that `ovf` says when `v` does not fit. -/
theorem flagsOf_exact {c ovf : Bool} {v : Int} (h : ovf = decide (v < -32768 ∨ 32767 < v)) :
    flagsOf c ovf (BitVec.ofInt 16 v) = exactFlags c v := by
  have hv := ofInt_toNat16 v
  have hl := (BitVec.ofInt 16 v).isLt
  have hn := toInt16_cases (BitVec.ofInt 16 v)
  simp only [flagsOf, exactFlags, h, Flags.mk.injEq, true_and]
  constructor
  · rw [BitVec.msb_eq_decide, decide_eq_decide]
    omega
  · rw [Bool.eq_iff_iff, beq_iff_eq, decide_eq_true_eq, ← BitVec.toNat_inj]
    have h0 : (0 : Word).toNat = 0 := rfl
    omega

/-- An addition is exact. -/
theorem addOp_exact (a b : Word) (cin : Bool) :
    addOp a b cin = (BitVec.ofInt 16 (a.toInt + b.toInt + cin.toNat),
      exactFlags (decide (65536 ≤ a.toNat + b.toNat + cin.toNat)) (a.toInt + b.toInt + cin.toNat)) := by
  have ha := toInt16_cases a
  have hb := toInt16_cases b
  have hc : cin.toNat ≤ 1 := by cases cin <;> decide
  have hs : (a.zeroExtend 17 + b.zeroExtend 17 + (BitVec.ofBool cin).zeroExtend 17).toNat
      = a.toNat + b.toNat + cin.toNat := by
    simp only [BitVec.truncate_eq_setWidth, BitVec.toNat_add, BitVec.toNat_setWidth, BitVec.toNat_ofBool]
    omega
  have hv := ofInt_toNat16 (a.toInt + b.toInt + cin.toNat)
  have hr : (a.zeroExtend 17 + b.zeroExtend 17 + (BitVec.ofBool cin).zeroExtend 17).truncate 16
      = BitVec.ofInt 16 (a.toInt + b.toInt + cin.toNat) := by
    apply BitVec.eq_of_toNat_eq
    rw [BitVec.truncate_eq_setWidth, BitVec.toNat_setWidth, hs]
    omega
  simp only [addOp, hr]
  rw [flagsOf_exact, BitVec.msb_eq_decide, hs]
  simp only [BitVec.msb_eq_decide]
  rw [Bool.eq_iff_iff]
  simp only [Bool.and_eq_true, beq_iff_eq, bne_iff_ne, ne_eq, decide_eq_decide, decide_eq_true_eq]
  omega

/-- A subtraction is exact, and C is what SUB_CARRY makes of the borrow. -/
theorem subOp_exact (p : SubCarry) (a b : Word) (bin free : Bool) :
    subOp p a b bin free = (BitVec.ofInt 16 (a.toInt - b.toInt - bin.toNat),
      exactFlags (carryOfBorrow p (decide (a.toNat < b.toNat + bin.toNat)) free) (a.toInt - b.toInt - bin.toNat)) := by
  have ha := toInt16_cases a
  have hb := toInt16_cases b
  have hc : bin.toNat ≤ 1 := by cases bin <;> decide
  have hs : (a.zeroExtend 17 - b.zeroExtend 17 - (BitVec.ofBool bin).zeroExtend 17).toNat
      = (a.toNat + 131072 - b.toNat - bin.toNat) % 131072 := by
    simp only [BitVec.truncate_eq_setWidth, BitVec.toNat_sub, BitVec.toNat_setWidth, BitVec.toNat_ofBool]
    omega
  have hv := ofInt_toNat16 (a.toInt - b.toInt - bin.toNat)
  have hr : (a.zeroExtend 17 - b.zeroExtend 17 - (BitVec.ofBool bin).zeroExtend 17).truncate 16
      = BitVec.ofInt 16 (a.toInt - b.toInt - bin.toNat) := by
    apply BitVec.eq_of_toNat_eq
    rw [BitVec.truncate_eq_setWidth, BitVec.toNat_setWidth, hs]
    omega
  have hm : (a.zeroExtend 17 - b.zeroExtend 17 - (BitVec.ofBool bin).zeroExtend 17).msb
      = decide (a.toNat < b.toNat + bin.toNat) := by
    rw [BitVec.msb_eq_decide, hs, decide_eq_decide]
    omega
  simp only [subOp, hr, hm]
  rw [flagsOf_exact]
  simp only [BitVec.msb_eq_decide]
  rw [Bool.eq_iff_iff]
  simp only [Bool.and_eq_true, bne_iff_ne, ne_eq, decide_eq_decide, decide_eq_true_eq]
  omega

/-- An addition always answers a next state: the sum in its destination, its flags, pc past one word. -/
theorem aluAdd_next {dst : Option RegNo} {a b : Word} {cin : Bool} {s t : State} (h : aluAdd dst a b cin s = .next t) :
    t = advance 1 { writeResult dst (addOp a b cin).1 s with flags := (addOp a b cin).2 } :=
  (Host.Outcome.next.inj h).symm

/-- A subtraction always answers a next state: the difference in its destination, its flags, one free bit drawn for C. -/
theorem aluSub_next {dst : Option RegNo} {a b : Word} {bin : Bool} {s t : State} (h : aluSub dst a b bin s = .next t) :
    ∃ r : Word × Flags, r = subOp s.subCarry a b bin (Config.freeBit s.draws) ∧
      t = advance 1 { writeResult dst r.1 { s with draws := s.draws + 1 } with flags := r.2 } :=
  ⟨_, rfl, (Host.Outcome.next.inj h).symm⟩

/-- A logic operation always answers a next state: the result in its destination, its flags, two free bits drawn. -/
theorem aluLogic_next {dst : Option RegNo} {res : Word} {s t : State} (h : aluLogic dst res s = .next t) :
    ∃ f : Flags, f = logicFlags s.flags (Config.freeBit s.draws) (Config.freeBit (s.draws + 1)) res ∧
      t = advance 1 { writeResult dst res { s with draws := s.draws + 2 } with flags := f } :=
  ⟨_, rfl, (Host.Outcome.next.inj h).symm⟩

/-! ### Loads and stores through a pair -/

theorem updateRefusal_none_iff (u : Bool) (r : Reg) (p : Pair) :
    updateRefusal u r p = none ↔ (u = true → p ≠ .pc ∧ ¬ InPair r p) := by
  cases u
  · simp [updateRefusal]
  · simp only [updateRefusal, Bool.true_and, beq_iff_eq, forall_const]
    by_cases hp : p = .pc <;> by_cases hi : insidePair r p = true <;> simp_all [← insidePair_iff]

/-- An indirect load that answers a next state, whole: the checks it passed, the word it read, and the state after. -/
theorem indirectLoad_next {u pre : Bool} {len : Nat} {r : Reg} {p : Pair} {off : Addr} {s t : State}
    (h : indirectLoad u pre len r p off s = .next t) :
    (u = true → p ≠ .pc ∧ ¬ InPair r p) ∧ ¬ InPc r ∧ (accessAddr pre (readPair len p s) off).toNat % 2 = 0 ∧
    ∃ v n, ReadsWord s (accessAddr pre (readPair len p s) off) v n ∧
      t = advance len (updatePair u p (readPair len p s + off) (writeReg r v { s with draws := s.draws + n })) := by
  unfold indirectLoad at h
  split at h
  · cases h
  · rename_i hu
    obtain ⟨hr, h⟩ := unlessPcHalf_next h
    obtain ⟨he, h⟩ := withEvenAddress_next h
    obtain ⟨n, hn, hs⟩ := memRead_reads (accessAddr pre (readPair len p s) off) s
    refine ⟨(updateRefusal_none_iff u r p).mp hu, hr, he, _, n, hn, ?_⟩
    rw [← hs]
    exact (Host.Outcome.next.inj h).symm

/-- An indirect load whose checks pass answers a next state. -/
theorem indirectLoad_eq {u pre : Bool} {len : Nat} {r : Reg} {p : Pair} {off : Addr} {s : State}
    (hu : u = true → p ≠ .pc ∧ ¬ InPair r p) (hr : ¬ InPc r)
    (he : (accessAddr pre (readPair len p s) off).toNat % 2 = 0) :
    ∃ v n, ReadsWord s (accessAddr pre (readPair len p s) off) v n ∧
      indirectLoad u pre len r p off s =
        .next (advance len (updatePair u p (readPair len p s + off) (writeReg r v { s with draws := s.draws + n }))) := by
  obtain ⟨n, hn, hs⟩ := memRead_reads (accessAddr pre (readPair len p s) off) s
  refine ⟨_, n, hn, ?_⟩
  simp only [indirectLoad, (updateRefusal_none_iff u r p).mpr hu, unlessPcHalf_outside hr, withEvenAddress_even he, hs]

/-- An indirect store that answers a next state, whole: the checks it passed and the state after. -/
theorem indirectStore_next {u pre : Bool} {len : Nat} {r : Reg} {p : Pair} {off : Addr} {s t : State}
    (h : indirectStore u pre len r p off s = .next t) :
    (u = true → p ≠ .pc ∧ ¬ InPair r p) ∧ (accessAddr pre (readPair len p s) off).toNat % 2 = 0 ∧
    t = advance len (updatePair u p (readPair len p s + off)
      (memWrite (accessAddr pre (readPair len p s) off) (readReg len r s) s)) := by
  unfold indirectStore at h
  split at h
  · cases h
  · rename_i hu
    obtain ⟨he, h⟩ := withEvenAddress_next h
    exact ⟨(updateRefusal_none_iff u r p).mp hu, he, (Host.Outcome.next.inj h).symm⟩

/-- An indirect store whose checks pass answers a next state. -/
theorem indirectStore_eq {u pre : Bool} {len : Nat} {r : Reg} {p : Pair} {off : Addr} {s : State}
    (hu : u = true → p ≠ .pc ∧ ¬ InPair r p) (he : (accessAddr pre (readPair len p s) off).toNat % 2 = 0) :
    indirectStore u pre len r p off s = .next (advance len (updatePair u p (readPair len p s + off)
      (memWrite (accessAddr pre (readPair len p s) off) (readReg len r s) s))) := by
  simp only [indirectStore, (updateRefusal_none_iff u r p).mpr hu, withEvenAddress_even he]

/-! ### Moves, direct accesses and jumps -/

/-- A regular move that answers a next state: the destination is outside PC and takes the source. -/
theorem moveReg_next {d r : Reg} {s t : State} (h : moveReg d r s = .next t) :
    ¬ InPc d ∧ t = advance 1 (writeReg d (readReg 1 r s) s) := by
  obtain ⟨hd, h⟩ := unlessPcHalf_next h
  exact ⟨hd, (Host.Outcome.next.inj h).symm⟩

/-- SUBC where SUB_CARRY is given: a subtraction with C, or its complement, taken in. -/
theorem execSubc_next {y a b : RegNo} {s t : State} (h : execSubc y a b s = .next t) :
    ∃ bin, borrowIn s.subCarry s.flags.c = some bin ∧
      aluSub (some y) (readGpr a s) (readGpr b s) bin s = .next t := by
  unfold execSubc at h
  split at h
  · exact ⟨_, ‹_›, h⟩
  · cases h

/-- MOVs SR rA answers a next state only where SR_LAYOUT is given. -/
theorem execMovsSrR_next {r : RegNo} {s t : State} (h : execMovsSrR r s = .next t) :
    ∃ l, s.srLayout = some l ∧
      t = advance 1 { s with flags := srFlags l (readGpr r s), srRest := srOther l (readGpr r s) } := by
  unfold execMovsSrR at h
  split at h
  · exact ⟨_, ‹_›, (Host.Outcome.next.inj h).symm⟩
  · cases h

/-- MOVs rB SR always answers a next state: the image of SR, or a free word while SR_LAYOUT is OPEN. -/
theorem execMovsRSr_next {d : RegNo} {s t : State} (h : execMovsRSr d s = .next t) :
    (∃ l, s.srLayout = some l ∧ t = advance 1 (writeGpr d (srImage l s) s)) ∨
    (s.srLayout = none ∧
      t = advance 1 (writeGpr d (Config.freeWord s.draws) { s with draws := s.draws + 1 })) := by
  unfold execMovsRSr at h
  split at h
  · exact .inl ⟨_, ‹_›, (Host.Outcome.next.inj h).symm⟩
  · exact .inr ⟨‹_›, (Host.Outcome.next.inj h).symm⟩

/-- One bit is replaced, and no other. -/
theorem putBit_getLsbD (i j : BitVec 4) (b : Bool) (w : Word) :
    (putBit i b w).getLsbD j.toNat = if j = i then b else w.getLsbD j.toNat := by
  have hj : j.toNat < 16 := j.isLt
  by_cases h : j = i
  · subst h
    cases b <;> simp [putBit, hj]
  · have hn : j.toNat ≠ i.toNat := fun e => h (BitVec.eq_of_toNat_eq e)
    cases b <;> simp [putBit, h] <;> omega

/-- The bits of a word with the flags placed: a flag at its place, and the other bits of the word. -/
theorem placeFlags_getLsbD (l : SrLayout) (f : Flags) (w : Word) (j : BitVec 4) :
    (placeFlags l f w).getLsbD j.toNat =
      if j = l.c then f.c else if j = l.o then f.o else if j = l.n then f.n else if j = l.z then f.z
      else w.getLsbD j.toNat := by
  simp only [placeFlags, putBit_getLsbD]

/-- Placing the flags of a word over the rest of it gives the word back, whatever the layout. -/
theorem placeFlags_srFlags (l : SrLayout) (w : Word) : placeFlags l (srFlags l w) (srOther l w) = w := by
  have hbit (j : BitVec 4) : (placeFlags l (srFlags l w) (srOther l w)).getLsbD j.toNat = w.getLsbD j.toNat := by
    simp only [srOther, placeFlags_getLsbD, srFlags]
    repeat' split
    all_goals simp_all
  apply BitVec.eq_of_getLsbD_eq
  intro k hk
  have h := hbit (BitVec.ofNat 4 k)
  rwa [BitVec.toNat_ofNat, Nat.mod_eq_of_lt hk] at h

/-- A direct load that answers a next state: the destination is outside PC and takes the word read. -/
theorem directLoad_next {r : Reg} {a : BitVec 24} {s t : State} (h : directLoad r a s = .next t) :
    ¬ InPc r ∧ ∃ v n, ReadsWord s (directAddr a) v n ∧
      t = advance 2 (writeReg r v { s with draws := s.draws + n }) := by
  obtain ⟨hr, h⟩ := unlessPcHalf_next h
  obtain ⟨n, hn, hs⟩ := memRead_reads (directAddr a) s
  refine ⟨hr, _, n, hn, ?_⟩
  rw [← hs]
  exact (Host.Outcome.next.inj h).symm

/-- A jump on a condition that answers a next state: pc is the even target if the condition holds, else after the jump. -/
theorem jumpIf_next {c : Bool} {off : BitVec 24} {s t : State} (h : jumpIf c off s = .next t) :
    (c = true ∧ (jumpTarget off s).toNat % 2 = 0 ∧ t = { s with pc := jumpTarget off s }) ∨
    (c = false ∧ t = advance 2 s) := by
  cases c
  · exact .inr ⟨rfl, (Host.Outcome.next.inj h).symm⟩
  · exact .inl ⟨rfl, jumpTo_next h⟩

/-- JSR at an even SP with an even target: both halves of the return address stored, then the jump. -/
theorem execJsr_next {off : BitVec 24} {s t : State} (h : execJsr off s = .next t) :
    s.sp.toNat % 2 = 0 ∧ (jumpTarget off s).toNat % 2 = 0 ∧
    t = { memWrite (s.sp + 2) (lowHalf (pcNext 2 s)) (memWrite s.sp (highHalf (pcNext 2 s)) s) with
      pc := jumpTarget off s } := by
  simp only [execJsr] at h
  obtain ⟨he, h⟩ := withEvenAddress_next h
  obtain ⟨ht, h⟩ := jumpTo_next h
  refine ⟨he, ht, h.trans ?_⟩
  have hs : jsrSpAfter s = (memWrite (s.sp + 2) (lowHalf (pcNext 2 s)) (memWrite s.sp (highHalf (pcNext 2 s)) s)).sp := by
    simp [jsrSpAfter, Params.jsrSpUpdate]
  rw [hs]
  rfl

end Sys2Proof.Machine
end

