-- ==== Sys2Proof/Laws/PerInstr.lean ====
section
/-! SUPPORT. Facts proved once per instruction of Instr: an encoded instruction has the number of words its first word asks
for (30_encoding.md R82). -/

namespace Sys2Proof.Laws.EncodedLength

/-- The words the encoder writes are as many as the length its first word gives (30_encoding.md R82). -/
def Statement (i : Instr) : Prop :=
  ∀ w1 ws, encode i = some (w1 :: ws) → lengthWords w1 = ws.length + 1

theorem addi (a : RegNo) (c : Byte) : Statement (.addi a c) := by
  intro w1 ws h
  obtain ⟨e, rfl⟩ := List.cons.inj (Option.some.inj h)
  have h_a := a.isLt
  have h_c := c.isLt
  have hn : w1.toNat = 0x8800 + a.toNat * 2 ^ 8 + c.toNat := e ▸ word_toNat _ (by omega)
  exact lengthWords_alu (by omega)

theorem subi (a : RegNo) (c : Byte) : Statement (.subi a c) := by
  intro w1 ws h
  obtain ⟨e, rfl⟩ := List.cons.inj (Option.some.inj h)
  have h_a := a.isLt
  have h_c := c.isLt
  have hn : w1.toNat = 0x9800 + a.toNat * 2 ^ 8 + c.toNat := e ▸ word_toNat _ (by omega)
  exact lengthWords_alu (by omega)

theorem xori (a : RegNo) (c : Byte) : Statement (.xori a c) := by
  intro w1 ws h
  obtain ⟨e, rfl⟩ := List.cons.inj (Option.some.inj h)
  have h_a := a.isLt
  have h_c := c.isLt
  have hn : w1.toNat = 0xA800 + a.toNat * 2 ^ 8 + c.toNat := e ▸ word_toNat _ (by omega)
  exact lengthWords_alu (by omega)

theorem xnori (a : RegNo) (c : Byte) : Statement (.xnori a c) := by
  intro w1 ws h
  obtain ⟨e, rfl⟩ := List.cons.inj (Option.some.inj h)
  have h_a := a.isLt
  have h_c := c.isLt
  have hn : w1.toNat = 0xB800 + a.toNat * 2 ^ 8 + c.toNat := e ▸ word_toNat _ (by omega)
  exact lengthWords_alu (by omega)

theorem ori (a : RegNo) (c : Byte) : Statement (.ori a c) := by
  intro w1 ws h
  obtain ⟨e, rfl⟩ := List.cons.inj (Option.some.inj h)
  have h_a := a.isLt
  have h_c := c.isLt
  have hn : w1.toNat = 0xC800 + a.toNat * 2 ^ 8 + c.toNat := e ▸ word_toNat _ (by omega)
  exact lengthWords_alu (by omega)

theorem orni (a : RegNo) (c : Byte) : Statement (.orni a c) := by
  intro w1 ws h
  obtain ⟨e, rfl⟩ := List.cons.inj (Option.some.inj h)
  have h_a := a.isLt
  have h_c := c.isLt
  have hn : w1.toNat = 0xD800 + a.toNat * 2 ^ 8 + c.toNat := e ▸ word_toNat _ (by omega)
  exact lengthWords_alu (by omega)

theorem andi (a : RegNo) (c : Byte) : Statement (.andi a c) := by
  intro w1 ws h
  obtain ⟨e, rfl⟩ := List.cons.inj (Option.some.inj h)
  have h_a := a.isLt
  have h_c := c.isLt
  have hn : w1.toNat = 0xE800 + a.toNat * 2 ^ 8 + c.toNat := e ▸ word_toNat _ (by omega)
  exact lengthWords_alu (by omega)

theorem andni (a : RegNo) (c : Byte) : Statement (.andni a c) := by
  intro w1 ws h
  obtain ⟨e, rfl⟩ := List.cons.inj (Option.some.inj h)
  have h_a := a.isLt
  have h_c := c.isLt
  have hn : w1.toNat = 0xF800 + a.toNat * 2 ^ 8 + c.toNat := e ▸ word_toNat _ (by omega)
  exact lengthWords_alu (by omega)

theorem add (y : RegNo) (a : RegNo) (b : RegNo) : Statement (.add y a b) := by
  intro w1 ws h
  obtain ⟨e, rfl⟩ := List.cons.inj (Option.some.inj h)
  have h_y := y.isLt
  have h_a := a.isLt
  have h_b := b.isLt
  have hn : w1.toNat = 0x8000 + y.toNat * 2 ^ 8 + a.toNat * 2 ^ 5 + b.toNat := e ▸ word_toNat _ (by omega)
  exact lengthWords_alu (by omega)

theorem sub (y : RegNo) (a : RegNo) (b : RegNo) : Statement (.sub y a b) := by
  intro w1 ws h
  obtain ⟨e, rfl⟩ := List.cons.inj (Option.some.inj h)
  have h_y := y.isLt
  have h_a := a.isLt
  have h_b := b.isLt
  have hn : w1.toNat = 0x9000 + y.toNat * 2 ^ 8 + a.toNat * 2 ^ 5 + b.toNat := e ▸ word_toNat _ (by omega)
  exact lengthWords_alu (by omega)

theorem addc (y : RegNo) (a : RegNo) (b : RegNo) : Statement (.addc y a b) := by
  intro w1 ws h
  obtain ⟨e, rfl⟩ := List.cons.inj (Option.some.inj h)
  have h_y := y.isLt
  have h_a := a.isLt
  have h_b := b.isLt
  have hn : w1.toNat = 0x8008 + y.toNat * 2 ^ 8 + a.toNat * 2 ^ 5 + b.toNat := e ▸ word_toNat _ (by omega)
  exact lengthWords_alu (by omega)

theorem subc (y : RegNo) (a : RegNo) (b : RegNo) : Statement (.subc y a b) := by
  intro w1 ws h
  obtain ⟨e, rfl⟩ := List.cons.inj (Option.some.inj h)
  have h_y := y.isLt
  have h_a := a.isLt
  have h_b := b.isLt
  have hn : w1.toNat = 0x9008 + y.toNat * 2 ^ 8 + a.toNat * 2 ^ 5 + b.toNat := e ▸ word_toNat _ (by omega)
  exact lengthWords_alu (by omega)

theorem xor (y : RegNo) (a : RegNo) (b : RegNo) : Statement (.xor y a b) := by
  intro w1 ws h
  obtain ⟨e, rfl⟩ := List.cons.inj (Option.some.inj h)
  have h_y := y.isLt
  have h_a := a.isLt
  have h_b := b.isLt
  have hn : w1.toNat = 0xA000 + y.toNat * 2 ^ 8 + a.toNat * 2 ^ 5 + b.toNat := e ▸ word_toNat _ (by omega)
  exact lengthWords_alu (by omega)

theorem xnor (y : RegNo) (a : RegNo) (b : RegNo) : Statement (.xnor y a b) := by
  intro w1 ws h
  obtain ⟨e, rfl⟩ := List.cons.inj (Option.some.inj h)
  have h_y := y.isLt
  have h_a := a.isLt
  have h_b := b.isLt
  have hn : w1.toNat = 0xB000 + y.toNat * 2 ^ 8 + a.toNat * 2 ^ 5 + b.toNat := e ▸ word_toNat _ (by omega)
  exact lengthWords_alu (by omega)

theorem or (y : RegNo) (a : RegNo) (b : RegNo) : Statement (.or y a b) := by
  intro w1 ws h
  obtain ⟨e, rfl⟩ := List.cons.inj (Option.some.inj h)
  have h_y := y.isLt
  have h_a := a.isLt
  have h_b := b.isLt
  have hn : w1.toNat = 0xC000 + y.toNat * 2 ^ 8 + a.toNat * 2 ^ 5 + b.toNat := e ▸ word_toNat _ (by omega)
  exact lengthWords_alu (by omega)

theorem orn (y : RegNo) (a : RegNo) (b : RegNo) : Statement (.orn y a b) := by
  intro w1 ws h
  obtain ⟨e, rfl⟩ := List.cons.inj (Option.some.inj h)
  have h_y := y.isLt
  have h_a := a.isLt
  have h_b := b.isLt
  have hn : w1.toNat = 0xD000 + y.toNat * 2 ^ 8 + a.toNat * 2 ^ 5 + b.toNat := e ▸ word_toNat _ (by omega)
  exact lengthWords_alu (by omega)

theorem and (y : RegNo) (a : RegNo) (b : RegNo) : Statement (.and y a b) := by
  intro w1 ws h
  obtain ⟨e, rfl⟩ := List.cons.inj (Option.some.inj h)
  have h_y := y.isLt
  have h_a := a.isLt
  have h_b := b.isLt
  have hn : w1.toNat = 0xE000 + y.toNat * 2 ^ 8 + a.toNat * 2 ^ 5 + b.toNat := e ▸ word_toNat _ (by omega)
  exact lengthWords_alu (by omega)

theorem andn (y : RegNo) (a : RegNo) (b : RegNo) : Statement (.andn y a b) := by
  intro w1 ws h
  obtain ⟨e, rfl⟩ := List.cons.inj (Option.some.inj h)
  have h_y := y.isLt
  have h_a := a.isLt
  have h_b := b.isLt
  have hn : w1.toNat = 0xF000 + y.toNat * 2 ^ 8 + a.toNat * 2 ^ 5 + b.toNat := e ▸ word_toNat _ (by omega)
  exact lengthWords_alu (by omega)

theorem teq (a : RegNo) (b : RegNo) : Statement (.teq a b) := by
  intro w1 ws h
  obtain ⟨e, rfl⟩ := List.cons.inj (Option.some.inj h)
  have h_a := a.isLt
  have h_b := b.isLt
  have hn : w1.toNat = 0xA008 + a.toNat * 2 ^ 5 + b.toNat := e ▸ word_toNat _ (by omega)
  exact lengthWords_alu (by omega)

theorem tcm (a : RegNo) (b : RegNo) : Statement (.tcm a b) := by
  intro w1 ws h
  obtain ⟨e, rfl⟩ := List.cons.inj (Option.some.inj h)
  have h_a := a.isLt
  have h_b := b.isLt
  have hn : w1.toNat = 0xB008 + a.toNat * 2 ^ 5 + b.toNat := e ▸ word_toNat _ (by omega)
  exact lengthWords_alu (by omega)

theorem cmn (a : RegNo) (b : RegNo) : Statement (.cmn a b) := by
  intro w1 ws h
  obtain ⟨e, rfl⟩ := List.cons.inj (Option.some.inj h)
  have h_a := a.isLt
  have h_b := b.isLt
  have hn : w1.toNat = 0xC008 + a.toNat * 2 ^ 5 + b.toNat := e ▸ word_toNat _ (by omega)
  exact lengthWords_alu (by omega)

theorem cmp (a : RegNo) (b : RegNo) : Statement (.cmp a b) := by
  intro w1 ws h
  obtain ⟨e, rfl⟩ := List.cons.inj (Option.some.inj h)
  have h_a := a.isLt
  have h_b := b.isLt
  have hn : w1.toNat = 0xD008 + a.toNat * 2 ^ 5 + b.toNat := e ▸ word_toNat _ (by omega)
  exact lengthWords_alu (by omega)

theorem tst (a : RegNo) (b : RegNo) : Statement (.tst a b) :=
  fun _ _ h => nomatch h

theorem rsv1 (op : BitVec 3) : Statement (.rsv1 op) := by
  intro w1 ws h
  obtain ⟨e, rfl⟩ := List.cons.inj (Option.some.inj h)
  have h_op := op.isLt
  have hn : w1.toNat = 0x8010 + op.toNat * 2 ^ 12 := e ▸ word_toNat _ (by omega)
  exact lengthWords_alu (by omega)

theorem rsv2op6 : Statement .rsv2op6 := by
  intro w1 ws h
  obtain ⟨e, rfl⟩ := List.cons.inj (Option.some.inj h)
  have hn : w1.toNat = 0xE008 := e ▸ word_toNat _ (by omega)
  exact lengthWords_alu (by omega)

theorem rsv2op7 : Statement .rsv2op7 := by
  intro w1 ws h
  obtain ⟨e, rfl⟩ := List.cons.inj (Option.some.inj h)
  have hn : w1.toNat = 0xF008 := e ▸ word_toNat _ (by omega)
  exact lengthWords_alu (by omega)

theorem movRR (d : RegNo) (s : RegNo) : Statement (.movRR d s) := by
  intro w1 ws h
  obtain ⟨e, rfl⟩ := List.cons.inj (Option.some.inj h)
  have h_d := d.isLt
  have h_s := s.isLt
  have hn : w1.toNat = 0x3000 + d.toNat * 2 ^ 8 + s.toNat * 2 ^ 5 := e ▸ word_toNat _ (by omega)
  have b0 : bits w1 15 12 = 3 := by rw [bits, hn]; omega
  simp [lengthWords, b0]

theorem movMM (d : RegNo) (s : RegNo) : Statement (.movMM d s) := by
  intro w1 ws h
  obtain ⟨e, rfl⟩ := List.cons.inj (Option.some.inj h)
  have h_d := d.isLt
  have h_s := s.isLt
  have hn : w1.toNat = 0x3810 + d.toNat * 2 ^ 8 + s.toNat * 2 ^ 5 := e ▸ word_toNat _ (by omega)
  have b0 : bits w1 15 12 = 3 := by rw [bits, hn]; omega
  simp [lengthWords, b0]

theorem movMR (d : RegNo) (s : RegNo) : Statement (.movMR d s) := by
  intro w1 ws h
  obtain ⟨e, rfl⟩ := List.cons.inj (Option.some.inj h)
  have h_d := d.isLt
  have h_s := s.isLt
  have hn : w1.toNat = 0x3800 + d.toNat * 2 ^ 8 + s.toNat * 2 ^ 5 := e ▸ word_toNat _ (by omega)
  have b0 : bits w1 15 12 = 3 := by rw [bits, hn]; omega
  simp [lengthWords, b0]

theorem movRM (d : RegNo) (s : RegNo) : Statement (.movRM d s) := by
  intro w1 ws h
  obtain ⟨e, rfl⟩ := List.cons.inj (Option.some.inj h)
  have h_d := d.isLt
  have h_s := s.isLt
  have hn : w1.toNat = 0x3010 + d.toNat * 2 ^ 8 + s.toNat * 2 ^ 5 := e ▸ word_toNat _ (by omega)
  have b0 : bits w1 15 12 = 3 := by rw [bits, hn]; omega
  simp [lengthWords, b0]

theorem movsRSr (d : RegNo) : Statement (.movsRSr d) := by
  intro w1 ws h
  obtain ⟨e, rfl⟩ := List.cons.inj (Option.some.inj h)
  have h_d := d.isLt
  have hn : w1.toNat = 0x3009 + d.toNat * 2 ^ 8 := e ▸ word_toNat _ (by omega)
  have b0 : bits w1 15 12 = 3 := by rw [bits, hn]; omega
  simp [lengthWords, b0]

theorem movsSrR (s : RegNo) : Statement (.movsSrR s) := by
  intro w1 ws h
  obtain ⟨e, rfl⟩ := List.cons.inj (Option.some.inj h)
  have h_s := s.isLt
  have hn : w1.toNat = 0x300D + s.toNat * 2 ^ 5 := e ▸ word_toNat _ (by omega)
  have b0 : bits w1 15 12 = 3 := by rw [bits, hn]; omega
  simp [lengthWords, b0]

theorem movsRMdb (d : RegNo) : Statement (.movsRMdb d) := by
  intro w1 ws h
  obtain ⟨e, rfl⟩ := List.cons.inj (Option.some.inj h)
  have h_d := d.isLt
  have hn : w1.toNat = 0x300A + d.toNat * 2 ^ 8 := e ▸ word_toNat _ (by omega)
  have b0 : bits w1 15 12 = 3 := by rw [bits, hn]; omega
  simp [lengthWords, b0]

theorem movsMdbR (s : RegNo) : Statement (.movsMdbR s) := by
  intro w1 ws h
  obtain ⟨e, rfl⟩ := List.cons.inj (Option.some.inj h)
  have h_s := s.isLt
  have hn : w1.toNat = 0x300E + s.toNat * 2 ^ 5 := e ▸ word_toNat _ (by omega)
  have b0 : bits w1 15 12 = 3 := by rw [bits, hn]; omega
  simp [lengthWords, b0]

theorem movsRIvb (d : RegNo) : Statement (.movsRIvb d) := by
  intro w1 ws h
  obtain ⟨e, rfl⟩ := List.cons.inj (Option.some.inj h)
  have h_d := d.isLt
  have hn : w1.toNat = 0x300B + d.toNat * 2 ^ 8 := e ▸ word_toNat _ (by omega)
  have b0 : bits w1 15 12 = 3 := by rw [bits, hn]; omega
  simp [lengthWords, b0]

theorem movsIvbR (s : RegNo) : Statement (.movsIvbR s) := by
  intro w1 ws h
  obtain ⟨e, rfl⟩ := List.cons.inj (Option.some.inj h)
  have h_s := s.isLt
  have hn : w1.toNat = 0x300F + s.toNat * 2 ^ 5 := e ▸ word_toNat _ (by omega)
  have b0 : bits w1 15 12 = 3 := by rw [bits, hn]; omega
  simp [lengthWords, b0]

theorem rsv3 : Statement .rsv3 := by
  intro w1 ws h
  obtain ⟨e, rfl⟩ := List.cons.inj (Option.some.inj h)
  have hn : w1.toNat = 0x3008 := e ▸ word_toNat _ (by omega)
  have b0 : bits w1 15 12 = 3 := by rw [bits, hn]; omega
  simp [lengthWords, b0]

theorem rsv6ReadSr : Statement .rsv6ReadSr := by
  intro w1 ws h
  obtain ⟨e, rfl⟩ := List.cons.inj (Option.some.inj h)
  have hn : w1.toNat = 0x3809 := e ▸ word_toNat _ (by omega)
  have b0 : bits w1 15 12 = 3 := by rw [bits, hn]; omega
  simp [lengthWords, b0]

theorem rsv6ReadMdb : Statement .rsv6ReadMdb := by
  intro w1 ws h
  obtain ⟨e, rfl⟩ := List.cons.inj (Option.some.inj h)
  have hn : w1.toNat = 0x380A := e ▸ word_toNat _ (by omega)
  have b0 : bits w1 15 12 = 3 := by rw [bits, hn]; omega
  simp [lengthWords, b0]

theorem rsv6ReadIvb : Statement .rsv6ReadIvb := by
  intro w1 ws h
  obtain ⟨e, rfl⟩ := List.cons.inj (Option.some.inj h)
  have hn : w1.toNat = 0x380B := e ▸ word_toNat _ (by omega)
  have b0 : bits w1 15 12 = 3 := by rw [bits, hn]; omega
  simp [lengthWords, b0]

theorem rsv6WriteSr : Statement .rsv6WriteSr := by
  intro w1 ws h
  obtain ⟨e, rfl⟩ := List.cons.inj (Option.some.inj h)
  have hn : w1.toNat = 0x301D := e ▸ word_toNat _ (by omega)
  have b0 : bits w1 15 12 = 3 := by rw [bits, hn]; omega
  simp [lengthWords, b0]

theorem rsv6WriteMdb : Statement .rsv6WriteMdb := by
  intro w1 ws h
  obtain ⟨e, rfl⟩ := List.cons.inj (Option.some.inj h)
  have hn : w1.toNat = 0x301E := e ▸ word_toNat _ (by omega)
  have b0 : bits w1 15 12 = 3 := by rw [bits, hn]; omega
  simp [lengthWords, b0]

theorem rsv6WriteIvb : Statement .rsv6WriteIvb := by
  intro w1 ws h
  obtain ⟨e, rfl⟩ := List.cons.inj (Option.some.inj h)
  have hn : w1.toNat = 0x301F := e ▸ word_toNat _ (by omega)
  have b0 : bits w1 15 12 = 3 := by rw [bits, hn]; omega
  simp [lengthWords, b0]

theorem ldir (d : RegNo) (v : Word) : Statement (.ldir d v) := by
  intro w1 ws h
  obtain ⟨e, rfl⟩ := List.cons.inj (Option.some.inj h)
  have h_d := d.isLt
  have h_v := v.isLt
  have hn : w1.toNat = 0x2000 + d.toNat * 2 ^ 8 := e ▸ word_toNat _ (by omega)
  have b0 : bits w1 15 12 = 2 := by rw [bits, hn]; omega
  simp [lengthWords, b0]

theorem ldim (p : Pair) (v : BitVec 25) : Statement (.ldim p v) := by
  intro w1 ws h
  obtain ⟨e, rfl⟩ := List.cons.inj (Option.some.inj h)
  have h_p := p.index_lt
  have h_v := v.isLt
  have hn : w1.toNat = 0x2800 + p.index * 2 ^ 9 + v.toNat / 2 ^ 16 := e ▸ word_toNat _ (by omega)
  have b0 : bits w1 15 12 = 2 := by rw [bits, hn]; omega
  simp [lengthWords, b0]

theorem lddR (d : RegNo) (a : BitVec 24) : Statement (.lddR d a) := by
  intro w1 ws h
  obtain ⟨e, rfl⟩ := List.cons.inj (Option.some.inj h)
  have h_d := d.isLt
  have h_a := a.isLt
  have hn : w1.toNat = 0x4000 + d.toNat * 2 ^ 8 + a.toNat / 2 ^ 16 := e ▸ word_toNat _ (by omega)
  have b0 : bits w1 15 12 = 4 := by rw [bits, hn]; omega
  simp [lengthWords, b0]

theorem stdR (s : RegNo) (a : BitVec 24) : Statement (.stdR s a) := by
  intro w1 ws h
  obtain ⟨e, rfl⟩ := List.cons.inj (Option.some.inj h)
  have h_s := s.isLt
  have h_a := a.isLt
  have hn : w1.toNat = 0x5000 + s.toNat * 2 ^ 8 + a.toNat / 2 ^ 16 := e ▸ word_toNat _ (by omega)
  have b0 : bits w1 15 12 = 5 := by rw [bits, hn]; omega
  simp [lengthWords, b0]

theorem lddM (d : RegNo) (a : BitVec 24) : Statement (.lddM d a) := by
  intro w1 ws h
  obtain ⟨e, rfl⟩ := List.cons.inj (Option.some.inj h)
  have h_d := d.isLt
  have h_a := a.isLt
  have hn : w1.toNat = 0x4800 + d.toNat * 2 ^ 8 + a.toNat / 2 ^ 16 := e ▸ word_toNat _ (by omega)
  have b0 : bits w1 15 12 = 4 := by rw [bits, hn]; omega
  simp [lengthWords, b0]

theorem stdM (s : RegNo) (a : BitVec 24) : Statement (.stdM s a) := by
  intro w1 ws h
  obtain ⟨e, rfl⟩ := List.cons.inj (Option.some.inj h)
  have h_s := s.isLt
  have h_a := a.isLt
  have hn : w1.toNat = 0x5800 + s.toNat * 2 ^ 8 + a.toNat / 2 ^ 16 := e ▸ word_toNat _ (by omega)
  have b0 : bits w1 15 12 = 5 := by rw [bits, hn]; omega
  simp [lengthWords, b0]

theorem ld (r : Reg) (p : Pair) : Statement (.ld r p) := by
  intro w1 ws h
  obtain ⟨e, rfl⟩ := List.cons.inj (Option.some.inj h)
  have h_r := r.nibble_lt
  have h_p := p.index_lt
  have hn : w1.toNat = 0x6000 + r.nibble * 2 ^ 8 + p.index := e ▸ word_toNat _ (by omega)
  have b0 : bits w1 15 12 = 6 := by rw [bits, hn]; omega
  have b1 : bits w1 2 2 = 0 := by rw [bits, hn]; omega
  simp [lengthWords, b0, b1]

theorem st (r : Reg) (p : Pair) : Statement (.st r p) := by
  intro w1 ws h
  obtain ⟨e, rfl⟩ := List.cons.inj (Option.some.inj h)
  have h_r := r.nibble_lt
  have h_p := p.index_lt
  have hn : w1.toNat = 0x7000 + r.nibble * 2 ^ 8 + p.index := e ▸ word_toNat _ (by omega)
  have b0 : bits w1 15 12 = 7 := by rw [bits, hn]; omega
  have b1 : bits w1 2 2 = 0 := by rw [bits, hn]; omega
  simp [lengthWords, b0, b1]

theorem ldStar (r : Reg) (p : Pair) : Statement (.ldStar r p) := by
  intro w1 ws h
  obtain ⟨e, rfl⟩ := List.cons.inj (Option.some.inj h)
  have h_r := r.nibble_lt
  have h_p := p.index_lt
  have hn : w1.toNat = 0x6004 + r.nibble * 2 ^ 8 + p.index := e ▸ word_toNat _ (by omega)
  have b0 : bits w1 15 12 = 6 := by rw [bits, hn]; omega
  have b1 : bits w1 2 2 = 1 := by rw [bits, hn]; omega
  simp [lengthWords, b0, b1]

theorem stStar (r : Reg) (p : Pair) : Statement (.stStar r p) := by
  intro w1 ws h
  obtain ⟨e, rfl⟩ := List.cons.inj (Option.some.inj h)
  have h_r := r.nibble_lt
  have h_p := p.index_lt
  have hn : w1.toNat = 0x7004 + r.nibble * 2 ^ 8 + p.index := e ▸ word_toNat _ (by omega)
  have b0 : bits w1 15 12 = 7 := by rw [bits, hn]; omega
  have b1 : bits w1 2 2 = 1 := by rw [bits, hn]; omega
  simp [lengthWords, b0, b1]

theorem ldr (r : Reg) (p : Pair) (o : RegNo) : Statement (.ldr r p o) := by
  intro w1 ws h
  obtain ⟨e, rfl⟩ := List.cons.inj (Option.some.inj h)
  have h_r := r.nibble_lt
  have h_p := p.index_lt
  have h_o := o.isLt
  have hn : w1.toNat = 0x6008 + r.nibble * 2 ^ 8 + o.toNat * 2 ^ 5 + p.index := e ▸ word_toNat _ (by omega)
  have b0 : bits w1 15 12 = 6 := by rw [bits, hn]; omega
  have b1 : bits w1 2 2 = 0 := by rw [bits, hn]; omega
  simp [lengthWords, b0, b1]

theorem str (r : Reg) (p : Pair) (o : RegNo) : Statement (.str r p o) := by
  intro w1 ws h
  obtain ⟨e, rfl⟩ := List.cons.inj (Option.some.inj h)
  have h_r := r.nibble_lt
  have h_p := p.index_lt
  have h_o := o.isLt
  have hn : w1.toNat = 0x7008 + r.nibble * 2 ^ 8 + o.toNat * 2 ^ 5 + p.index := e ▸ word_toNat _ (by omega)
  have b0 : bits w1 15 12 = 7 := by rw [bits, hn]; omega
  have b1 : bits w1 2 2 = 0 := by rw [bits, hn]; omega
  simp [lengthWords, b0, b1]

theorem ldo (r : Reg) (p : Pair) (off : Word) : Statement (.ldo r p off) := by
  intro w1 ws h
  obtain ⟨e, rfl⟩ := List.cons.inj (Option.some.inj h)
  have h_r := r.nibble_lt
  have h_p := p.index_lt
  have h_off := off.isLt
  have hn : w1.toNat = 0x600C + r.nibble * 2 ^ 8 + p.index := e ▸ word_toNat _ (by omega)
  have b0 : bits w1 15 12 = 6 := by rw [bits, hn]; omega
  have b1 : bits w1 2 2 = 1 := by rw [bits, hn]; omega
  simp [lengthWords, b0, b1]

theorem sto (r : Reg) (p : Pair) (off : Word) : Statement (.sto r p off) := by
  intro w1 ws h
  obtain ⟨e, rfl⟩ := List.cons.inj (Option.some.inj h)
  have h_r := r.nibble_lt
  have h_p := p.index_lt
  have h_off := off.isLt
  have hn : w1.toNat = 0x700C + r.nibble * 2 ^ 8 + p.index := e ▸ word_toNat _ (by omega)
  have b0 : bits w1 15 12 = 7 := by rw [bits, hn]; omega
  have b1 : bits w1 2 2 = 1 := by rw [bits, hn]; omega
  simp [lengthWords, b0, b1]

theorem ldpostr (r : Reg) (p : Pair) (o : RegNo) : Statement (.ldpostr r p o) := by
  intro w1 ws h
  obtain ⟨e, rfl⟩ := List.cons.inj (Option.some.inj h)
  have h_r := r.nibble_lt
  have h_p := p.index_lt
  have h_o := o.isLt
  have hn : w1.toNat = 0x6010 + r.nibble * 2 ^ 8 + o.toNat * 2 ^ 5 + p.index := e ▸ word_toNat _ (by omega)
  have b0 : bits w1 15 12 = 6 := by rw [bits, hn]; omega
  have b1 : bits w1 2 2 = 0 := by rw [bits, hn]; omega
  simp [lengthWords, b0, b1]

theorem stpostr (r : Reg) (p : Pair) (o : RegNo) : Statement (.stpostr r p o) := by
  intro w1 ws h
  obtain ⟨e, rfl⟩ := List.cons.inj (Option.some.inj h)
  have h_r := r.nibble_lt
  have h_p := p.index_lt
  have h_o := o.isLt
  have hn : w1.toNat = 0x7010 + r.nibble * 2 ^ 8 + o.toNat * 2 ^ 5 + p.index := e ▸ word_toNat _ (by omega)
  have b0 : bits w1 15 12 = 7 := by rw [bits, hn]; omega
  have b1 : bits w1 2 2 = 0 := by rw [bits, hn]; omega
  simp [lengthWords, b0, b1]

theorem ldposto (r : Reg) (p : Pair) (off : Word) : Statement (.ldposto r p off) := by
  intro w1 ws h
  obtain ⟨e, rfl⟩ := List.cons.inj (Option.some.inj h)
  have h_r := r.nibble_lt
  have h_p := p.index_lt
  have h_off := off.isLt
  have hn : w1.toNat = 0x6014 + r.nibble * 2 ^ 8 + p.index := e ▸ word_toNat _ (by omega)
  have b0 : bits w1 15 12 = 6 := by rw [bits, hn]; omega
  have b1 : bits w1 2 2 = 1 := by rw [bits, hn]; omega
  simp [lengthWords, b0, b1]

theorem stposto (r : Reg) (p : Pair) (off : Word) : Statement (.stposto r p off) := by
  intro w1 ws h
  obtain ⟨e, rfl⟩ := List.cons.inj (Option.some.inj h)
  have h_r := r.nibble_lt
  have h_p := p.index_lt
  have h_off := off.isLt
  have hn : w1.toNat = 0x7014 + r.nibble * 2 ^ 8 + p.index := e ▸ word_toNat _ (by omega)
  have b0 : bits w1 15 12 = 7 := by rw [bits, hn]; omega
  have b1 : bits w1 2 2 = 1 := by rw [bits, hn]; omega
  simp [lengthWords, b0, b1]

theorem ldprer (r : Reg) (p : Pair) (o : RegNo) : Statement (.ldprer r p o) := by
  intro w1 ws h
  obtain ⟨e, rfl⟩ := List.cons.inj (Option.some.inj h)
  have h_r := r.nibble_lt
  have h_p := p.index_lt
  have h_o := o.isLt
  have hn : w1.toNat = 0x6018 + r.nibble * 2 ^ 8 + o.toNat * 2 ^ 5 + p.index := e ▸ word_toNat _ (by omega)
  have b0 : bits w1 15 12 = 6 := by rw [bits, hn]; omega
  have b1 : bits w1 2 2 = 0 := by rw [bits, hn]; omega
  simp [lengthWords, b0, b1]

theorem stprer (r : Reg) (p : Pair) (o : RegNo) : Statement (.stprer r p o) := by
  intro w1 ws h
  obtain ⟨e, rfl⟩ := List.cons.inj (Option.some.inj h)
  have h_r := r.nibble_lt
  have h_p := p.index_lt
  have h_o := o.isLt
  have hn : w1.toNat = 0x7018 + r.nibble * 2 ^ 8 + o.toNat * 2 ^ 5 + p.index := e ▸ word_toNat _ (by omega)
  have b0 : bits w1 15 12 = 7 := by rw [bits, hn]; omega
  have b1 : bits w1 2 2 = 0 := by rw [bits, hn]; omega
  simp [lengthWords, b0, b1]

theorem ldpreo (r : Reg) (p : Pair) (off : Word) : Statement (.ldpreo r p off) := by
  intro w1 ws h
  obtain ⟨e, rfl⟩ := List.cons.inj (Option.some.inj h)
  have h_r := r.nibble_lt
  have h_p := p.index_lt
  have h_off := off.isLt
  have hn : w1.toNat = 0x601C + r.nibble * 2 ^ 8 + p.index := e ▸ word_toNat _ (by omega)
  have b0 : bits w1 15 12 = 6 := by rw [bits, hn]; omega
  have b1 : bits w1 2 2 = 1 := by rw [bits, hn]; omega
  simp [lengthWords, b0, b1]

theorem stpreo (r : Reg) (p : Pair) (off : Word) : Statement (.stpreo r p off) := by
  intro w1 ws h
  obtain ⟨e, rfl⟩ := List.cons.inj (Option.some.inj h)
  have h_r := r.nibble_lt
  have h_p := p.index_lt
  have h_off := off.isLt
  have hn : w1.toNat = 0x701C + r.nibble * 2 ^ 8 + p.index := e ▸ word_toNat _ (by omega)
  have b0 : bits w1 15 12 = 7 := by rw [bits, hn]; omega
  have b1 : bits w1 2 2 = 1 := by rw [bits, hn]; omega
  simp [lengthWords, b0, b1]

theorem j (off : BitVec 24) : Statement (.j off) := by
  intro w1 ws h
  obtain ⟨e, rfl⟩ := List.cons.inj (Option.some.inj h)
  have h_off := off.isLt
  have hn : w1.toNat = 0x1000 + off.toNat / 2 ^ 16 := e ▸ word_toNat _ (by omega)
  have b0 : bits w1 15 12 = 1 := by rw [bits, hn]; omega
  simp [lengthWords, b0]

theorem jz (off : BitVec 24) : Statement (.jz off) := by
  intro w1 ws h
  obtain ⟨e, rfl⟩ := List.cons.inj (Option.some.inj h)
  have h_off := off.isLt
  have hn : w1.toNat = 0x1100 + off.toNat / 2 ^ 16 := e ▸ word_toNat _ (by omega)
  have b0 : bits w1 15 12 = 1 := by rw [bits, hn]; omega
  simp [lengthWords, b0]

theorem jn (off : BitVec 24) : Statement (.jn off) := by
  intro w1 ws h
  obtain ⟨e, rfl⟩ := List.cons.inj (Option.some.inj h)
  have h_off := off.isLt
  have hn : w1.toNat = 0x1200 + off.toNat / 2 ^ 16 := e ▸ word_toNat _ (by omega)
  have b0 : bits w1 15 12 = 1 := by rw [bits, hn]; omega
  simp [lengthWords, b0]

theorem jo (off : BitVec 24) : Statement (.jo off) := by
  intro w1 ws h
  obtain ⟨e, rfl⟩ := List.cons.inj (Option.some.inj h)
  have h_off := off.isLt
  have hn : w1.toNat = 0x1400 + off.toNat / 2 ^ 16 := e ▸ word_toNat _ (by omega)
  have b0 : bits w1 15 12 = 1 := by rw [bits, hn]; omega
  simp [lengthWords, b0]

theorem jc (off : BitVec 24) : Statement (.jc off) := by
  intro w1 ws h
  obtain ⟨e, rfl⟩ := List.cons.inj (Option.some.inj h)
  have h_off := off.isLt
  have hn : w1.toNat = 0x1800 + off.toNat / 2 ^ 16 := e ▸ word_toNat _ (by omega)
  have b0 : bits w1 15 12 = 1 := by rw [bits, hn]; omega
  simp [lengthWords, b0]

theorem jnz (off : BitVec 24) : Statement (.jnz off) := by
  intro w1 ws h
  obtain ⟨e, rfl⟩ := List.cons.inj (Option.some.inj h)
  have h_off := off.isLt
  have hn : w1.toNat = 0x1E00 + off.toNat / 2 ^ 16 := e ▸ word_toNat _ (by omega)
  have b0 : bits w1 15 12 = 1 := by rw [bits, hn]; omega
  simp [lengthWords, b0]

theorem jnn (off : BitVec 24) : Statement (.jnn off) := by
  intro w1 ws h
  obtain ⟨e, rfl⟩ := List.cons.inj (Option.some.inj h)
  have h_off := off.isLt
  have hn : w1.toNat = 0x1D00 + off.toNat / 2 ^ 16 := e ▸ word_toNat _ (by omega)
  have b0 : bits w1 15 12 = 1 := by rw [bits, hn]; omega
  simp [lengthWords, b0]

theorem jno (off : BitVec 24) : Statement (.jno off) := by
  intro w1 ws h
  obtain ⟨e, rfl⟩ := List.cons.inj (Option.some.inj h)
  have h_off := off.isLt
  have hn : w1.toNat = 0x1B00 + off.toNat / 2 ^ 16 := e ▸ word_toNat _ (by omega)
  have b0 : bits w1 15 12 = 1 := by rw [bits, hn]; omega
  simp [lengthWords, b0]

theorem jnc (off : BitVec 24) : Statement (.jnc off) := by
  intro w1 ws h
  obtain ⟨e, rfl⟩ := List.cons.inj (Option.some.inj h)
  have h_off := off.isLt
  have hn : w1.toNat = 0x1700 + off.toNat / 2 ^ 16 := e ▸ word_toNat _ (by omega)
  have b0 : bits w1 15 12 = 1 := by rw [bits, hn]; omega
  simp [lengthWords, b0]

theorem jsr (off : BitVec 24) : Statement (.jsr off) := by
  intro w1 ws h
  obtain ⟨e, rfl⟩ := List.cons.inj (Option.some.inj h)
  have h_off := off.isLt
  have hn : w1.toNat = 0x1F00 + off.toNat / 2 ^ 16 := e ▸ word_toNat _ (by omega)
  have b0 : bits w1 15 12 = 1 := by rw [bits, hn]; omega
  simp [lengthWords, b0]

theorem rsv5c3 : Statement .rsv5c3 := by
  intro w1 ws h
  obtain ⟨e, rfl⟩ := List.cons.inj (Option.some.inj h)
  have hn : w1.toNat = 0x1300 := e ▸ word_toNat _ (by omega)
  have b0 : bits w1 15 12 = 1 := by rw [bits, hn]; omega
  simp [lengthWords, b0]

theorem rsv5c5 : Statement .rsv5c5 := by
  intro w1 ws h
  obtain ⟨e, rfl⟩ := List.cons.inj (Option.some.inj h)
  have hn : w1.toNat = 0x1500 := e ▸ word_toNat _ (by omega)
  have b0 : bits w1 15 12 = 1 := by rw [bits, hn]; omega
  simp [lengthWords, b0]

theorem rsv5c6 : Statement .rsv5c6 := by
  intro w1 ws h
  obtain ⟨e, rfl⟩ := List.cons.inj (Option.some.inj h)
  have hn : w1.toNat = 0x1600 := e ▸ word_toNat _ (by omega)
  have b0 : bits w1 15 12 = 1 := by rw [bits, hn]; omega
  simp [lengthWords, b0]

theorem rsv5c9 : Statement .rsv5c9 := by
  intro w1 ws h
  obtain ⟨e, rfl⟩ := List.cons.inj (Option.some.inj h)
  have hn : w1.toNat = 0x1900 := e ▸ word_toNat _ (by omega)
  have b0 : bits w1 15 12 = 1 := by rw [bits, hn]; omega
  simp [lengthWords, b0]

theorem rsv5c10 : Statement .rsv5c10 := by
  intro w1 ws h
  obtain ⟨e, rfl⟩ := List.cons.inj (Option.some.inj h)
  have hn : w1.toNat = 0x1A00 := e ▸ word_toNat _ (by omega)
  have b0 : bits w1 15 12 = 1 := by rw [bits, hn]; omega
  simp [lengthWords, b0]

theorem rsv5c12 : Statement .rsv5c12 := by
  intro w1 ws h
  obtain ⟨e, rfl⟩ := List.cons.inj (Option.some.inj h)
  have hn : w1.toNat = 0x1C00 := e ▸ word_toNat _ (by omega)
  have b0 : bits w1 15 12 = 1 := by rw [bits, hn]; omega
  simp [lengthWords, b0]

theorem addp (p : Pair) (r : RegNo) : Statement (.addp p r) := by
  intro w1 ws h
  obtain ⟨e, rfl⟩ := List.cons.inj (Option.some.inj h)
  have h_p := p.index_lt
  have h_r := r.isLt
  have hn : w1.toNat = 0x0800 + p.index * 2 ^ 9 + r.toNat * 2 ^ 5 := e ▸ word_toNat _ (by omega)
  have b0 : bits w1 15 12 = 0 := by rw [bits, hn]; omega
  have b1 : bits w1 11 11 = 1 := by rw [bits, hn]; omega
  have b2 : bits w1 8 8 = 0 := by rw [bits, hn]; omega
  have b3 : bits w1 4 4 = 0 := by rw [bits, hn]; omega
  simp [lengthWords, b0, b1, b2, b3]

theorem addpo (p : Pair) (off : Word) : Statement (.addpo p off) := by
  intro w1 ws h
  obtain ⟨e, rfl⟩ := List.cons.inj (Option.some.inj h)
  have h_p := p.index_lt
  have h_off := off.isLt
  have hn : w1.toNat = 0x0810 + p.index * 2 ^ 9 := e ▸ word_toNat _ (by omega)
  have b0 : bits w1 15 12 = 0 := by rw [bits, hn]; omega
  have b1 : bits w1 11 11 = 1 := by rw [bits, hn]; omega
  have b2 : bits w1 8 8 = 0 := by rw [bits, hn]; omega
  have b3 : bits w1 4 4 = 1 := by rw [bits, hn]; omega
  simp [lengthWords, b0, b1, b2, b3, Params.aaBit4Form]

theorem addpi (p : Pair) (off : BitVec 24) : Statement (.addpi p off) := by
  intro w1 ws h
  obtain ⟨e, rfl⟩ := List.cons.inj (Option.some.inj h)
  have h_p := p.index_lt
  have h_off := off.isLt
  have hn : w1.toNat = 0x0900 + p.index * 2 ^ 9 + off.toNat / 2 ^ 16 := e ▸ word_toNat _ (by omega)
  have b0 : bits w1 15 12 = 0 := by rw [bits, hn]; omega
  have b1 : bits w1 11 11 = 1 := by rw [bits, hn]; omega
  have b2 : bits w1 8 8 = 1 := by rw [bits, hn]; omega
  simp [lengthWords, b0, b1, b2]

theorem nop : Statement .nop := by
  intro w1 ws h
  obtain ⟨e, rfl⟩ := List.cons.inj (Option.some.inj h)
  have hn : w1.toNat = 0x0000 := e ▸ word_toNat _ (by omega)
  have b0 : bits w1 15 12 = 0 := by rw [bits, hn]; omega
  have b1 : bits w1 11 11 = 0 := by rw [bits, hn]; omega
  simp [lengthWords, b0, b1]

theorem hlt : Statement .hlt := by
  intro w1 ws h
  obtain ⟨e, rfl⟩ := List.cons.inj (Option.some.inj h)
  have hn : w1.toNat = 0x0100 := e ▸ word_toNat _ (by omega)
  have b0 : bits w1 15 12 = 0 := by rw [bits, hn]; omega
  have b1 : bits w1 11 11 = 0 := by rw [bits, hn]; omega
  simp [lengthWords, b0, b1]

theorem reset : Statement .reset := by
  intro w1 ws h
  obtain ⟨e, rfl⟩ := List.cons.inj (Option.some.inj h)
  have hn : w1.toNat = 0x0200 := e ▸ word_toNat _ (by omega)
  have b0 : bits w1 15 12 = 0 := by rw [bits, hn]; omega
  have b1 : bits w1 11 11 = 0 := by rw [bits, hn]; omega
  simp [lengthWords, b0, b1]

theorem dma : Statement .dma := by
  intro w1 ws h
  obtain ⟨e, rfl⟩ := List.cons.inj (Option.some.inj h)
  have hn : w1.toNat = 0x0300 := e ▸ word_toNat _ (by omega)
  have b0 : bits w1 15 12 = 0 := by rw [bits, hn]; omega
  have b1 : bits w1 11 11 = 0 := by rw [bits, hn]; omega
  simp [lengthWords, b0, b1]

theorem eint (i : Byte) : Statement (.eint i) := by
  intro w1 ws h
  obtain ⟨e, rfl⟩ := List.cons.inj (Option.some.inj h)
  have h_i := i.isLt
  have hn : w1.toNat = 0x0400 + i.toNat := e ▸ word_toNat _ (by omega)
  have b0 : bits w1 15 12 = 0 := by rw [bits, hn]; omega
  have b1 : bits w1 11 11 = 0 := by rw [bits, hn]; omega
  simp [lengthWords, b0, b1]

theorem setpr (n : RegNo) : Statement (.setpr n) := by
  intro w1 ws h
  obtain ⟨e, rfl⟩ := List.cons.inj (Option.some.inj h)
  have h_n := n.isLt
  have hn : w1.toNat = 0x0500 + n.toNat * 2 ^ 5 := e ▸ word_toNat _ (by omega)
  have b0 : bits w1 15 12 = 0 := by rw [bits, hn]; omega
  have b1 : bits w1 11 11 = 0 := by rw [bits, hn]; omega
  simp [lengthWords, b0, b1]

theorem clrim (m : RegNo) : Statement (.clrim m) := by
  intro w1 ws h
  obtain ⟨e, rfl⟩ := List.cons.inj (Option.some.inj h)
  have h_m := m.isLt
  have hn : w1.toNat = 0x0600 + m.toNat * 2 ^ 5 := e ▸ word_toNat _ (by omega)
  have b0 : bits w1 15 12 = 0 := by rw [bits, hn]; omega
  have b1 : bits w1 11 11 = 0 := by rw [bits, hn]; omega
  simp [lengthWords, b0, b1]

theorem setim (m : RegNo) : Statement (.setim m) := by
  intro w1 ws h
  obtain ⟨e, rfl⟩ := List.cons.inj (Option.some.inj h)
  have h_m := m.isLt
  have hn : w1.toNat = 0x0700 + m.toNat * 2 ^ 5 := e ▸ word_toNat _ (by omega)
  have b0 : bits w1 15 12 = 0 := by rw [bits, hn]; omega
  have b1 : bits w1 11 11 = 0 := by rw [bits, hn]; omega
  simp [lengthWords, b0, b1]

end Sys2Proof.Laws.EncodedLength
end

