-- ==== Sys2Proof/Laws/Step.lean ====
section
/-! SUPPORT. One lemma per operation of the step: host events, the fetch, and the step itself. -/

namespace Sys2Proof.Machine

/-! ### Host events -/

/-- The run states of the table are those in which an event acts. -/
theorem actsIn_iff (e : HostEvent) (r : RunState) : e.actsIn r = true ↔ e.MayAct r := by
  cases e <;> simp [HostEvent.actsIn, HostEvent.MayAct]

/-- No event acts in the step exactly when the machine is undisturbed. -/
theorem actingEvent_none_iff (s : State) : actingEvent s = none ↔ s.Undisturbed := by
  unfold actingEvent State.Undisturbed
  rcases s.hostEvents with _ | ⟨_ | e, rest⟩
  · simp
  · simp
  · cases h : e.actsIn s.run <;> simp [h, ← actsIn_iff]

/-- An entry whose event may act now acts. -/
theorem actingEvent_cons {s : State} {e : HostEvent} {rest : List (Option HostEvent)}
    (h : s.hostEvents = some e :: rest) (ha : e.MayAct s.run) : actingEvent s = some e := by
  simp [actingEvent, h, (actsIn_iff e s.run).mpr ha]

/-- The event that acts is the entry of this step, in a run state in which it may act. -/
theorem actingEvent_some {s : State} {e : HostEvent} (h : actingEvent s = some e) :
    ∃ rest, s.hostEvents = some e :: rest ∧ e.MayAct s.run := by
  unfold actingEvent at h
  split at h
  · rename_i e' rest he
    split at h
    · rename_i ha
      obtain rfl := Option.some.inj h
      exact ⟨rest, he, (actsIn_iff _ _).mp ha⟩
    · cases h
  · cases h

theorem passHost_cons {s : State} {o : Option HostEvent} {rest : List (Option HostEvent)}
    (h : s.hostEvents = o :: rest) : passHost s = { s with hostEvents := rest } := by
  simp [passHost, h]

/-! ### The fetch -/

/-- A fetched word was not written by the program, and is read as `ReadsWord` says. -/
theorem fetchWord_next {a : Addr} {s : State} {r : Word × State} (h : fetchWord a s = .next r) :
    a.toNat ∉ s.written ∧ ∃ n, ReadsWord s a r.1 n ∧ r.2 = { s with draws := s.draws + n } := by
  unfold fetchWord at h
  simp only [Params.fetchCoherent] at h
  split at h
  · cases h
  · rename_i hw
    obtain ⟨n, hn, hs⟩ := memRead_reads a s
    obtain rfl := Host.Outcome.next.inj h
    exact ⟨hw, n, hn, hs⟩

/-- A word the program did not write is fetched. -/
theorem fetchWord_eq {a : Addr} {s : State} (h : a.toNat ∉ s.written) : fetchWord a s = .next (memRead a s) := by
  simp [fetchWord, Params.fetchCoherent, h]

/-- A word the program wrote is not fetched. -/
theorem fetchWord_written {a : Addr} {s : State} (h : a.toNat ∈ s.written) :
    fetchWord a s = .refused .selfModifyingCode := by
  simp [fetchWord, Params.fetchCoherent, h]

/-- A read that `ReadsWord` describes is the read memRead makes. -/
theorem memRead_eq {a : Addr} {s : State} {v : Word} {n : Nat} (h : ReadsWord s a v n) :
    memRead a s = (v, { s with draws := s.draws + n }) := by
  obtain ⟨n', hn', hs⟩ := memRead_reads a s
  obtain ⟨h1, h2⟩ := hn'.unique h
  subst h2
  exact Prod.ext h1 hs

theorem fetchAddr_eq (pc : Addr) : fetchAddr pc = pc := rfl

theorem pcIsBad_eq (pc : Addr) : pcIsBad pc = (pc.toNat % 2 == 1) := rfl

/-- An instruction fetched whole: the checks it passed and the words it came from; only free values were drawn. -/
theorem fetchInstr_next {s : State} {r : Instr × State} (h : fetchInstr s = .next r) :
    s.pfx = none ∧ s.pc.toNat % 2 = 0 ∧
    ∃ w1 w2 n, r.1 = decodeWords w1 w2 ∧ r.2 = { s with draws := s.draws + n } ∧
      s.pc.toNat ≤ (pcNext (lengthWords w1) s).toNat := by
  unfold fetchInstr at h
  split at h
  · cases h
  · rename_i hp
    split at h
    · cases h
    · rename_i hb
      have hpfx : s.pfx = none := by simpa using hp
      have heven : s.pc.toNat % 2 = 0 := by
        rw [pcIsBad_eq] at hb
        simpa using hb
      refine ⟨hpfx, heven, ?_⟩
      split at h
      · cases h
      · cases h
      · rename_i w1 s1 hf1
        obtain ⟨-, n1, -, hs1⟩ := fetchWord_next hf1
        simp only at hs1
        split at h
        · unfold decodeFetched at h
          split at h
          · cases h
          · rename_i hw
            obtain rfl := Host.Outcome.next.inj h
            subst hs1
            exact ⟨w1, 0, n1, rfl, rfl, Nat.le_of_not_lt hw⟩
        · split at h
          · cases h
          · cases h
          · rename_i w2 s2 hf2
            obtain ⟨-, n2, -, hs2⟩ := fetchWord_next hf2
            simp only at hs2
            unfold decodeFetched at h
            split at h
            · cases h
            · rename_i hw
              obtain rfl := Host.Outcome.next.inj h
              subst hs1
              subst hs2
              exact ⟨w1, w2, n1 + n2, rfl, by simp [Nat.add_assoc], Nat.le_of_not_lt hw⟩

/-- Fetched words decode unless the advance past them wraps. -/
theorem decodeFetched_eq {w1 w2 : Word} {s : State} (h : s.pc.toNat ≤ (pcNext (lengthWords w1) s).toNat) :
    decodeFetched w1 w2 s = .next (decodeWords w1 w2, s) := by
  simp [decodeFetched, Nat.not_lt.mpr h]

/-- Once its first word is fetched, a fetch is that of the rest of the instruction. -/
theorem fetchInstr_first {s : State} {w1 : Word} {n : Nat} (hp : s.pfx = none) (he : s.pc.toNat % 2 = 0)
    (hw : s.pc.toNat ∉ s.written) (hr : ReadsWord s s.pc w1 n) :
    fetchInstr s =
      if lengthWords w1 = 1 then decodeFetched w1 0 { s with draws := s.draws + n }
      else
        match fetchWord (s.pc + 2) { s with draws := s.draws + n } with
        | .fault f => .fault f
        | .refused why => .refused why
        | .next (w2, s2) => decodeFetched w1 w2 s2 := by
  have hp' : s.pfx.isSome = false := by simp [hp]
  have hb : pcIsBad s.pc = false := by simp [pcIsBad_eq, he]
  simp only [fetchInstr, hp', hb, Bool.false_eq_true, if_false, fetchAddr_eq, fetchWord_eq hw, memRead_eq hr]
  all_goals rfl

/-- The fetch of an instruction of one word. -/
theorem fetchInstr_one {s : State} {w1 : Word} {n : Nat} (hp : s.pfx = none) (he : s.pc.toNat % 2 = 0)
    (hw : s.pc.toNat ∉ s.written) (hr : ReadsWord s s.pc w1 n) (hl : lengthWords w1 = 1)
    (hn : s.pc.toNat ≤ (pcNext 1 s).toNat) :
    fetchInstr s = .next (decodeWords w1 0, { s with draws := s.draws + n }) := by
  rw [fetchInstr_first hp he hw hr, if_pos hl]
  exact decodeFetched_eq (hl ▸ hn)

/-- The fetch of an instruction of two words. -/
theorem fetchInstr_two {s : State} {w1 w2 : Word} {n m : Nat} (hp : s.pfx = none) (he : s.pc.toNat % 2 = 0)
    (hw : s.pc.toNat ∉ s.written) (hr : ReadsWord s s.pc w1 n) (hl : lengthWords w1 = 2)
    (hw2 : (s.pc + 2).toNat ∉ s.written) (hr2 : ReadsWord { s with draws := s.draws + n } (s.pc + 2) w2 m)
    (hn : s.pc.toNat ≤ (pcNext 2 s).toNat) :
    fetchInstr s = .next (decodeWords w1 w2, { s with draws := s.draws + n + m }) := by
  rw [fetchInstr_first hp he hw hr, if_neg (by omega),
    fetchWord_eq (s := { s with draws := s.draws + n }) hw2, memRead_eq hr2]
  exact decodeFetched_eq (hl ▸ hn)

/-- Nothing is fetched under a pending prefix. -/
theorem fetchInstr_prefixed {s : State} (h : s.pfx ≠ none) : fetchInstr s = .refused .prefixedInstruction := by
  have h' : s.pfx.isSome = true := Option.isSome_iff_ne_none.mpr h
  simp [fetchInstr, h']

/-- Nothing is fetched at an odd pc. -/
theorem fetchInstr_odd {s : State} (hp : s.pfx = none) (h : s.pc.toNat % 2 = 1) : fetchInstr s = .refused .oddPc := by
  simp [fetchInstr, hp, pcIsBad_eq, h]

/-- A first word that the program wrote is refused. -/
theorem fetchInstr_written_first {s : State} (hp : s.pfx = none) (he : s.pc.toNat % 2 = 0)
    (hw : s.pc.toNat ∈ s.written) : fetchInstr s = .refused .selfModifyingCode := by
  simp [fetchInstr, hp, pcIsBad_eq, he, fetchAddr_eq, fetchWord_written hw]

/-- A second word that the program wrote is refused. -/
theorem fetchInstr_written_second {s : State} {w1 : Word} {n : Nat} (hp : s.pfx = none) (he : s.pc.toNat % 2 = 0)
    (hw : s.pc.toNat ∉ s.written) (hr : ReadsWord s s.pc w1 n) (hl : lengthWords w1 = 2)
    (hw2 : (s.pc + 2).toNat ∈ s.written) : fetchInstr s = .refused .selfModifyingCode := by
  rw [fetchInstr_first hp he hw hr, if_neg (by omega),
    fetchWord_written (s := { s with draws := s.draws + n }) hw2]

/-- An instruction that ends at the top of memory or runs past it is refused. -/
theorem fetchInstr_wraps {s : State} {w1 : Word} {n : Nat} (hp : s.pfx = none) (he : s.pc.toNat % 2 = 0)
    (hw : s.pc.toNat ∉ s.written) (hr : ReadsWord s s.pc w1 n)
    (hw2 : lengthWords w1 = 2 → (s.pc + 2).toNat ∉ s.written) (hn : (pcNext (lengthWords w1) s).toNat < s.pc.toNat) :
    fetchInstr s = .refused .pcWrap := by
  rw [fetchInstr_first hp he hw hr]
  rcases lengthWords_eq_one_or_two w1 with hl | hl
  · rw [if_pos hl]
    exact if_pos hn
  · rw [if_neg (by omega), fetchWord_eq (s := { s with draws := s.draws + n }) (hw2 hl)]
    obtain ⟨m, -, hs⟩ := memRead_reads (s.pc + 2) { s with draws := s.draws + n }
    simp only [hs]
    exact if_pos hn

/-! ### The step -/

/-- A step of a running CPU in which no host event acts. -/
theorem step_running {s : State} (h0 : s.Undisturbed) (h : s.run = .running) : step s = stepInstr (passHost s) := by
  simp [step, (actingEvent_none_iff s).mpr h0, h]

/-- A step once the instruction is fetched. -/
theorem step_fetched {s s1 : State} {i : Instr} (h0 : s.Undisturbed) (h : s.run = .running)
    (hf : fetchInstr (passHost s) = .next (i, s1)) : step s = exec i s1 := by
  rw [step_running h0 h, stepInstr, hf]

/-- A step of a stopped CPU in which no host event acts. -/
theorem step_stopped {s : State} (h0 : s.Undisturbed) (h : s.run ≠ .running) : step s = .next (passHost s) := by
  simp only [step, (actingEvent_none_iff s).mpr h0]
  split
  · contradiction
  · rfl
  · rfl

/-- A step in which a host event acts. -/
theorem step_event {s : State} {e : HostEvent} {rest : List (Option HostEvent)} (h : s.hostEvents = some e :: rest)
    (ha : e.MayAct s.run) : step s = applyHostEvent e { s with hostEvents := rest } := by
  simp only [step, actingEvent_cons h ha, passHost_cons h]

/-- Everything a step that answers a next state can have done: let a host event act, idled, or executed an instruction at a
state that differs from its own in the host's entries and in free values drawn alone. -/
theorem step_next {s t : State} (h : step s = .next t) :
    (∃ e rest, s.hostEvents = some e :: rest ∧ e.MayAct s.run ∧
      applyHostEvent e { s with hostEvents := rest } = .next t) ∨
    (s.Undisturbed ∧ s.run ≠ .running ∧ t = passHost s) ∨
    (s.Undisturbed ∧ s.run = .running ∧ ∃ i n,
      fetchInstr (passHost s) = .next (i, { passHost s with draws := s.draws + n }) ∧
      exec i { passHost s with draws := s.draws + n } = .next t) := by
  cases ha : actingEvent s with
  | some e =>
    obtain ⟨rest, he, hm⟩ := actingEvent_some ha
    exact .inl ⟨e, rest, he, hm, by rw [← step_event he hm]; exact h⟩
  | none =>
    have h0 := (actingEvent_none_iff s).mp ha
    by_cases hr : s.run = .running
    · rw [step_running h0 hr, stepInstr] at h
      split at h
      · cases h
      · cases h
      · rename_i i s1 hf
        obtain ⟨-, -, w1, w2, n, -, hs1, -⟩ := fetchInstr_next hf
        simp only at hs1
        subst hs1
        exact .inr (.inr ⟨h0, hr, i, n, hf, h⟩)
    · rw [step_stopped h0 hr] at h
      exact .inr (.inl ⟨h0, hr, (Host.Outcome.next.inj h).symm⟩)

/-- A final state is not left: a step uses up the host's entry, which may not act, and nothing else changes. -/
theorem step_final {s : State} (h : s.Final) : step s = .next (passHost s) ∧ (passHost s).Final := by
  have hn : s.NoHost := by rcases h with h | h <;> exact h.2
  have hr : s.run ≠ .running := by rcases h with ⟨h, -⟩ | ⟨h, -⟩ <;> simp [h]
  have h0 : s.Undisturbed := fun e he => hn e (List.mem_of_mem_head? he)
  have hp : (passHost s).NoHost := fun e he => hn e (List.mem_of_mem_tail he)
  exact ⟨step_stopped h0 hr, h.imp (fun h => ⟨h.1, hp⟩) fun h => ⟨h.1, hp⟩⟩

end Sys2Proof.Machine
end

