-- ==== Sys2Proof/Tests/Slice0.lean ====
section
/-! SUPPORT. Tests: the check of WellFormed, every constructor's decoding from words written out from 30_encoding.md R88 and
R89, effects of single instructions from 95_test_vectors.md (the number after "vector" is the row there), the step, and a
witness for the hypotheses of every statement. -/

namespace Sys2Proof.Tests

open Sys2Proof Sys2Proof.Machine

/-- The outcome is a next state with the given property. -/
def nextHas (o : Out) (p : State → Bool) : Bool :=
  match o with
  | .next t => p t
  | .fault _ => false
  | .refused _ => false

/-- The outcome is the given refusal. -/
def stopsWith (o : Out) (r : Refusal) : Bool :=
  match o with
  | .next _ => false
  | .fault _ => false
  | .refused w => w == r

/-- The start state of the vectors: the reset state with the instruction at 0x100. -/
def base : State := { State.reset with pc := 0x100 }

/-- `base` with GPRs r0 to r7. -/
def gprs (a b c d e f g h : Word) : State := { base with x := #v[a, b, c, d, e, f, g, h] }

/-- The pointers and the memory of vectors 2.5, with r2 and r3 = 0xDEAD and r1 the offset. -/
def ptrs (o : Word) : State :=
  { gprs 0 o 0xDEAD 0xDEAD 0 0 0 0 with
    bp := 0x1000, sp := 0xFFC, fp := 0x2000
    memory := [(0xFFA, 0xBB), (0xFFB, 0xBB), (0xFFC, 0xAA), (0xFFD, 0xAA), (0xFFE, 0xCC), (0xFFF, 0xCC),
      (0x1000, 0x11), (0x1001, 0x11), (0x1002, 0x22), (0x1003, 0x22), (0x1004, 0x33), (0x1005, 0x33),
      (0x1FFE, 0x55), (0x1FFF, 0x55), (0x2000, 0x44), (0x2001, 0x44), (0x2002, 0x66), (0x2003, 0x66)] }

/-! ### WellFormed -/

/-- TST, the one instruction without words, is ill-formed and has no encoding (40_alu.md R134). -/
theorem test_tst_has_no_words : (Instr.tst 1 2).wellFormed = false ∧ encode (.tst 1 2) = none := by decide

/-! ### Decoding -/

theorem test_decode_addi : decodeWords 0x8B7F 0 = .addi 3 0x7F := by decide
theorem test_decode_subi : decodeWords 0x9A45 0 = .subi 2 0x45 := by decide
theorem test_decode_xori : decodeWords 0xA8FF 0 = .xori 0 0xFF := by decide
theorem test_decode_xnori : decodeWords 0xBA0F 0 = .xnori 2 0x0F := by decide
theorem test_decode_ori : decodeWords 0xCC80 0 = .ori 4 0x80 := by decide
theorem test_decode_orni : decodeWords 0xDD0F 0 = .orni 5 0x0F := by decide
theorem test_decode_andi : decodeWords 0xEE3C 0 = .andi 6 0x3C := by decide
theorem test_decode_andni : decodeWords 0xFF01 0 = .andni 7 0x01 := by decide
theorem test_decode_add : decodeWords 0x8264 0 = .add 2 3 4 := by decide
theorem test_decode_sub : decodeWords 0x9264 0 = .sub 2 3 4 := by decide
theorem test_decode_addc : decodeWords 0x826C 0 = .addc 2 3 4 := by decide
theorem test_decode_subc : decodeWords 0x926C 0 = .subc 2 3 4 := by decide
theorem test_decode_xor : decodeWords 0xA143 0 = .xor 1 2 3 := by decide
theorem test_decode_xnor : decodeWords 0xB143 0 = .xnor 1 2 3 := by decide
theorem test_decode_or : decodeWords 0xC143 0 = .or 1 2 3 := by decide
theorem test_decode_orn : decodeWords 0xD143 0 = .orn 1 2 3 := by decide
theorem test_decode_and : decodeWords 0xE143 0 = .and 1 2 3 := by decide
theorem test_decode_andn : decodeWords 0xF143 0 = .andn 1 2 3 := by decide
theorem test_decode_teq_ignores_its_unused_bits : decodeWords 0xA74B 0 = .teq 2 3 := by decide
theorem test_decode_tcm : decodeWords 0xB04B 0 = .tcm 2 3 := by decide
theorem test_decode_cmn : decodeWords 0xC04B 0 = .cmn 2 3 := by decide
theorem test_decode_cmp : decodeWords 0xD08A 0 = .cmp 4 2 := by decide
theorem test_decode_rsv1 : decodeWords 0xD7BF 0 = .rsv1 5 := by decide
theorem test_decode_rsv2op6 : decodeWords 0xE7EF 0 = .rsv2op6 := by decide
theorem test_decode_rsv2op7 : decodeWords 0xF008 0 = .rsv2op7 := by decide
theorem test_decode_movRR : decodeWords 0x3147 0 = .movRR 1 2 := by decide
theorem test_decode_movMM : decodeWords 0x3E50 0 = .movMM 6 2 := by decide
theorem test_decode_movMR : decodeWords 0x3F60 0 = .movMR 7 3 := by decide
theorem test_decode_movRM : decodeWords 0x3470 0 = .movRM 4 3 := by decide
theorem test_decode_movsRSr : decodeWords 0x32F9 0 = .movsRSr 2 := by decide
theorem test_decode_movsSrR : decodeWords 0x3FAD 0 = .movsSrR 5 := by decide
theorem test_decode_movsRMdb : decodeWords 0x320A 0 = .movsRMdb 2 := by decide
theorem test_decode_movsMdbR : decodeWords 0x30AE 0 = .movsMdbR 5 := by decide
theorem test_decode_movsRIvb : decodeWords 0x320B 0 = .movsRIvb 2 := by decide
theorem test_decode_movsIvbR : decodeWords 0x30AF 0 = .movsIvbR 5 := by decide
theorem test_decode_rsv3 : decodeWords 0x3FFC 0 = .rsv3 := by decide
theorem test_decode_rsv6ReadSr : decodeWords 0x3A09 0 = .rsv6ReadSr := by decide
theorem test_decode_rsv6ReadMdb : decodeWords 0x380A 0 = .rsv6ReadMdb := by decide
theorem test_decode_rsv6ReadIvb : decodeWords 0x3F0B 0 = .rsv6ReadIvb := by decide
theorem test_decode_rsv6WriteSr : decodeWords 0x301D 0 = .rsv6WriteSr := by decide
theorem test_decode_rsv6WriteMdb : decodeWords 0x30FE 0 = .rsv6WriteMdb := by decide
theorem test_decode_rsv6WriteIvb : decodeWords 0x301F 0 = .rsv6WriteIvb := by decide
theorem test_decode_ldir : decodeWords 0x25FF 0xBEEF = .ldir 5 0xBEEF := by decide
theorem test_decode_ldim : decodeWords 0x2DFF 0xFFFE = .ldim .fp 0x1FFFFFE := by decide
theorem test_decode_lddR : decodeWords 0x4300 0x091A = .lddR 3 0x00091A := by decide
theorem test_decode_stdR : decodeWords 0x53FF 0xFFFF = .stdR 3 0xFFFFFF := by decide
theorem test_decode_lddM : decodeWords 0x4D80 0x0000 = .lddM 5 0x800000 := by decide
theorem test_decode_stdM : decodeWords 0x5A7F 0xFFFF = .stdM 2 0x7FFFFF := by decide
theorem test_decode_ld : decodeWords 0x62E3 0 = .ld ⟨.gpr, 2⟩ .bp := by decide
theorem test_decode_st : decodeWords 0x7F01 0 = .st ⟨.mp, 7⟩ .sp := by decide
theorem test_decode_ldStar : decodeWords 0x6207 0xFFFF = .ldStar ⟨.gpr, 2⟩ .bp := by decide
theorem test_decode_stStar : decodeWords 0x7207 0x1234 = .stStar ⟨.gpr, 2⟩ .bp := by decide
theorem test_decode_ldr : decodeWords 0x622A 0 = .ldr ⟨.gpr, 2⟩ .fp 1 := by decide
theorem test_decode_str : decodeWords 0x722A 0 = .str ⟨.gpr, 2⟩ .fp 1 := by decide
theorem test_decode_ldo : decodeWords 0x630F 0x0004 = .ldo ⟨.gpr, 3⟩ .bp 4 := by decide
theorem test_decode_sto : decodeWords 0x730D 0xFFFE = .sto ⟨.gpr, 3⟩ .sp 0xFFFE := by decide
theorem test_decode_ldpostr : decodeWords 0x6231 0 = .ldpostr ⟨.gpr, 2⟩ .sp 1 := by decide
theorem test_decode_stpostr : decodeWords 0x7231 0 = .stpostr ⟨.gpr, 2⟩ .sp 1 := by decide
theorem test_decode_ldposto : decodeWords 0x6215 0x0002 = .ldposto ⟨.gpr, 2⟩ .sp 2 := by decide
theorem test_decode_stposto : decodeWords 0x7215 0x0002 = .stposto ⟨.gpr, 2⟩ .sp 2 := by decide
theorem test_decode_ldprer : decodeWords 0x6239 0 = .ldprer ⟨.gpr, 2⟩ .sp 1 := by decide
theorem test_decode_stprer : decodeWords 0x7239 0 = .stprer ⟨.gpr, 2⟩ .sp 1 := by decide
theorem test_decode_ldpreo : decodeWords 0x621D 0xFFFE = .ldpreo ⟨.gpr, 2⟩ .sp 0xFFFE := by decide
theorem test_decode_stpreo : decodeWords 0x721D 0xFFFE = .stpreo ⟨.gpr, 2⟩ .sp 0xFFFE := by decide
theorem test_decode_j : decodeWords 0x1080 0x0000 = .j 0x800000 := by decide
theorem test_decode_jz : decodeWords 0x1100 0x0010 = .jz 0x10 := by decide
theorem test_decode_jn : decodeWords 0x1200 0x0010 = .jn 0x10 := by decide
theorem test_decode_jo : decodeWords 0x1400 0x0010 = .jo 0x10 := by decide
theorem test_decode_jc : decodeWords 0x1800 0x0010 = .jc 0x10 := by decide
theorem test_decode_jnz : decodeWords 0x1EFF 0xFFF8 = .jnz 0xFFFFF8 := by decide
theorem test_decode_jnn : decodeWords 0x1D00 0x0010 = .jnn 0x10 := by decide
theorem test_decode_jno : decodeWords 0x1B00 0x0010 = .jno 0x10 := by decide
theorem test_decode_jnc : decodeWords 0x1700 0x0010 = .jnc 0x10 := by decide
theorem test_decode_jsr : decodeWords 0x1FFF 0xFFF0 = .jsr 0xFFFFF0 := by decide
theorem test_decode_rsv5c3 : decodeWords 0x1300 0 = .rsv5c3 := by decide
theorem test_decode_rsv5c5 : decodeWords 0x1500 0 = .rsv5c5 := by decide
theorem test_decode_rsv5c6 : decodeWords 0x16FF 0 = .rsv5c6 := by decide
theorem test_decode_rsv5c9 : decodeWords 0x1900 0 = .rsv5c9 := by decide
theorem test_decode_rsv5c10 : decodeWords 0x1A00 0 = .rsv5c10 := by decide
theorem test_decode_rsv5c12 : decodeWords 0x1C00 0 = .rsv5c12 := by decide
theorem test_decode_addp : decodeWords 0x0EEF 0 = .addp .bp 7 := by decide
theorem test_decode_addpo : decodeWords 0x0C10 0xFFFC = .addpo .fp 0xFFFC := by decide
theorem test_decode_addpi : decodeWords 0x0F01 0x2345 = .addpi .bp 0x012345 := by decide
theorem test_decode_nop : decodeWords 0x00FF 0 = .nop := by decide
theorem test_decode_hlt : decodeWords 0x0100 0 = .hlt := by decide
theorem test_decode_reset : decodeWords 0x0200 0 = .reset := by decide
theorem test_decode_dma : decodeWords 0x0300 0 = .dma := by decide
theorem test_decode_eint : decodeWords 0x0421 0 = .eint 0x21 := by decide
theorem test_decode_setpr : decodeWords 0x0580 0 = .setpr 4 := by decide
theorem test_decode_clrim : decodeWords 0x0660 0 = .clrim 3 := by decide
theorem test_decode_setim : decodeWords 0x071F 0 = .setim 0 := by decide

/-- Bytes too few for the instruction are no instruction (30_encoding.md R82). -/
theorem test_decode_truncated :
    (match decode .big [0x25, 0x00, 0xBE] with
      | .ok _ => false
      | .error e => e == .truncated) = true := by decide

/-- The same instruction from bytes in the other order (20_memory.md R52). -/
theorem test_decode_little :
    (match decode .little [0x00, 0x25, 0xEF, 0xBE, 0x55] with
      | .ok r => r == (.ldir 5 0xBEEF, [0x55])
      | .error _ => false) = true := by decide

/-- A table word of two words: LDir r5 0xBEEF, the second word in bits 31..16. -/
theorem test_decode_table_word : decodeTableWord 32 0xBEEF2500 = some (.ldir 5 0xBEEF) := by decide

/-- Bits above `nbits` are 0. -/
theorem test_decode_table_word_short : decodeTableWord 16 0xBEEF2500 = some (.ldir 5 0) := by decide

/-! ### ALU (vectors 2.1) -/

/-- Vector 2.1 row 1. -/
theorem test_addi_carry :
    nextHas (exec (.addi 3 0x7F) (gprs 0 0 0 0xFFF0 0 0 0 0)) (fun t => readGpr 3 t == 0x006F && t.flags == ⟨true, false, false, false⟩ && t.pc == 0x102) = true := by decide
/-- Vector 2.1 row 3. -/
theorem test_addi_zero_extends :
    nextHas (exec (.addi 0 0xFF) (gprs 0x7FFF 0 0 0 0 0 0 0)) (fun t => readGpr 0 t == 0x80FE && t.flags == ⟨false, true, true, false⟩) = true := by decide
/-- Vector 2.1 row 5. -/
theorem test_subi_wraps :
    nextHas (exec (.subi 1 1) (gprs 0 0 0 0 0 0 0 0)) (fun t => readGpr 1 t == 0xFFFF && t.flags.n && !t.flags.o && !t.flags.z) = true := by decide
/-- Vector 2.1 row 6. -/
theorem test_subi_overflow :
    nextHas (exec (.subi 1 1) (gprs 0 0x8000 0 0 0 0 0 0)) (fun t => readGpr 1 t == 0x7FFF && t.flags.o && !t.flags.n) = true := by decide
/-- Vector 2.1 row 7. -/
theorem test_xori :
    nextHas (exec (.xori 0 0xFF) (gprs 0x12FF 0 0 0 0 0 0 0)) (fun t => readGpr 0 t == 0x1200) = true := by decide
/-- Vector 2.1 row 9. -/
theorem test_xnori :
    nextHas (exec (.xnori 2 0) (gprs 0 0 0x00FF 0 0 0 0 0)) (fun t => readGpr 2 t == 0xFF00) = true := by decide
/-- Vector 2.1 row 10. -/
theorem test_ori :
    nextHas (exec (.ori 4 0x80) (gprs 0 0 0 0 1 0 0 0)) (fun t => readGpr 4 t == 0x0081) = true := by decide
/-- Vector 2.1 row 12. -/
theorem test_orni :
    nextHas (exec (.orni 5 0xFF) (gprs 0 0 0 0 0 0 0 0)) (fun t => readGpr 5 t == 0xFF00) = true := by decide
/-- Vector 2.1 row 13. -/
theorem test_andi :
    nextHas (exec (.andi 6 0x3C) (gprs 0 0 0 0 0 0 0xABCD 0)) (fun t => readGpr 6 t == 0x000C) = true := by decide
/-- Vector 2.1 row 16. -/
theorem test_andni :
    nextHas (exec (.andni 7 0xFF) (gprs 0 0 0 0 0 0 0 0x80FF)) (fun t => readGpr 7 t == 0x8000) = true := by decide
/-- Vector 2.1 row 20. -/
theorem test_add_both_negative :
    nextHas (exec (.add 2 3 4) (gprs 0 0 0 0x8000 0x8000 0 0 0)) (fun t => readGpr 2 t == 0 && t.flags == ⟨true, true, false, true⟩) = true := by decide
/-- Vector 2.1 row 21. -/
theorem test_add_same_register :
    nextHas (exec (.add 0 0 0) (gprs 0x4000 0 0 0 0 0 0 0)) (fun t => readGpr 0 t == 0x8000 && t.flags == ⟨false, true, true, false⟩) = true := by decide
/-- Vector 2.1 row 22. -/
theorem test_sub_borrows :
    nextHas (exec (.sub 2 3 4) (gprs 0 0 0 5 7 0 0 0)) (fun t => readGpr 2 t == 0xFFFE && t.flags.n && !t.flags.z) = true := by decide
/-- Vector 2.1 row 28. -/
theorem test_addc_takes_carry :
    nextHas (exec (.addc 2 3 4) { gprs 0 0 0 0xFFFF 0 0 0 0 with flags := ⟨true, false, false, false⟩ })
      (fun t => readGpr 2 t == 0 && t.flags == ⟨true, false, false, true⟩) = true := by decide
/-- Vectors 2.1 rows 25 and 26: C under each given SUB_CARRY. -/
theorem test_sub_carry_as_given :
    nextHas (exec (.sub 2 3 4) { gprs 0 0 0 5 7 0 0 0 with subCarry := .borrow })
      (fun t => t.flags == ⟨true, false, true, false⟩) = true ∧
    nextHas (exec (.sub 2 3 4) { gprs 0 0 0 5 7 0 0 0 with subCarry := .notBorrow })
      (fun t => t.flags == ⟨false, false, true, false⟩) = true := by decide
/-- Vector 2.1 row 30. -/
theorem test_subc_needs_sub_carry :
    stopsWith (exec (.subc 2 3 4) (gprs 0 0 0 5 2 0 0 0)) .subcNeedsSubCarry = true := by decide
/-- Vectors 2.1 rows 31 to 33. -/
theorem test_subc_with_borrow :
    nextHas (exec (.subc 2 3 4) { gprs 0 0 0 5 2 0 0 0 with flags := ⟨true, false, false, false⟩, subCarry := .borrow })
      (fun t => readGpr 2 t == 2 && t.flags == ⟨false, false, false, false⟩) = true ∧
    nextHas (exec (.subc 2 3 4) { gprs 0 0 0 0 0 0 0 0 with flags := ⟨true, false, false, false⟩, subCarry := .borrow })
      (fun t => readGpr 2 t == 0xFFFF && t.flags == ⟨true, false, true, false⟩) = true ∧
    nextHas (exec (.subc 2 3 4) { gprs 0 0 0 5 2 0 0 0 with flags := ⟨true, false, false, false⟩, subCarry := .notBorrow })
      (fun t => readGpr 2 t == 3 && t.flags == ⟨true, false, false, false⟩) = true := by decide
/-- Vector 2.1 row 34. -/
theorem test_xor :
    nextHas (exec (.xor 1 2 3) (gprs 0 0 0xAAAA 0x5555 0 0 0 0)) (fun t => readGpr 1 t == 0xFFFF) = true := by decide
/-- Vector 2.1 row 36. -/
theorem test_xnor :
    nextHas (exec (.xnor 1 2 3) (gprs 0 0 0xAAAA 0x5555 0 0 0 0)) (fun t => readGpr 1 t == 0) = true := by decide
/-- Vector 2.1 row 38. -/
theorem test_or :
    nextHas (exec (.or 1 2 3) (gprs 0 0 0x00F0 0x0F00 0 0 0 0)) (fun t => readGpr 1 t == 0x0FF0) = true := by decide
/-- Vector 2.1 row 39. -/
theorem test_orn :
    nextHas (exec (.orn 1 2 3) (gprs 0 0 0x0F00 0xFFF0 0 0 0 0)) (fun t => readGpr 1 t == 0x0F0F) = true := by decide
/-- Vector 2.1 row 41. -/
theorem test_and :
    nextHas (exec (.and 1 2 3) (gprs 0 0 0xFF0F 0x0FF0 0 0 0 0)) (fun t => readGpr 1 t == 0x0F00) = true := by decide
/-- Vector 2.1 row 44. -/
theorem test_andn :
    nextHas (exec (.andn 1 2 3) (gprs 0 0 0xFFFF 0x00FF 0 0 0 0)) (fun t => readGpr 1 t == 0xFF00) = true := by decide
/-- Vector 2.1 row 46: Z is set when the result is True. -/
theorem test_teq_equal : nextHas (exec (.teq 2 3) (gprs 0 0 0x1234 0x1234 0 0 0 0)) (fun t => t.flags.z && !t.flags.n && readGpr 2 t == 0x1234) = true := by
  simp only [exec, execTeq, aluLogic, nextHas, logicFlags]
  cases Config.logicCo <;> decide
/-- Vector 2.1 row 49. -/
theorem test_tcm_complement : nextHas (exec (.tcm 2 3) (gprs 0 0 0x00FF 0xFF00 0 0 0 0)) (fun t => t.flags.z && !t.flags.n) = true := by
  simp only [exec, execTcm, aluLogic, nextHas, logicFlags]
  cases Config.logicCo <;> decide
/-- Z is cleared for True (40_alu.md R134). -/
theorem test_tst_true_clears_zero : nextHas (exec (.tst 2 3) (gprs 0 0 0x8001 0x8000 0 0 0 0)) (fun t => !t.flags.z && t.flags.n) = true := by
  simp only [exec, execTst, aluLogic, nextHas, logicFlags]
  cases Config.logicCo <;> decide
/-- Vector 2.1 row 51. -/
theorem test_cmn :
    nextHas (exec (.cmn 2 3) (gprs 0 0 1 0xFFFF 0 0 0 0)) (fun t => t.flags == ⟨true, false, false, true⟩ && readGpr 2 t == 1) = true := by decide
/-- Vector 2.1 row 55. -/
theorem test_cmp :
    nextHas (exec (.cmp 2 3) (gprs 0 0 0x8000 1 0 0 0 0)) (fun t => t.flags.o && !t.flags.n && !t.flags.z && readGpr 2 t == 0x8000) = true := by decide

/-! ### Moves (vectors 2.2) -/

/-- Vector 2.2 row 12. -/
theorem test_movsSrR_layout_unknown :
    stopsWith (exec (.movsSrR 5) base) .srLayoutUnknown = true := by decide
/-- With C, O, N, Z at bits 0, 15, 2, 9 of SR, by hand from the pseudocode of 41_mov.md R156. -/
theorem test_movsSrR_by_layout :
    nextHas (exec (.movsSrR 5) { gprs 0 0 0 0 0 0x8103 0 0 with srLayout := some ⟨0, 15, 2, 9⟩ })
      (fun t => t.flags == ⟨true, true, false, false⟩ && t.srRest == 0x0102) = true := by decide
/-- The same layout, by hand from the pseudocode of 41_mov.md R155. -/
theorem test_movsRSr_by_layout :
    nextHas (exec (.movsRSr 2) { base with
        srLayout := some ⟨0, 15, 2, 9⟩, flags := ⟨true, false, false, true⟩, srRest := 0x0102 })
      (fun t => readGpr 2 t == 0x0303) = true := by decide
/-- Vector 2.2 row 1. -/
theorem test_movRR :
    nextHas (exec (.movRR 1 2) (gprs 0 0 0xBEEF 0 0 0 0 0)) (fun t => readGpr 1 t == 0xBEEF && readGpr 2 t == 0xBEEF) = true := by decide
/-- Vector 2.2 row 4. -/
theorem test_movMM :
    nextHas (exec (.movMM 6 2) { base with sp := 0x00010000 }) (fun t => t.bp == 0x00010000) = true := by decide
/-- Vector 2.2 row 5. -/
theorem test_movMR :
    nextHas (exec (.movMR 7 3) (gprs 0 0 0 0x1000 0 0 0 0)) (fun t => t.bp == 0x00001000) = true := by decide
/-- Vector 2.2 row 7. -/
theorem test_movRM_low_half_of_pc :
    nextHas (exec (.movRM 4 1) base) (fun t => readGpr 4 t == 0x0102) = true := by decide
/-- Vector 2.2 row 8. -/
theorem test_movRM_high_half_of_pc :
    nextHas (exec (.movRM 4 0) { base with pc := 0x00120100 }) (fun t => readGpr 4 t == 0x0012) = true := by decide
/-- Vector 2.2 rows 9 and 10. -/
theorem test_half_writes_of_pc :
    stopsWith (exec (.movMR 1 3) base) .halfWriteOfPc = true ∧ stopsWith (exec (.movMM 0 2) base) .halfWriteOfPc = true := by decide
/-- Vector 2.2 row 14. -/
theorem test_movsMdbR :
    nextHas (exec (.movsMdbR 5) (gprs 0 0 0 0 0 0xAA55 0 0)) (fun t => t.mdb == 0xAA55 && t.pc == 0x102) = true := by decide
/-- Vector 2.2 row 15. -/
theorem test_movsRIvb :
    stopsWith (exec (.movsRIvb 2) base) .ivbCannotBeRead = true := by decide
/-- Vector 2.2 row 16. -/
theorem test_movsIvbR :
    nextHas (exec (.movsIvbR 5) (gprs 0 0 0 0 0 0x00F0 0 0)) (fun t => t.ivb == 0x00F0) = true := by decide

/-! ### Loads and stores (vectors 2.3 to 2.5) -/

/-- Vector 2.3 row 1. -/
theorem test_ldir :
    nextHas (exec (.ldir 5 0xBEEF) base) (fun t => readGpr 5 t == 0xBEEF && t.pc == 0x104) = true := by decide
/-- Vector 2.3 row 6. -/
theorem test_ldim_high_value :
    nextHas (exec (.ldim .fp 0x1FFFFFE) base) (fun t => readMp 1 4 t == 0x01FF && readMp 1 5 t == 0xFFFE) = true := by decide
/-- Vector 2.3 rows 7 and 8. -/
theorem test_ldim_pc :
    nextHas (exec (.ldim .pc 0x200) base) (fun t => t.pc == 0x200) = true ∧ stopsWith (exec (.ldim .pc 0x101) base) .oddPc = true := by decide
/-- Vector 2.4 row 1, with two different bytes. -/
theorem test_lddR :
    nextHas (exec (.lddR 3 0x00091A) { base with memory := [(0x1234, 0x5A), (0x1235, 0x5B)] })
      (fun t => readGpr 3 t == 0x5A5B && t.draws == 0) = true := by decide
/-- Vector 2.4 row 2. -/
theorem test_lddR_unwritten_draws :
    nextHas (exec (.lddR 3 0x00091A) base) (fun t => t.draws == 1 && t.pc == 0x104) = true := by decide
/-- Vector 2.4 row 4. -/
theorem test_stdR_output :
    nextHas (exec (.stdR 3 0xFFFFFF) (gprs 0 0 0 0x41 0 0 0 0)) (fun t => t.outputs == [(0xFFFFFFFE, 0x41)] && t.memory == []) = true := by decide
/-- Vector 2.4 row 6. -/
theorem test_stdR_top_of_bottom :
    nextHas (exec (.stdR 3 0x7FFFFF) (gprs 0 0 0 0x41 0 0 0 0)) (fun t => t.memory.wordAt 0x00FFFFFE == some 0x41 && t.outputs == []) = true := by decide
/-- Vector 2.4 row 7. -/
theorem test_lddM :
    nextHas (exec (.lddM 5 0x100) { base with memory := [(0x200, 0x03), (0x201, 0x00)] }) (fun t => t.fp == 0x300) = true := by decide
/-- Vector 2.4 row 11. -/
theorem test_stdM_pc :
    nextHas (exec (.stdM 1 0x100) { base with pc := 0x200 }) (fun t => t.memory.wordAt 0x200 == some 0x204) = true := by decide
/-- Vector 2.5 row 1. -/
theorem test_ld :
    nextHas (exec (.ld ⟨.gpr, 2⟩ .bp) (ptrs 0)) (fun t => readGpr 2 t == 0x1111 && t.pc == 0x102) = true := by decide
/-- Vector 2.5 row 31. -/
theorem test_ld_inside_its_pair :
    nextHas (exec (.ld ⟨.mp, 3⟩ .sp) (ptrs 0)) (fun t => t.sp == 0xAAAA) = true := by decide
/-- Vector 2.5 row 7. -/
theorem test_st_mp :
    nextHas (exec (.st ⟨.mp, 7⟩ .sp) (ptrs 0)) (fun t => t.memory.wordAt 0xFFC == some 0x1000) = true := by decide
/-- Vector 2.5 row 4. -/
theorem test_ldStar :
    nextHas (exec (.ldStar ⟨.gpr, 2⟩ .bp) (ptrs 0)) (fun t => readGpr 2 t == 0x1111 && t.pc == 0x104) = true := by decide
/-- Vector 2.5 row 5. -/
theorem test_stStar :
    nextHas (exec (.stStar ⟨.gpr, 2⟩ .bp) (ptrs 0)) (fun t => t.memory.wordAt 0x1000 == some 0xDEAD && t.pc == 0x104) = true := by decide
/-- Vector 2.5 row 9. -/
theorem test_ldr_negative :
    nextHas (exec (.ldr ⟨.gpr, 2⟩ .fp 1) (ptrs 0xFFFE)) (fun t => readGpr 2 t == 0x5555 && t.fp == 0x2000) = true := by decide
/-- Vector 2.5 row 10. -/
theorem test_str :
    nextHas (exec (.str ⟨.gpr, 2⟩ .fp 1) (ptrs 0xFFFE)) (fun t => t.memory.wordAt 0x1FFE == some 0xDEAD && t.fp == 0x2000) = true := by decide
/-- Vector 2.5 row 11. -/
theorem test_ldo :
    nextHas (exec (.ldo ⟨.gpr, 3⟩ .bp 4) (ptrs 0)) (fun t => readGpr 3 t == 0x3333 && t.bp == 0x1000) = true := by decide
/-- Vector 2.5 row 13. -/
theorem test_ldo_odd :
    stopsWith (exec (.ldo ⟨.gpr, 3⟩ .bp 3) (ptrs 0)) .oddAddress = true := by decide
/-- Vector 2.5 row 12. -/
theorem test_sto :
    nextHas (exec (.sto ⟨.gpr, 3⟩ .sp 0xFFFE) (ptrs 0)) (fun t => t.memory.wordAt 0xFFA == some 0xDEAD && t.sp == 0xFFC) = true := by decide
/-- Vector 2.5 row 15. -/
theorem test_ldpostr :
    nextHas (exec (.ldpostr ⟨.gpr, 2⟩ .sp 1) (ptrs 2)) (fun t => readGpr 2 t == 0xAAAA && t.sp == 0xFFE) = true := by decide
/-- Vector 2.5 row 16. -/
theorem test_stpostr :
    nextHas (exec (.stpostr ⟨.gpr, 2⟩ .sp 1) (ptrs 0xFFFE)) (fun t => t.memory.wordAt 0xFFC == some 0xDEAD && t.sp == 0xFFA) = true := by decide
/-- Vector 2.5 row 19. -/
theorem test_ldposto_carry :
    nextHas (exec (.ldposto ⟨.gpr, 2⟩ .bp 2) { base with bp := 0x0001FFFE, memory := [(0x1FFFE, 0), (0x1FFFF, 7)] })
      (fun t => readGpr 2 t == 7 && t.bp == 0x00020000) = true := by decide
/-- Vector 2.5 row 20. -/
theorem test_stposto :
    nextHas (exec (.stposto ⟨.gpr, 2⟩ .sp 2) (ptrs 0)) (fun t => t.memory.wordAt 0xFFC == some 0xDEAD && t.sp == 0xFFE) = true := by decide
/-- Vector 2.5 row 21. -/
theorem test_ldprer :
    nextHas (exec (.ldprer ⟨.gpr, 2⟩ .sp 1) (ptrs 2)) (fun t => readGpr 2 t == 0xCCCC && t.sp == 0xFFE) = true := by decide
/-- Vector 2.5 row 22. -/
theorem test_stprer :
    nextHas (exec (.stprer ⟨.gpr, 2⟩ .sp 1) (ptrs 0xFFFE)) (fun t => t.memory.wordAt 0xFFA == some 0xDEAD && t.sp == 0xFFA) = true := by decide
/-- Vector 2.5 row 23. -/
theorem test_ldpreo :
    nextHas (exec (.ldpreo ⟨.gpr, 2⟩ .sp 0xFFFE) (ptrs 0)) (fun t => readGpr 2 t == 0xBBBB && t.sp == 0xFFA) = true := by decide
/-- Vector 2.5 row 24. -/
theorem test_stpreo :
    nextHas (exec (.stpreo ⟨.gpr, 2⟩ .sp 0xFFFE) (ptrs 0)) (fun t => t.memory.wordAt 0xFFA == some 0xDEAD && t.sp == 0xFFA && t.memory.wordAt 0xFFC == some 0xAAAA) = true := by decide
/-- Vector 2.5 row 26. -/
theorem test_ldo_pc :
    nextHas (exec (.ldo ⟨.gpr, 2⟩ .pc 0) { base with memory := [(0x104, 0x07), (0x105, 0x77)] }) (fun t => readGpr 2 t == 0x777) = true := by decide
/-- Vector 2.5 rows 28 to 30. -/
theorem test_updates_refused :
    stopsWith (exec (.ldposto ⟨.gpr, 2⟩ .pc 2) base) .updateOfPcByIndirectAccess = true ∧
      stopsWith (exec (.ld ⟨.mp, 1⟩ .bp) (ptrs 0)) .halfWriteOfPc = true ∧
      stopsWith (exec (.ldposto ⟨.mp, 3⟩ .sp 2) (ptrs 0)) .transferredRegisterInsideUpdatedPair = true := by decide

/-! ### Jumps, Address Arithmetic, miscellaneous (vectors 2.6 to 2.8) -/

/-- Vector 2.6 row 21. -/
theorem test_j_backward :
    nextHas (exec (.j 0x800000) { base with pc := 0x00900000 }) (fun t => t.pc == 0x00100004) = true := by decide
/-- Vector 2.6 row 23. -/
theorem test_j_odd :
    stopsWith (exec (.j 0x7FFFFF) base) .oddPc = true := by decide
/-- Vector 2.6, all flags 0 and all flags 1. -/
theorem test_jz :
    nextHas (exec (.jz 0x10) base) (fun t => t.pc == 0x104) = true ∧
      nextHas (exec (.jz 0x10) { base with flags := ⟨true, true, true, true⟩ }) (fun t => t.pc == 0x114) = true := by decide
/-- Vector 2.6, all flags 0 and all flags 1. -/
theorem test_jn :
    nextHas (exec (.jn 0x10) base) (fun t => t.pc == 0x104) = true ∧
      nextHas (exec (.jn 0x10) { base with flags := ⟨true, true, true, true⟩ }) (fun t => t.pc == 0x114) = true := by decide
/-- Vector 2.6, all flags 0 and all flags 1. -/
theorem test_jo :
    nextHas (exec (.jo 0x10) base) (fun t => t.pc == 0x104) = true ∧
      nextHas (exec (.jo 0x10) { base with flags := ⟨true, true, true, true⟩ }) (fun t => t.pc == 0x114) = true := by decide
/-- Vector 2.6, all flags 0 and all flags 1. -/
theorem test_jc :
    nextHas (exec (.jc 0x10) base) (fun t => t.pc == 0x104) = true ∧
      nextHas (exec (.jc 0x10) { base with flags := ⟨true, true, true, true⟩ }) (fun t => t.pc == 0x114) = true := by decide
/-- Vector 2.6, all flags 0 and all flags 1. -/
theorem test_jnz :
    nextHas (exec (.jnz 0x10) base) (fun t => t.pc == 0x114) = true ∧
      nextHas (exec (.jnz 0x10) { base with flags := ⟨true, true, true, true⟩ }) (fun t => t.pc == 0x104) = true := by decide
/-- Vector 2.6, all flags 0 and all flags 1. -/
theorem test_jnn :
    nextHas (exec (.jnn 0x10) base) (fun t => t.pc == 0x114) = true ∧
      nextHas (exec (.jnn 0x10) { base with flags := ⟨true, true, true, true⟩ }) (fun t => t.pc == 0x104) = true := by decide
/-- Vector 2.6, all flags 0 and all flags 1. -/
theorem test_jno :
    nextHas (exec (.jno 0x10) base) (fun t => t.pc == 0x114) = true ∧
      nextHas (exec (.jno 0x10) { base with flags := ⟨true, true, true, true⟩ }) (fun t => t.pc == 0x104) = true := by decide
/-- Vector 2.6, all flags 0 and all flags 1. -/
theorem test_jnc :
    nextHas (exec (.jnc 0x10) base) (fun t => t.pc == 0x114) = true ∧
      nextHas (exec (.jnc 0x10) { base with flags := ⟨true, true, true, true⟩ }) (fun t => t.pc == 0x104) = true := by decide
/-- Vector 2.6 row 28. -/
theorem test_jsr :
    nextHas (exec (.jsr 0xFFFFF0) { base with pc := 0x12000, sp := 0xFFC })
      (fun t => t.memory.wordAt 0xFFC == some 1 && t.memory.wordAt 0xFFE == some 0x2004 && t.pc == 0x11FF4 && t.sp == 0xFFC) = true := by decide
/-- Vector 2.6 row 29. -/
theorem test_jsr_odd_sp :
    stopsWith (exec (.jsr 6) { base with sp := 0xFFD }) .oddAddress = true := by decide
/-- Vector 2.7 row 4. -/
theorem test_addp_carry :
    nextHas (exec (.addp .bp 7) { gprs 0 0 0 0 0 0 0 0x7FFF with bp := 0xFFFF }) (fun t => t.bp == 0x17FFE) = true := by decide
/-- Vector 2.7 rows 6 and 7. -/
theorem test_addp_pc :
    nextHas (exec (.addp .pc 2) (gprs 0 0 0x10 0 0 0 0 0)) (fun t => t.pc == 0x112) = true ∧
      stopsWith (exec (.addp .pc 2) (gprs 0 0 0x11 0 0 0 0 0)) .oddPc = true := by decide
/-- Vector 2.7 row 8. -/
theorem test_addpo :
    stopsWith (exec (.addpo .fp 0xFFFC) base) .addrArithBit4Form = true := by decide
/-- Vector 2.7 row 10. -/
theorem test_addpi_wraps :
    nextHas (exec (.addpi .sp 0xFFFFFC) base) (fun t => t.sp == 0xFFFFFFFC && t.flags == base.flags) = true := by decide
/-- Vector 2.8 row 1. -/
theorem test_nop :
    nextHas (exec (.nop) base) (fun t => t == { base with pc := 0x102 }) = true := by decide
/-- Vector 2.8 row 3. -/
theorem test_hlt :
    nextHas (exec (.hlt) base) (fun t => t.pc == 0x102 && t.run == .halted) = true := by decide
/-- Vector 2.8 row 4. -/
theorem test_reset :
    nextHas (exec .reset { gprs 0 5 0 0 0 0 0 0 with sp := 9, flags := ⟨true, false, false, true⟩, memory := [(4, 1)] })
      (fun t => readGpr 1 t == 0 && t.sp == 0 && t.flags == ⟨false, false, false, false⟩ && t.pc == 0 && t.memory == [(4, 1)]) = true := by decide
/-- Vector 2.8 row 5 and 20_memory.md R61. -/
theorem test_dma :
    nextHas (exec (.dma) { base with written := [0x200] }) (fun t => t.pc == 0x102 && t.run == .dma && t.written == []) = true := by decide
/-- Vector 2.8 row 6. -/
theorem test_eint :
    stopsWith (exec (.eint 0x21) base) .interruptEntryNotDescribed = true := by decide
/-- Vector 2.8 row 7. -/
theorem test_setpr :
    nextHas (exec (.setpr 4) base) (fun t => t.pfx == some 4 && t.pc == 0x102) = true := by decide
/-- Vector 2.8 row 8. -/
theorem test_clrim :
    nextHas (exec (.clrim 3) { base with im := Vector.replicate 8 true })
      (fun t => t.im == #v[true, true, true, false, true, true, true, true]) = true := by decide
/-- Vector 2.8 row 9. -/
theorem test_setim :
    nextHas (exec (.setim 7) base) (fun t => t.im == #v[false, false, false, false, false, false, false, true]) = true := by decide
/-- Vectors 2.1 row 56 and 2.6 row 35. -/
theorem test_reserved :
    stopsWith (exec (.rsv1 0) base) .reservedEncoding = true ∧ stopsWith (exec .rsv5c12 base) .reservedEncoding = true := by decide

/-! ### The step (vectors 2.9) -/

/-- Vector 2.9 row 1. -/
theorem test_step_odd_pc :
    stopsWith (step { base with pc := 0x101 }) .oddPc = true := by decide
/-- The prefix is checked before pc (70_reset_and_hazards.md R310). -/
theorem test_step_wraps :
    stopsWith (step { base with pc := 0x101, pfx := some 0 }) .prefixedInstruction = true := by decide
/-- Vector 2.9 row 3. -/
theorem test_step_self_modifying :
    stopsWith (step { base with written := [0x100], memory := [(0x100, 0), (0x101, 0)] }) .selfModifyingCode = true := by decide
/-- Vector 2.9 row 5. -/
theorem test_step_halted :
    nextHas (step { base with run := .halted }) (fun t => t == { base with run := .halted }) = true := by decide
/-- Vector 2.9 row 6. -/
theorem test_step_resume :
    nextHas (step { base with run := .halted, hostEvents := [some .resume] }) (fun t => t == base) = true := by decide
/-- Vector 2.9 row 7, its first event. -/
theorem test_step_dma_write :
    nextHas (step { base with run := .dma, hostEvents := [some (.dmaWrite 0x200 0x1234), some .dmaDone] })
      (fun t => t.memory == [(0x200, 0x12), (0x201, 0x34)] && t.written == [] && t.run == .dma &&
        t.hostEvents == [some .dmaDone]) = true := by decide
/-- Resume acts only in `halted`: while the CPU runs an instruction is executed (70_reset_and_hazards.md R309; log 20). -/
theorem test_step_resume_while_running :
    nextHas (step { base with memory := [(0x100, 0), (0x101, 0)], hostEvents := [some .resume, some .reset] })
      (fun t => t.pc == 0x102 && t.run == .running && t.hostEvents == [some .reset]) = true := by decide
/-- Reset overrides a DMA stop, whatever the host tried before (60_exceptions.md R274). -/
theorem test_step_reset_in_dma :
    nextHas (step { base with run := .dma, hostEvents := [some .reset] }) (fun t => t.pc == 0 && t.run == .running) = true := by
  decide
/-- The first instruction after reset, placed from outside (log 19). -/
theorem test_step_placed :
    nextHas (step (State.reset.withFetchWord 32 0xBEEF2500)) (fun t => readGpr 5 t == 0xBEEF && t.pc == 4) = true := by decide
/-- 10_state.md R39. -/
theorem test_reset_good_values :
    State.reset.pc = 0 ∧ State.reset.memory = [] ∧ State.reset.run = .running ∧ State.reset.pfx = none := by decide

/-! ### Witnesses: the hypotheses of every statement can be met -/

theorem witness_EncodedInstructionDecodesToItself : (Instr.stpreo ⟨.mp, 7⟩ .bp 0xFFFF).wellFormed = true := by decide

theorem witness_AluWordsFollowTheOpcodeTable :
    (∀ k : Fin 8, ∃ w1 : Word, w1.getLsbD 15 = true ∧ w1.getLsbD 11 = true ∧ w1.extractLsb' 12 3 = BitVec.ofNat 3 k) ∧
    (∀ k : Fin 8, ∀ v : Bool, ∃ w1 : Word, w1.getLsbD 15 = true ∧ w1.getLsbD 11 = false ∧ w1.getLsbD 4 = false ∧
      w1.getLsbD 3 = v ∧ w1.extractLsb' 12 3 = BitVec.ofNat 3 k) ∧
    (∃ w1 : Word, w1.getLsbD 15 = true ∧ w1.getLsbD 11 = false ∧ w1.getLsbD 4 = true) := by
  refine ⟨fun k => ⟨BitVec.ofNat 16 (0x8800 + k.val * 4096), ?_⟩,
    fun k v => ⟨BitVec.ofNat 16 (0x8000 + k.val * 4096 + 8 * v.toNat), ?_⟩, 0x8010, by decide⟩
  · revert k; decide
  · revert k v; decide

theorem witness_MovWordsFollowTheOpcodeTable :
    (∀ df sf : Bool, ∃ w1 : Word, w1.extractLsb' 12 4 = 0b0011 ∧ w1.getLsbD 3 = false ∧ w1.getLsbD 11 = df ∧
      w1.getLsbD 4 = sf) ∧
    (∀ dir : Bool, ∀ k : Fin 4, ∃ w1 : Word, w1.extractLsb' 12 4 = 0b0011 ∧ w1.getLsbD 3 = true ∧
      w1.getLsbD 2 = dir ∧ w1.extractLsb' 0 2 = BitVec.ofNat 2 k) := by
  refine ⟨fun df sf => ⟨BitVec.ofNat 16 (0x3000 + 2048 * df.toNat + 16 * sf.toNat), ?_⟩,
    fun dir k => ⟨BitVec.ofNat 16 (0x3008 + 4 * dir.toNat + k.val), ?_⟩⟩
  · revert df sf; decide
  · revert dir k; decide

theorem witness_LoadAndStoreWordsFollowTheOpcodeTable :
    ((0x2000 : Word).extractLsb' 12 4 = 0b0010 ∧ (0x2800 : Word).extractLsb' 12 4 = 0b0010) ∧
    (0x4FFF : Word).extractLsb' 12 4 = 0b0100 ∧ (0x5FFF : Word).extractLsb' 12 4 = 0b0101 ∧
    (∀ k : Fin 8, ∃ w1 : Word, w1.extractLsb' 12 4 = 0b0110 ∧ w1.extractLsb' 2 3 = BitVec.ofNat 3 k) ∧
    (∀ k : Fin 8, ∃ w1 : Word, w1.extractLsb' 12 4 = 0b0111 ∧ w1.extractLsb' 2 3 = BitVec.ofNat 3 k) := by
  refine ⟨by decide, by decide, by decide, fun k => ⟨BitVec.ofNat 16 (0x6000 + 4 * k.val), ?_⟩,
    fun k => ⟨BitVec.ofNat 16 (0x7000 + 4 * k.val), ?_⟩⟩
  · revert k; decide
  · revert k; decide

theorem witness_JumpAndMiscWordsFollowTheOpcodeTable :
    (∀ k : Fin 16, ∃ w1 : Word, w1.extractLsb' 12 4 = 0b0001 ∧ w1.extractLsb' 8 4 = BitVec.ofNat 4 k) ∧
    (∀ a b : Bool, ∃ w1 : Word, w1.extractLsb' 11 5 = 0b00001 ∧ w1.getLsbD 8 = a ∧ w1.getLsbD 4 = b) ∧
    (∀ k : Fin 8, ∃ w1 : Word, w1.extractLsb' 11 5 = 0b00000 ∧ w1.extractLsb' 8 3 = BitVec.ofNat 3 k) := by
  refine ⟨fun k => ⟨BitVec.ofNat 16 (0x1000 + 256 * k.val), ?_⟩,
    fun a b => ⟨BitVec.ofNat 16 (0x0800 + 256 * a.toNat + 16 * b.toNat), ?_⟩, fun k => ⟨BitVec.ofNat 16 (256 * k.val), ?_⟩⟩
  · revert k; decide
  · revert a b; decide
  · revert k; decide

theorem witness_LengthComesFromTheFirstWord :
    lengthWords 0x0000 = 1 ∧ ((0x7FE7 : Word).extractLsb' 13 3 = 0b011 ∧ (0x7FE7 : Word).extractLsb' 2 3 = 0b001) := by
  decide

theorem witness_DecodingFailsOnlyOnTooFewBytes :
    (([0xBE] : List Byte).length < 2 ∧ lengthWords (wordOfBytes .big 0x25 0x00) = 2 ∧
      lengthWords (wordOfBytes .little 0x00 0x25) = 2) ∧
    2 ≤ ([0xBE, 0xEF] : List Byte).length ∧ lengthWords (wordOfBytes .big 0x00 0x00) = 1 := by decide

theorem witness_OperandsBecomeTheseValues :
    (0x7FFFFF : BitVec 24).toNat < 2 ^ 23 ∧ 2 ^ 23 ≤ (0x800000 : BitVec 24).toNat := by decide

/-- `base` with one instruction of one word (NOP) at pc, at the last word below the I/O range. -/
def oneWord : State := { base with pc := 0xFEFFFFFE, memory := [(0xFEFFFFFE, 0), (0xFEFFFFFF, 0)] }

/-- `base` with one instruction of two words (LDir r5 0xBEEF) at pc, its last word the last below the I/O range. -/
def twoWords : State :=
  { base with pc := 0xFEFFFFFC, memory := [(0xFEFFFFFC, 0x25), (0xFEFFFFFD, 0), (0xFEFFFFFE, 0xBE), (0xFEFFFFFF, 0xEF)] }

theorem witness_StepRunsTheDecodedInstruction :
    (oneWord.Undisturbed ∧ oneWord.run = .running ∧ oneWord.pfx = none ∧ oneWord.pc.toNat % 2 = 0 ∧
      oneWord.pc.toNat < 0xFF000000 ∧ oneWord.pc.toNat ∉ oneWord.written ∧
      oneWord.memory.wordAt oneWord.pc.toNat = some 0x0000 ∧ lengthWords 0x0000 = 1) ∧
    (twoWords.Undisturbed ∧ twoWords.run = .running ∧ twoWords.pfx = none ∧ twoWords.pc.toNat % 2 = 0 ∧
      twoWords.pc.toNat < 0xFF000000 ∧ twoWords.pc.toNat ∉ twoWords.written ∧
      twoWords.memory.wordAt twoWords.pc.toNat = some 0x2500 ∧ lengthWords 0x2500 = 2 ∧
      twoWords.pc.toNat + 2 < 0xFF000000 ∧ twoWords.pc.toNat + 2 ∉ twoWords.written ∧
      twoWords.memory.wordAt (twoWords.pc.toNat + 2) = some 0xBEEF) := by
  simp [State.Undisturbed, oneWord, twoWords, base, State.reset]; decide

/-- A two-word instruction whose second word is the first of the I/O range, so that only that one is a free word. -/
def mixedWords : State :=
  { base with pc := 0xFEFFFFFE, memory := [(0xFEFFFFFE, 0x25), (0xFEFFFFFF, 0)], hostEvents := [none, some .reset] }

theorem witness_UnwrittenWordsRunAsFreeWords :
    (mixedWords.Undisturbed ∧ mixedWords.run = .running ∧ mixedWords.pfx = none ∧ mixedWords.pc.toNat % 2 = 0 ∧
      mixedWords.pc.toNat ∉ mixedWords.written ∧ mixedWords.pc.toNat + 4 < 2 ^ 32 ∧
      mixedWords.pc.toNat + 2 ∉ mixedWords.written) ∧
    ReadsWord mixedWords mixedWords.pc 0x2500 0 ∧ lengthWords 0x2500 = 2 ∧
    ReadsWord { mixedWords with draws := mixedWords.draws + 0 } (mixedWords.pc + 2) (Config.freeWord mixedWords.draws) 1 ∧
    ReadsWord oneWord oneWord.pc 0x0000 0 ∧ lengthWords 0x0000 = 1 := by
  refine ⟨?_, .inl (by decide), by decide, .inr ⟨by decide, rfl, rfl⟩, .inl (by decide), by decide⟩
  simp only [State.Undisturbed, HostEvent.MayAct, mixedWords]
  simp [base, State.reset]

theorem witness_StepRefusesBeforeExecuting :
    (∀ s ∈ [{ base with pfx := some 7 }, { base with pc := 0x101 }, { base with written := [0x100] },
        { twoWords with written := [0xFEFFFFFE] }, { base with pc := 0xFFFFFFFE, written := [0x100] }],
      s.Undisturbed ∧ s.run = .running) ∧
    (({ base with pfx := some 7 } : State).pfx ≠ none) ∧
    (({ base with pc := 0x101 } : State).pfx = none ∧ ({ base with pc := 0x101 } : State).pc.toNat % 2 = 1) ∧
    (base.pc.toNat % 2 = 0 ∧ base.pc.toNat ∈ [0x100]) ∧
    (ReadsWord { twoWords with written := [0xFEFFFFFE] } twoWords.pc 0x2500 0 ∧ twoWords.pc.toNat ∉ [0xFEFFFFFE] ∧
      (twoWords.pc + 2).toNat ∈ [0xFEFFFFFE] ∧ lengthWords 0x2500 = 2) ∧
    (ReadsWord { base with pc := 0xFFFFFFFE, written := [0x100] } 0xFFFFFFFE (Config.freeWord base.draws) 1 ∧
      (0xFFFFFFFE : Addr).toNat ∉ [0x100] ∧ (0xFFFFFFFE + 2 : Addr).toNat ∉ [0x100] ∧
      2 ^ 32 ≤ (0xFFFFFFFE : Addr).toNat + 2 * lengthWords (Config.freeWord base.draws)) := by
  refine ⟨?_, by decide, by decide, by decide, ⟨.inl (by decide), by decide⟩,
    .inr ⟨by decide, rfl, rfl⟩, by decide, by decide, ?_⟩
  · simp [State.Undisturbed, base, twoWords, State.reset]
  · rcases lengthWords_eq_one_or_two (Config.freeWord base.draws) with h | h <;> simp [h]

theorem witness_HostEventsAct :
    ({ base with hostEvents := [some .reset] } : State).hostEvents = some .reset :: [] ∧
    (({ base with hostEvents := [some .resume], run := .halted } : State).run = .halted ∧
      ({ base with hostEvents := [some .resume], run := .dma } : State).run ≠ .halted) ∧
    (({ base with hostEvents := [some .dmaDone], run := .dma } : State).run = .dma ∧
      ({ base with hostEvents := [some .dmaDone], run := .halted } : State).run ≠ .dma) ∧
    (({ base with hostEvents := [some (.dmaWrite 0xFFFFFFFE 7)], run := .dma } : State).hostEvents =
        some (.dmaWrite 0xFFFFFFFE 7) :: [] ∧
      (0xFFFFFFFE : Addr).toNat % 2 = 0 ∧ (0xFFFFFFFF : Addr).toNat % 2 = 1) ∧
    (base.hostEvents = [] ∧ base.run = .running ∧
      ({ base with hostEvents := [none], run := .halted } : State).hostEvents = none :: []) := by decide

theorem witness_PlacedInstructionRunsNext :
    State.reset.pc.toNat % 2 = 0 ∧ State.reset.pc.toNat + 2 < 0xFF000000 ∧
    decodeTableWord 32 0xBEEF2500 = some (.ldir 5 0xBEEF) := by decide

theorem witness_StepKeepsGoodStates :
    ({ base with run := .halted } : State).Good ∧ nextHas (step { base with run := .halted }) (fun _ => true) = true :=
  ⟨⟨by simp [base, State.reset, Memory.wf], by simp [base, State.reset, Memory.InSpace],
    by simp [base, State.reset, Memory.WholeWords], by decide, by simp [base, State.reset],
    by simp [base, State.reset], by simp [base, State.reset]⟩, by decide⟩

theorem witness_MovWritesMemoryPointerHalves : 2 ≤ (2 : RegNo).toNat ∧ 2 ≤ (7 : RegNo).toNat := by decide

theorem witness_HalfWritesOfPcAreRefused :
    (0 : RegNo).toNat < 2 ∧ (1 : RegNo).toNat < 2 ∧ InPc ⟨.mp, 0⟩ ∧ InPc ⟨.mp, 1⟩ ∧ Pair.sp ≠ .pc := by
  simp only [InPc]
  decide

theorem witness_MovBetweenGprsCopies :
    (0x3147 : Word).extractLsb' 11 5 = 0b00110 ∧ (0x3147 : Word).extractLsb' 3 2 = 0b00 := by decide

theorem witness_SubtractionWithCarryIsExact :
    ({ base with subCarry := .borrow } : State).subCarry = .borrow ∧
    ({ base with subCarry := .notBorrow } : State).subCarry = .notBorrow ∧ base.subCarry = .unspecified := by decide

theorem witness_SrMovesAndMdbReads :
    base.srLayout = none ∧ ({ base with srLayout := some ⟨0, 1, 2, 15⟩ } : State).srLayout = some ⟨0, 1, 2, 15⟩ ∧
    (⟨0, 1, 2, 15⟩ : SrLayout).Distinct ∧ (7 : BitVec 4) ∉ (⟨0, 1, 2, 15⟩ : SrLayout).positions ∧
    nextHas (exec (.movsSrR 5) { base with srLayout := some ⟨0, 1, 2, 15⟩ }) (fun _ => true) = true ∧
    nextHas (exec (.movsRSr 5) { base with srLayout := some ⟨0, 1, 2, 15⟩ }) (fun _ => true) = true := by
  simp only [SrLayout.Distinct]
  decide

theorem witness_MdbIsWrittenFromAGpr :
    (0x3FAE : Word).extractLsb' 12 4 = 0b0011 ∧ (0x3FAE : Word).extractLsb' 0 5 = 0b01110 := by decide

theorem witness_IvbIsWrittenFromAGpr :
    (0x3FAF : Word).extractLsb' 12 4 = 0b0011 ∧ (0x3FAF : Word).extractLsb' 0 5 = 0b01111 := by decide

theorem witness_IvbCannotBeRead :
    (0x320B : Word).extractLsb' 12 4 = 0b0011 ∧ (0x320B : Word).extractLsb' 0 4 = 0b1011 ∧
    (0x3FFB : Word).extractLsb' 12 4 = 0b0011 ∧ (0x3FFB : Word).extractLsb' 0 4 = 0b1011 := by decide

theorem witness_LdirLoadsTheSecondWord :
    (0x25FF : Word).extractLsb' 11 5 = 0b00100 ∧
    (({ base with pfx := some 0 } : State).Undisturbed ∧ ({ base with pfx := some 0 } : State).run = .running ∧
      ({ base with pfx := some 0 } : State).pfx ≠ none) := by
  simp [State.Undisturbed, base, State.reset]

theorem witness_LdimLoadsAPairOrJumps : (0x1FFFFFE : BitVec 25).toNat % 2 = 0 ∧ (0x1FFFFFF : BitVec 25).toNat % 2 = 1 := by
  decide

theorem witness_DirectLoadsReadTheWord : 2 ≤ (2 : RegNo).toNat := by decide

theorem witness_IndirectLoadsKeepThePair :
    ¬ InPc ⟨.gpr, 0⟩ ∧ ¬ InPc ⟨.mp, 2⟩ ∧
    (readPair 1 .sp (ptrs 2)).toNat % 2 = 0 ∧ (readPair 2 .pc (ptrs 2)).toNat % 2 = 0 ∧
    (readPair 1 .sp (ptrs 2) + offset16 ((ptrs 2).x[(1 : RegNo).toNat]'(by decide))).toNat % 2 = 0 ∧
    (readPair 2 .bp (ptrs 2) + offset16 0xFFFE).toNat % 2 = 0 := by
  simp only [InPc]
  decide

theorem witness_IndirectLoadsUpdateThePair :
    ¬ InPc ⟨.mp, 7⟩ ∧ ¬ InPair ⟨.mp, 7⟩ .sp ∧ Pair.sp ≠ .pc ∧
    (readPair 1 .sp (ptrs 2)).toNat % 2 = 0 ∧ (readPair 2 .sp (ptrs 2)).toNat % 2 = 0 ∧
    (readPair 1 .sp (ptrs 2) + offset16 ((ptrs 2).x[(1 : RegNo).toNat]'(by decide))).toNat % 2 = 0 ∧
    (readPair 2 .sp (ptrs 2) + offset16 0xFFFE).toNat % 2 = 0 := by
  simp only [InPc, InPair]
  decide

theorem witness_IndirectStoresKeepThePair :
    (readPair 1 .pc (ptrs 2)).toNat % 2 = 0 ∧ (readPair 2 .bp (ptrs 2)).toNat % 2 = 0 ∧
    (readPair 1 .fp (ptrs 2) + offset16 ((ptrs 2).x[(1 : RegNo).toNat]'(by decide))).toNat % 2 = 0 ∧
    (readPair 2 .bp (ptrs 2) + offset16 0xEFFE).toNat % 2 = 0 := by decide

theorem witness_IndirectStoresUpdateThePair :
    ¬ InPair ⟨.mp, 1⟩ .sp ∧ Pair.sp ≠ .pc ∧
    (readPair 1 .sp (ptrs 2)).toNat % 2 = 0 ∧ (readPair 2 .sp (ptrs 2)).toNat % 2 = 0 ∧
    (readPair 1 .sp (ptrs 2) + offset16 ((ptrs 2).x[(1 : RegNo).toNat]'(by decide))).toNat % 2 = 0 ∧
    (readPair 2 .sp (ptrs 2) + offset16 0xFFFE).toNat % 2 = 0 := by
  simp only [InPair]
  decide

theorem witness_UpdatingAccessesAreRefused :
    (Pair.pc = .pc) ∧ (Pair.sp ≠ .pc ∧ InPair ⟨.mp, 2⟩ .sp) ∧ (Pair.bp ≠ .pc ∧ InPair ⟨.mp, 7⟩ .bp) := by
  simp only [InPair]
  decide

theorem witness_OddDataAddressesAreRefused :
    let s : State := { ptrs 1 with sp := 0xFFD }
    (readPair 1 .sp s).toNat % 2 = 1 ∧ (readPair 2 .sp s).toNat % 2 = 1 ∧
    (readPair 1 .fp s + offset16 (s.x[(1 : RegNo).toNat]'(by decide))).toNat % 2 = 1 ∧
    (readPair 2 .fp s + offset16 0xFFFF).toNat % 2 = 1 ∧ s.sp.toNat % 2 = 1 ∧
    ¬ InPc ⟨.mp, 7⟩ ∧ ¬ InPair ⟨.mp, 7⟩ .sp ∧ ¬ InPair ⟨.mp, 7⟩ .fp ∧ Pair.sp ≠ .pc ∧ Pair.fp ≠ .pc := by
  simp only [InPc, InPair]
  decide

theorem witness_LoadReturnsTheStoredWord : (0x7FFFFF : BitVec 24).toNat < 2 ^ 23 := by decide

theorem witness_StoredWordsAreNotFetched :
    nextHas (exec (.stdR 2 0x000200) (ptrs 0)) (fun t => t.memory.read 0x400 == some 0xDE && (ptrs 0).memory.read 0x400 == none) =
      true ∧
    StoresWord base 0x102 7 (memWrite 0x102 7 base) ∧ (0x102 : Addr).toNat < 0xFF000000 ∧ (0x102 : Addr).toNat % 2 = 0 ∧
    StoresWord mixedWords 0 7 (memWrite 0 7 mixedWords) ∧ (0 - 2 : Addr).toNat ∉ (memWrite 0 7 mixedWords).written ∧
    StoresWord twoWords 0xFEFFFFFE 7 (memWrite 0xFEFFFFFE 7 twoWords) ∧
    (0xFEFFFFFE - 2 : Addr).toNat ∉ (memWrite 0xFEFFFFFE 7 twoWords).written ∧
    ReadsWord { memWrite 0xFEFFFFFE 7 twoWords with pfx := none, run := .running, hostEvents := [] } (0xFEFFFFFE - 2) 0x2500 0 ∧
    lengthWords 0x2500 = 2 ∧ (0x7FFFFF : BitVec 24).toNat < 2 ^ 23 :=
  ⟨by decide, memWrite_stores .., by decide, by decide, memWrite_stores .., by decide, memWrite_stores .., by decide,
    .inl (by decide), by decide, by decide⟩

theorem witness_JumpGoesToTheTarget :
    (BitVec.ofInt 32 (base.pc.toNat + 4 + (0x7FFFFE : BitVec 24).toInt)).toNat % 2 = 0 ∧
    (BitVec.ofInt 32 (base.pc.toNat + 4 + (0x800001 : BitVec 24).toInt)).toNat % 2 = 1 := by decide

theorem witness_ConditionalJumpsTestOneFlag :
    let one : State := { base with flags := ⟨true, true, true, true⟩ }
    (base.flags.z = false ∧ base.flags.n = false ∧ base.flags.o = false ∧ base.flags.c = false) ∧
    (one.flags.z = true ∧ one.flags.n = true ∧ one.flags.o = true ∧ one.flags.c = true) ∧
    (BitVec.ofInt 32 (one.pc.toNat + 4 + (0xFFFFFE : BitVec 24).toInt)).toNat % 2 = 0 ∧
    (BitVec.ofInt 32 (one.pc.toNat + 4 + (0xFFFFFF : BitVec 24).toInt)).toNat % 2 = 1 := by decide

theorem witness_JsrStoresTheReturnAddress :
    (jsrStoreAddr { base with sp := 0xFFFFFFFE }).toNat % 2 = 0 ∧
    (BitVec.ofInt 32 (base.pc.toNat + 4 + (6 : BitVec 24).toInt)).toNat % 2 = 0 ∧
    (BitVec.ofInt 32 (base.pc.toNat + 4 + (7 : BitVec 24).toInt)).toNat % 2 = 1 := by decide

theorem witness_AddressArithmeticAddsToThePair :
    (BitVec.ofInt 32 (base.pc.toNat + 2 + ((gprs 0 0 0x8000 0 0 0 0 0).x[(2 : RegNo).toNat]'(by decide)).toInt)).toNat % 2 = 0 ∧
    (BitVec.ofInt 32 (base.pc.toNat + 2 + ((gprs 0 0 0x7FFF 0 0 0 0 0).x[(2 : RegNo).toNat]'(by decide)).toInt)).toNat % 2 = 1 := by
  decide

theorem witness_NopAdvancesOneWord :
    (0x00FF : Word).extractLsb' 8 8 = 0 ∧
    (({ base with pfx := some 0 } : State).Undisturbed ∧ ({ base with pfx := some 0 } : State).run = .running ∧
      ({ base with pfx := some 0 } : State).pfx ≠ none) := by
  simp [State.Undisturbed, base, State.reset]

theorem witness_HltAndDmaStopTheClock :
    (({ base with run := .halted } : State).Undisturbed ∧ ({ base with run := .halted } : State).run = .halted) ∧
    (({ base with run := .dma, hostEvents := [some .resume] } : State).Undisturbed ∧
      ({ base with run := .dma, hostEvents := [some .resume] } : State).run = .dma) ∧
    ({ base with run := .halted, hostEvents := [none, some .dmaDone] } : State).Final ∧
    ({ base with run := .dma } : State).Final ∧ ({ base with run := .halted } : State).hostEvents = [] := by
  simp [State.Undisturbed, State.Final, State.EndsRun, State.NoHost, HostEvent.MayAct, base, State.reset]

theorem witness_SetprRecordsThePrefix :
    exec (.setpr 7) base = .next { base with pc := 0x102, pfx := some 7 } ∧
    ({ base with pc := 0x102, pfx := some 7 } : State).Undisturbed ∧
    ({ base with pc := 0x102, pfx := some 7 } : State).run = .running := by
  refine ⟨rfl, ?_⟩
  simp [State.Undisturbed, base, State.reset]

theorem witness_SetimSetsOneMask : (0x071F : Word).extractLsb' 8 8 = 0b00000111 := by decide

theorem witness_OnlyAluSrAndResetChangeFlags :
    WritesFlags (.addpi .sp 4) = false ∧ nextHas (exec (.addpi .sp 4) base) (fun _ => true) = true := by decide

theorem witness_OnlyStoresChangeMemory :
    StoresMemory (.ldir 0 1) = false ∧ nextHas (exec (.ldir 0 1) base) (fun _ => true) = true ∧
    Instr.ldir 0 1 ≠ .dma ∧ Instr.ldir 0 1 ≠ .reset := by decide

theorem witness_ControlRegistersHaveTheirOwnWriters :
    Instr.nop ≠ .reset ∧ exec .nop base = .next { base with pc := 0x102 } ∧ (∀ r, Instr.nop ≠ .movsMdbR r) ∧
    (∀ r, Instr.nop ≠ .movsIvbR r) ∧ (∀ n, Instr.nop ≠ .setpr n) ∧ Instr.nop ≠ .hlt ∧ Instr.nop ≠ .dma ∧
    (∀ r, Instr.nop ≠ .movsSrR r) ∧ (∀ m, Instr.nop ≠ .setim m) ∧ (∀ m, Instr.nop ≠ .clrim m) :=
  ⟨by decide, rfl, by simp, by simp, by simp, by decide, by decide, by simp, by simp, by simp⟩

theorem witness_OnlyTheDestinationRegisterChanges :
    Instr.ldir 0 1 ≠ .reset ∧ gprTarget (.ldir 0 1) ≠ some 1 ∧
    nextHas (exec (.ldir 0 1) base) (fun _ => true) = true := by decide

theorem witness_OnlyJumpsLeaveTheSequence :
    MayJump (decodeWords 0x6207 0xFFFF) = false ∧
    nextHas (exec (decodeWords 0x6207 0xFFFF) (ptrs 0)) (fun _ => true) = true := by decide

theorem witness_ControlRegistersAreNeverRead :
    stopsWith (step { base with pc := 0x101 }) .oddPc = true ∧
    nextHas (step oneWord) (fun _ => true) = true := by decide

end Sys2Proof.Tests
end

section
/-! Proofs about the moves (41_mov.md): how a mov word's fixed bits select its instruction, what the moves between GPRs
and with IVB do, and the statements O24, O30 and O31. -/

namespace Sys2Proof.Proofs

open Sys2Proof.Machine

/-! ### Fields of a word of which a slice is known -/

/-- A slice inside a known slice: the part of the known value at the same places. -/
theorem bits_of_extractLsb' {v : Word} {start len : Nat} {c : BitVec len} (h : v.extractLsb' start len = c) {hi lo : Nat}
    (hlo : start ≤ lo) (hhi : hi < start + len) : bits v hi lo = (c.extractLsb' (lo - start) (hi + 1 - lo)).toNat := by
  rw [bits_eq_extract, ← h]
  congr 1
  apply BitVec.eq_of_getLsbD_eq
  intro k hk
  have hin : lo - start + k < len := by omega
  have hplace : start + (lo - start + k) = lo + k := by omega
  simp [BitVec.getLsbD_extractLsb', hin, hplace]

/-! ### Decoding of the words 0011 -/

/-- Every move is one word long (30_encoding.md R82). -/
theorem lengthWords_of_op3 {w1 : Word} (hop : bits w1 15 12 = 3) : lengthWords w1 = 1 := by
  simp [lengthWords, hop]

/-- Bit 3 = 0 is the regular form (30_encoding.md R84, F-MOV). -/
theorem decodeWords_mov {w1 : Word} (hop : bits w1 15 12 = 3) (hform : bits w1 3 3 = 0) (w2 : Word) :
    decodeWords w1 w2 = decodeMov w1 := by
  simp [decodeWords, hop, hform]

/-- Bit 3 = 1 is the special form (30_encoding.md R84, F-MOVS). -/
theorem decodeWords_movs {w1 : Word} (hop : bits w1 15 12 = 3) (hform : bits w1 3 3 = 1) (w2 : Word) :
    decodeWords w1 w2 = decodeMovs w1 := by
  simp [decodeWords, hop, hform]

theorem decodeMov_gpr_gpr {w1 : Word} (hdf : bits w1 11 11 = 0) (hsf : bits w1 4 4 = 0) :
    decodeMov w1 = .movRR (w1.extractLsb' 8 3) (w1.extractLsb' 5 3) := by
  simp [decodeMov, hdf, hsf, regAt_eq_extract]

theorem decodeMovs_write_ivb {w1 : Word} (hdir : bits w1 2 2 = 1) (hreg : bits w1 1 0 = 3) (hsf : bits w1 4 4 = 0) :
    decodeMovs w1 = .movsIvbR (w1.extractLsb' 5 3) := by
  simp [decodeMovs, hdir, hreg, hsf, regAt_eq_extract]

/-- A read of IVB: into a GPR it is MOVs rB IVB, with the file bit it is reserved (41_mov.md R161). -/
theorem decodeMovs_read_ivb {w1 : Word} (hdir : bits w1 2 2 = 0) (hreg : bits w1 1 0 = 3) :
    decodeMovs w1 = if bits w1 11 11 = 0 then .movsRIvb (w1.extractLsb' 8 3) else .rsv6ReadIvb := by
  simp [decodeMovs, hdir, hreg, regAt_eq_extract]

/-! ### What the moves do -/

theorem exec_movRR (d r : RegNo) (s : State) :
    exec (.movRR d r) s = .next (advance 1 (writeGpr d (readGpr r s) s)) := rfl

theorem exec_movsIvbR (r : RegNo) (s : State) :
    exec (.movsIvbR r) s = .next (advance 1 { s with ivb := readGpr r s }) := rfl

theorem exec_movsRIvb (d : RegNo) (s : State) : exec (.movsRIvb d) s = .refused .ivbCannotBeRead := rfl

theorem exec_rsv6ReadIvb (s : State) : exec .rsv6ReadIvb s = .refused .reservedEncoding := rfl

/-- A GPR written with its own value leaves the state as it is. -/
@[simp] theorem writeGpr_readGpr (i : RegNo) (s : State) : writeGpr i (readGpr i s) s = s := by
  simp only [writeGpr, readGpr, Vector.set_getElem_self]

/-! ### The statements -/

/-- Settles O24: the fixed bits 0011 0 and 0 0 select the regular form with both file bits 0, and the move is one write of a
GPR. -/
theorem movBetweenGprsCopies : Obligations.MovBetweenGprsCopies := by
  refine ⟨?layout, by decide, ?copy⟩
  case layout =>
    intro w1 w2 hhigh hmid
    have hop : bits w1 15 12 = 3 := bits_of_extractLsb' hhigh (by decide) (by decide)
    have hdf : bits w1 11 11 = 0 := bits_of_extractLsb' hhigh (by decide) (by decide)
    have hsf : bits w1 4 4 = 0 := bits_of_extractLsb' hmid (by decide) (by decide)
    have hform : bits w1 3 3 = 0 := bits_of_extractLsb' hmid (by decide) (by decide)
    exact ⟨lengthWords_of_op3 hop, (decodeWords_mov hop hform w2).trans (decodeMov_gpr_gpr hdf hsf)⟩
  case copy =>
    intro s d r
    exact ⟨exec_movRR d r s, congrArg State.x (writeGpr_readGpr d s)⟩

/-- Settles O30: the fixed bits 0011 and 0 1111 select the special form, its write direction and IVB from a GPR, and the move
is one write of the IVB field. -/
theorem ivbIsWrittenFromAGpr : Obligations.IvbIsWrittenFromAGpr := by
  refine ⟨?layout, by decide, ?write⟩
  case layout =>
    intro w1 w2 hhigh hlow
    have hop : bits w1 15 12 = 3 := bits_of_extractLsb' hhigh (by decide) (by decide)
    have hsf : bits w1 4 4 = 0 := bits_of_extractLsb' hlow (by decide) (by decide)
    have hform : bits w1 3 3 = 1 := bits_of_extractLsb' hlow (by decide) (by decide)
    have hdir : bits w1 2 2 = 1 := bits_of_extractLsb' hlow (by decide) (by decide)
    have hreg : bits w1 1 0 = 3 := bits_of_extractLsb' hlow (by decide) (by decide)
    exact ⟨lengthWords_of_op3 hop, (decodeWords_movs hop hform w2).trans (decodeMovs_write_ivb hdir hreg hsf)⟩
  case write => exact fun s r => exec_movsIvbR r s

/-- Settles O31: a word of this layout reads IVB, and is refused as such with file bit 0, as a reserved encoding with file
bit 1. -/
theorem ivbCannotBeRead : Obligations.IvbCannotBeRead := by
  refine ⟨fun s d => exec_movsRIvb d s, by decide, ?anyWord⟩
  intro w1 w2 s hhigh hlow
  have hop : bits w1 15 12 = 3 := bits_of_extractLsb' hhigh (by decide) (by decide)
  have hform : bits w1 3 3 = 1 := bits_of_extractLsb' hlow (by decide) (by decide)
  have hdir : bits w1 2 2 = 0 := bits_of_extractLsb' hlow (by decide) (by decide)
  have hreg : bits w1 1 0 = 3 := bits_of_extractLsb' hlow (by decide) (by decide)
  rw [decodeWords_movs hop hform, decodeMovs_read_ivb hdir hreg]
  split
  case isTrue => exact ⟨_, exec_movsRIvb _ s⟩
  case isFalse => exact ⟨_, exec_rsv6ReadIvb s⟩

end Sys2Proof.Proofs
end

section
/-! Proofs about the interrupt masks (47_misc.md R256, R257): what a mask reads after a mask is written, how a miscellaneous
word's fixed bits select its instruction, and the statement O52. -/

namespace Sys2Proof.Proofs

open Sys2Proof.Machine

/-! ### The masks -/

/-- IM[k] after IM[m] <- b. -/
theorem writeMask_im_getElem (m k : RegNo) (b : Bool) (s : State) :
    (writeMask m b s).im[k.toNat]'k.isLt = if k = m then b else s.im[k.toNat]'k.isLt := by
  simp only [writeMask, Vector.getElem_set, BitVec.toNat_inj, eq_comm (a := m)]

/-! ### Decoding of the words 0000 0 -/

/-- Every miscellaneous instruction is one word long (30_encoding.md R82). -/
theorem lengthWords_of_misc {w1 : Word} (hop : bits w1 15 12 = 0) (hform : bits w1 11 11 = 0) : lengthWords w1 = 1 := by
  simp [lengthWords, hop, hform]

/-- Bit 11 = 0 is the miscellaneous form (30_encoding.md R84, F-MISC). -/
theorem decodeWords_misc {w1 : Word} (hop : bits w1 15 12 = 0) (hform : bits w1 11 11 = 0) (w2 : Word) :
    decodeWords w1 w2 = decodeMisc w1 := by
  simp [decodeWords, hop, hform]

theorem decodeMisc_setim {w1 : Word} (hmop : bits w1 10 8 = 7) : decodeMisc w1 = .setim (w1.extractLsb' 5 3) := by
  simp [decodeMisc, hmop, regAt_eq_extract]

/-! ### What SETIM does -/

theorem exec_setim (m : RegNo) (s : State) : exec (.setim m) s = .next (advance 1 (writeMask m true s)) := rfl

/-! ### The statement -/

/-- Settles O52: the fixed bits 0000 0111 select the miscellaneous form and SETIM, which is one write of a mask. -/
theorem setimSetsOneMask : Obligations.SetimSetsOneMask := by
  refine ⟨?layout, by decide, ?mask⟩
  case layout =>
    intro w1 w2 hhigh
    have hop : bits w1 15 12 = 0 := bits_of_extractLsb' hhigh (by decide) (by decide)
    have hform : bits w1 11 11 = 0 := bits_of_extractLsb' hhigh (by decide) (by decide)
    have hmop : bits w1 10 8 = 7 := bits_of_extractLsb' hhigh (by decide) (by decide)
    exact ⟨lengthWords_of_misc hop hform, (decodeWords_misc hop hform w2).trans (decodeMisc_setim hmop)⟩
  case mask =>
    intro s m
    exact ⟨(writeMask m true s).im, exec_setim m s, fun k => writeMask_im_getElem m k true s⟩

end Sys2Proof.Proofs
end


section
/-! Everything one instruction can do: `Does`, an inversion of `exec` by effect instead of by instruction. The statements
about the whole machine (what is kept, what has its own writers, where pc goes) are read off its thirteen cases. -/

namespace Sys2Proof.Proofs

open Sys2Proof.Machine

/-! ### Which shared operation an instruction is -/

theorem exec_movRR_moveReg (d r : RegNo) (s : State) : exec (.movRR d r) s = moveReg ⟨.gpr, d⟩ ⟨.gpr, r⟩ s := rfl
theorem exec_movMM (d r : RegNo) (s : State) : exec (.movMM d r) s = moveReg ⟨.mp, d⟩ ⟨.mp, r⟩ s := rfl
theorem exec_movMR (d r : RegNo) (s : State) : exec (.movMR d r) s = moveReg ⟨.mp, d⟩ ⟨.gpr, r⟩ s := rfl
theorem exec_movRM (d r : RegNo) (s : State) : exec (.movRM d r) s = moveReg ⟨.gpr, d⟩ ⟨.mp, r⟩ s := rfl
theorem exec_lddR (d : RegNo) (a : BitVec 24) (s : State) : exec (.lddR d a) s = directLoad ⟨.gpr, d⟩ a s := rfl
theorem exec_lddM (d : RegNo) (a : BitVec 24) (s : State) : exec (.lddM d a) s = directLoad ⟨.mp, d⟩ a s := rfl
theorem exec_stdR (r : RegNo) (a : BitVec 24) (s : State) : exec (.stdR r a) s = directStore ⟨.gpr, r⟩ a s := rfl
theorem exec_stdM (r : RegNo) (a : BitVec 24) (s : State) : exec (.stdM r a) s = directStore ⟨.mp, r⟩ a s := rfl

section
variable (r : Reg) (p : Pair) (o : RegNo) (off : Word) (s : State)

theorem exec_ld : exec (.ld r p) s = indirectLoad false false 1 r p 0 s := rfl
theorem exec_ldStar : exec (.ldStar r p) s = indirectLoad false false 2 r p 0 s := rfl
theorem exec_ldr : exec (.ldr r p o) s = indirectLoad false true 1 r p (offset16 (readGpr o s)) s := rfl
theorem exec_ldo : exec (.ldo r p off) s = indirectLoad false true 2 r p (offset16 off) s := rfl
theorem exec_ldpostr : exec (.ldpostr r p o) s = indirectLoad true false 1 r p (offset16 (readGpr o s)) s := rfl
theorem exec_ldposto : exec (.ldposto r p off) s = indirectLoad true false 2 r p (offset16 off) s := rfl
theorem exec_ldprer : exec (.ldprer r p o) s = indirectLoad true true 1 r p (offset16 (readGpr o s)) s := rfl
theorem exec_ldpreo : exec (.ldpreo r p off) s = indirectLoad true true 2 r p (offset16 off) s := rfl
theorem exec_st : exec (.st r p) s = indirectStore false false 1 r p 0 s := rfl
theorem exec_stStar : exec (.stStar r p) s = indirectStore false false 2 r p 0 s := rfl
theorem exec_str : exec (.str r p o) s = indirectStore false true 1 r p (offset16 (readGpr o s)) s := rfl
theorem exec_sto : exec (.sto r p off) s = indirectStore false true 2 r p (offset16 off) s := rfl
theorem exec_stpostr : exec (.stpostr r p o) s = indirectStore true false 1 r p (offset16 (readGpr o s)) s := rfl
theorem exec_stposto : exec (.stposto r p off) s = indirectStore true false 2 r p (offset16 off) s := rfl
theorem exec_stprer : exec (.stprer r p o) s = indirectStore true true 1 r p (offset16 (readGpr o s)) s := rfl
theorem exec_stpreo : exec (.stpreo r p off) s = indirectStore true true 2 r p (offset16 off) s := rfl

end

theorem exec_j (off : BitVec 24) (s : State) : exec (.j off) s = jumpIf true off s := rfl

/-! ### The length of an instruction -/

/-- The number of words of an instruction: that of its encoding (30_encoding.md R82), and one for TST, which has none but is
an ALU instruction (40_alu.md R137). -/
def wordsOf (i : Instr) : Nat :=
  match encode i with
  | some ws => ws.length
  | none => 1

/-! ### The effects -/

/-- `Does i s t`: `t` is a state that instruction `i` may leave at state `s`, by the kind of its effect. -/
inductive Does : Instr → State → State → Prop
  /-- An ALU operation: a result for its destination, the flags, and free bits. -/
  | alu {i : Instr} {s : State} (dst : Option RegNo) (res : Word) (f : Flags) (n : Nat)
      (hf : WritesFlags i = true) (hd : gprTarget i = dst) (hw : wordsOf i = 1) :
      Does i s (advance 1 { writeResult dst res { s with draws := s.draws + n } with flags := f })
  /-- A move or a load: a register outside PC written, free words drawn, the base pair updated where the form updates. -/
  | load {i : Instr} {s : State} (u : Bool) (p : Pair) (sum : Addr) (r : Reg) (v : Word) (n : Nat)
      (hu : u = true → p ≠ .pc) (ht : r.file = .gpr → gprTarget i = some r.num) :
      Does i s (advance (wordsOf i) (updatePair u p sum (writeReg r v { s with draws := s.draws + n })))
  /-- A store of one word at an even address, the base pair updated where the form updates. -/
  | store {i : Instr} {s : State} (u : Bool) (p : Pair) (sum ea : Addr) (v : Word)
      (hu : u = true → p ≠ .pc) (he : ea.toNat % 2 = 0) (hs : StoresMemory i = true) :
      Does i s (advance (wordsOf i) (updatePair u p sum (memWrite ea v s)))
  /-- JSR: two words stored, then a jump. -/
  | call {s : State} (off : BitVec 24) (ea target : Addr) (hi lo : Word) (he : ea.toNat % 2 = 0)
      (ht : target.toNat % 2 = 0) :
      Does (.jsr off) s { memWrite (ea + 2) lo (memWrite ea hi s) with pc := target }
  /-- A jump to an even target. -/
  | jump {i : Instr} {s : State} (target : Addr) (ht : target.toNat % 2 = 0) (hj : MayJump i = true) :
      Does i s { s with pc := target }
  /-- At most a pair other than PC written: LDim, Address Arithmetic, NOP, and a jump not taken. -/
  | pair {i : Instr} {s : State} (u : Bool) (p : Pair) (v : Addr) (hu : u = true → p ≠ .pc) :
      Does i s (advance (wordsOf i) (updatePair u p v s))
  | writeSr {s : State} (r : RegNo) (f : Flags) (rest : Word) :
      Does (.movsSrR r) s (advance 1 { s with flags := f, srRest := rest })
  | writeMdb {s : State} (r : RegNo) (v : Word) : Does (.movsMdbR r) s (advance 1 { s with mdb := v })
  | writeIvb {s : State} (r : RegNo) (v : Word) : Does (.movsIvbR r) s (advance 1 { s with ivb := v })
  | setpr {s : State} (n : RegNo) : Does (.setpr n) s (advance 1 { s with pfx := some n })
  | mask {i : Instr} {s : State} (m : RegNo) (b : Bool) (hw : wordsOf i = 1)
      (hi : i = .setim m ∨ i = .clrim m) :
      Does i s (advance 1 (writeMask m b s))
  | hlt {s : State} : Does .hlt s { advance 1 s with run := .halted }
  | dma {s : State} : Does .dma s { advance 1 s with run := .dma, written := [] }
  | reset {s : State} : Does .reset s (resetCpu s)

/-! ### Each shared operation has its effect -/

theorem Does.of_aluAdd {i : Instr} {dst : Option RegNo} {a b : Word} {cin : Bool} {s t : State}
    (h : aluAdd dst a b cin s = .next t) (hf : WritesFlags i = true) (hd : gprTarget i = dst) (hw : wordsOf i = 1) :
    Does i s t := by
  obtain rfl := aluAdd_next h
  exact .alu dst _ _ 0 hf hd hw

theorem Does.of_aluSub {i : Instr} {dst : Option RegNo} {a b : Word} {bin : Bool} {s t : State}
    (h : aluSub dst a b bin s = .next t) (hf : WritesFlags i = true) (hd : gprTarget i = dst) (hw : wordsOf i = 1) :
    Does i s t := by
  obtain ⟨r, -, rfl⟩ := aluSub_next h
  exact .alu dst _ _ 1 hf hd hw

theorem Does.of_aluLogic {i : Instr} {dst : Option RegNo} {res : Word} {s t : State}
    (h : aluLogic dst res s = .next t) (hf : WritesFlags i = true) (hd : gprTarget i = dst) (hw : wordsOf i = 1) :
    Does i s t := by
  obtain ⟨f, -, rfl⟩ := aluLogic_next h
  exact .alu dst _ _ 2 hf hd hw

theorem Does.of_moveReg {i : Instr} {d r : Reg} {s t : State}
    (h : moveReg d r s = .next t) (ht : d.file = .gpr → gprTarget i = some d.num) (hw : wordsOf i = 1) :
    Does i s t := by
  obtain ⟨-, rfl⟩ := moveReg_next h
  exact hw ▸ .load false .pc 0 d _ 0 nofun ht

theorem Does.of_moveDraw {i : Instr} {d : RegNo} {s t : State}
    (h : moveDraw d s = .next t) (ht : gprTarget i = some d) (hw : wordsOf i = 1) : Does i s t := by
  obtain rfl := Host.Outcome.next.inj h
  have hd := Does.load (i := i) (s := s) false .pc 0 ⟨.gpr, d⟩ (Config.freeWord s.draws) 1 nofun fun _ => ht
  rwa [hw] at hd

theorem Does.of_directLoad {i : Instr} {r : Reg} {a : BitVec 24} {s t : State}
    (h : directLoad r a s = .next t) (ht : r.file = .gpr → gprTarget i = some r.num) (hw : wordsOf i = 2) :
    Does i s t := by
  obtain ⟨-, v, n, -, rfl⟩ := directLoad_next h
  exact hw ▸ .load false .pc 0 r v n nofun ht

theorem Does.of_indirectLoad {i : Instr} {u pre : Bool} {len : Nat} {r : Reg} {p : Pair} {off : Addr} {s t : State}
    (h : indirectLoad u pre len r p off s = .next t)
    (ht : gprTarget i = if r.file = .gpr then some r.num else none) (hw : wordsOf i = len) :
    Does i s t := by
  subst hw
  obtain ⟨hu, -, -, v, n, -, rfl⟩ := indirectLoad_next h
  exact .load u p _ r v n (fun h => (hu h).1) fun hr => ht.trans (if_pos hr)

theorem Does.of_indirectStore {i : Instr} {u pre : Bool} {len : Nat} {r : Reg} {p : Pair} {off : Addr} {s t : State}
    (h : indirectStore u pre len r p off s = .next t) (hs : StoresMemory i = true) (hw : wordsOf i = len) :
    Does i s t := by
  subst hw
  obtain ⟨hu, he, rfl⟩ := indirectStore_next h
  exact .store u p _ _ _ (fun h => (hu h).1) he hs

/-- A word address with a 0 below it is even, sign-extended or not (43_direct_load_store.md R180). -/
theorem directAddr_toNat (a : BitVec 24) :
    (directAddr a).toNat = if a.toNat < 2 ^ 23 then 2 * a.toNat else 0xFF000000 + 2 * (a.toNat - 2 ^ 23) := by
  have ha := a.isLt
  have hlt : a.toNat * 2 < 2 ^ 25 := by omega
  simp only [directAddr, BitVec.toNat_signExtend, BitVec.toNat_setWidth, BitVec.msb_eq_decide, BitVec.toNat_ofNat,
    Nat.mod_eq_of_lt hlt, decide_eq_true_eq]
  split <;> split <;> omega

theorem directAddr_even (a : BitVec 24) : (directAddr a).toNat % 2 = 0 := by
  rw [directAddr_toNat]
  split <;> omega

theorem Does.of_directStore {i : Instr} {r : Reg} {a : BitVec 24} {s t : State}
    (h : directStore r a s = .next t) (hs : StoresMemory i = true) (hw : wordsOf i = 2) : Does i s t := by
  obtain rfl := Host.Outcome.next.inj h
  exact hw ▸ .store false .pc 0 _ _ nofun (directAddr_even a) hs

theorem Does.of_jumpIf {i : Instr} {c : Bool} {off : BitVec 24} {s t : State}
    (h : jumpIf c off s = .next t) (hj : MayJump i = true) (hw : wordsOf i = 2) : Does i s t := by
  rcases jumpIf_next h with ⟨-, he, rfl⟩ | ⟨-, rfl⟩
  · exact .jump _ he hj
  · exact hw ▸ .pair false .pc 0 nofun

theorem Does.of_assignPair {i : Instr} {len : Nat} {p : Pair} {v : Addr} {s t : State}
    (h : assignPair len p v s = .next t) (hj : p = .pc → MayJump i = true) (hw : wordsOf i = len) : Does i s t := by
  rcases assignPair_next h with ⟨hp, he, rfl⟩ | ⟨hp, rfl⟩
  · exact .jump _ he (hj hp)
  · exact hw ▸ .pair true p v fun _ => hp

theorem Does.of_movsRSr {d : RegNo} {s t : State} (h : execMovsRSr d s = .next t) : Does (.movsRSr d) s t := by
  rcases execMovsRSr_next h with ⟨l, -, rfl⟩ | ⟨-, rfl⟩
  · exact .load false .pc 0 ⟨.gpr, d⟩ _ 0 nofun fun _ => rfl
  · exact .load false .pc 0 ⟨.gpr, d⟩ _ 1 nofun fun _ => rfl

/-- Everything an instruction that answers a next state can have done. -/
theorem exec_does {i : Instr} {s t : State} (h : exec i s = .next t) : Does i s t := by
  cases i
  case addi | add | addc | cmn => exact .of_aluAdd h rfl rfl rfl
  case subi | sub | cmp => exact .of_aluSub h rfl rfl rfl
  case subc =>
    obtain ⟨bin, -, h⟩ := execSubc_next h
    exact .of_aluSub h rfl rfl rfl
  case xori | xnori | ori | orni | andi | andni | xor | xnor | or | orn | and | andn | teq | tcm | tst =>
    exact .of_aluLogic h rfl rfl rfl
  case movRR | movRM =>
    simp only [exec_movRR_moveReg, exec_movRM] at h
    exact .of_moveReg h (fun _ => rfl) rfl
  case movMM | movMR =>
    simp only [exec_movMM, exec_movMR] at h
    exact .of_moveReg h nofun rfl
  case movsRSr => exact .of_movsRSr h
  case movsRMdb => exact .of_moveDraw h rfl rfl
  case movsSrR r =>
    obtain ⟨l, -, rfl⟩ := execMovsSrR_next h
    exact .writeSr r _ _
  case movsMdbR r => exact Host.Outcome.next.inj h ▸ .writeMdb r _
  case movsIvbR r => exact Host.Outcome.next.inj h ▸ .writeIvb r _
  case ldir d v => exact Host.Outcome.next.inj h ▸ .load false .pc 0 ⟨.gpr, d⟩ v 0 nofun fun _ => rfl
  case ldim p v => exact .of_assignPair h (by rintro rfl; rfl) rfl
  case addp p r => exact .of_assignPair h (by rintro rfl; rfl) rfl
  case addpi p off => exact .of_assignPair h (by rintro rfl; rfl) rfl
  case lddR d a => exact .of_directLoad ((exec_lddR d a s).symm.trans h) (fun _ => rfl) rfl
  case lddM d a => exact .of_directLoad ((exec_lddM d a s).symm.trans h) nofun rfl
  case stdR | stdM => exact .of_directStore h rfl rfl
  case ld | ldStar | ldr | ldo | ldpostr | ldposto | ldprer | ldpreo =>
    simp only [exec_ld, exec_ldStar, exec_ldr, exec_ldo, exec_ldpostr, exec_ldposto, exec_ldprer, exec_ldpreo] at h
    exact .of_indirectLoad h rfl rfl
  case st | stStar | str | sto | stpostr | stposto | stprer | stpreo =>
    simp only [exec_st, exec_stStar, exec_str, exec_sto, exec_stpostr, exec_stposto, exec_stprer, exec_stpreo] at h
    exact .of_indirectStore h rfl rfl
  case j off => exact .of_jumpIf ((exec_j off s).symm.trans h) rfl rfl
  case jz | jn | jo | jc | jnz | jnn | jno | jnc => exact .of_jumpIf h rfl rfl
  case jsr off =>
    obtain ⟨he, ht, rfl⟩ := execJsr_next h
    exact .call off _ _ _ _ he ht
  case nop => exact Host.Outcome.next.inj h ▸ .pair false .pc 0 nofun
  case hlt => exact Host.Outcome.next.inj h ▸ .hlt
  case reset => exact Host.Outcome.next.inj h ▸ .reset
  case dma => exact Host.Outcome.next.inj h ▸ .dma
  case setpr n => exact Host.Outcome.next.inj h ▸ .setpr n
  case clrim m => exact Host.Outcome.next.inj h ▸ .mask m false rfl (.inr rfl)
  case setim m => exact Host.Outcome.next.inj h ▸ .mask m true rfl (.inl rfl)
  all_goals exact nomatch h

end Sys2Proof.Proofs
end


section
/-! What every instruction keeps, read off its effect (`Does`): the flags, memory, the control registers, the general
registers and pc, with the statements O55 to O59. -/

namespace Sys2Proof.Proofs

open Sys2Proof.Machine

/-! ### pc through an update of a pair other than PC -/

theorem writePair_pc {p : Pair} (hp : p ≠ .pc) (v : Addr) (s : State) : (writePair p v s).pc = s.pc := by
  cases p <;> first | contradiction | rfl

theorem updatePair_pc {u : Bool} {p : Pair} (hu : u = true → p ≠ .pc) (v : Addr) (s : State) :
    (updatePair u p v s).pc = s.pc := by
  cases u
  · rfl
  · exact writePair_pc (hu rfl) v s

/-! ### The general registers through a write -/

theorem writeGpr_x_other {i k : RegNo} (h : i ≠ k) (v : Word) (s : State) :
    (writeGpr i v s).x[k.toNat]'k.isLt = s.x[k.toNat]'k.isLt :=
  readGpr_writeGpr_other v s h

theorem writeResult_x_other {d : Option RegNo} {k : RegNo} (h : d ≠ some k) (v : Word) (s : State) :
    (writeResult d v s).x[k.toNat]'k.isLt = s.x[k.toNat]'k.isLt := by
  cases d
  case none => rfl
  case some y => exact writeGpr_x_other (fun hy => h (congrArg some hy)) v s

theorem writeReg_x_other {r : Reg} {k : RegNo} (h : r.file = .gpr → r.num ≠ k) (v : Word) (s : State) :
    (writeReg r v s).x[k.toNat]'k.isLt = s.x[k.toNat]'k.isLt := by
  obtain ⟨f, n⟩ := r
  cases f
  case gpr => exact writeGpr_x_other (h rfl) v s
  case mp => simp

/-! ### The statements -/

/-- Settles O55: no effect but those of the ALU, MOVs SR rA and RESET touches the flags. -/
theorem onlyAluSrAndResetChangeFlags : Obligations.OnlyAluSrAndResetChangeFlags := by
  intro i s t hf h
  cases exec_does h
  case alu hf' _ _ => exact absurd hf' (by simp [hf])
  case writeSr | reset => exact Bool.noConfusion hf
  all_goals simp

/-- Settles O56: no effect but a store and JSR's two stores touches memory and the outputs. -/
theorem onlyStoresChangeMemory : Obligations.OnlyStoresChangeMemory := by
  intro i s t hs h
  cases exec_does h
  case store hs' => exact absurd hs' (by simp [hs])
  case call => exact Bool.noConfusion hs
  all_goals simp

/-- Settles O57: each control register is written by one effect, which only its own instructions have. -/
theorem controlRegistersHaveTheirOwnWriters : Obligations.ControlRegistersHaveTheirOwnWriters := by
  intro i s t hreset h
  cases exec_does h
  case reset => exact absurd rfl hreset
  case mask m b hw hi => rcases hi with rfl | rfl <;> simp
  all_goals simp

/-- Settles O58: the effects that write a general register write the one `gprTarget` names. -/
theorem onlyTheDestinationRegisterChanges : Obligations.OnlyTheDestinationRegisterChanges := by
  intro i s t k hreset hk h
  cases exec_does h
  case alu dst res f n hf hd hw => exact writeResult_x_other (hd ▸ hk) res _
  case load u p sum r v n hu ht =>
    simp only [advance_x, updatePair_x]
    exact writeReg_x_other (fun hr hn => hk ((ht hr).trans (congrArg some hn))) v _
  case reset => exact absurd rfl hreset
  all_goals simp

/-- An instruction that cannot jump leaves pc after its own words. -/
theorem exec_pc {i : Instr} {s t : State} (hj : MayJump i = false) (h : exec i s = .next t) :
    t.pc = s.pc + BitVec.ofNat 32 (2 * wordsOf i) := by
  cases exec_does h
  case alu hw => simp [pcNext, hw]
  case load hu _ => simp [pcNext, updatePair_pc hu]
  case store hu _ _ => simp [pcNext, updatePair_pc hu]
  case pair hu => simp [pcNext, updatePair_pc hu]
  case call | reset => exact Bool.noConfusion hj
  case jump hj' => exact absurd hj' (by simp [hj])
  case mask hw _ => simp [pcNext, hw]
  all_goals rfl

end Sys2Proof.Proofs
end


section
/-! The invariant of good states (20_memory.md R50, R51, R56, R61; 10_state.md R26): each update keeps it, so every effect,
every host event and every step does, and the state after reset has it. The statements O15 and O16. -/

namespace Sys2Proof.Proofs

open Sys2Proof.Machine

/-! ### What keeps a state good -/

/-- Good depends on memory, the written words and the outputs, and on pc being even. -/
theorem good_of_same {s t : State} (hs : s.Good) (hm : t.memory = s.memory) (hw : t.written = s.written)
    (ho : t.outputs = s.outputs) (hpc : t.pc.toNat % 2 = 0) : t.Good where
  memory_canonical := hm ▸ hs.memory_canonical
  memory_in_space := hm ▸ hs.memory_in_space
  memory_whole_words := hm ▸ hs.memory_whole_words
  pc_even := hpc
  written_rising := hw ▸ hs.written_rising
  written_ram_words := hw ▸ hs.written_ram_words
  outputs_io_words := ho ▸ hs.outputs_io_words

/-- No word counted as written is good. -/
theorem good_written_nil {s : State} (hs : s.Good) : State.Good { s with written := [] } :=
  { hs with written_rising := .nil, written_ram_words := nofun }

/-- A word stored in memory at an even address keeps it canonical, inside the space and made of whole words. -/
theorem good_setWord {s : State} {a : Addr} (hs : s.Good) (he : a.toNat % 2 = 0) (v : Word) :
    State.Good { s with memory := s.memory.setWord a.toNat v } :=
  have ha := a.isLt
  { hs with
    memory_canonical := Memory.wf_setWord _ _ hs.memory_canonical
    memory_in_space := Memory.inSpace_setWord v hs.memory_in_space (by omega)
    memory_whole_words := Memory.wholeWords_setWord v hs.memory_whole_words he }

/-- A store of the program at an even address keeps a state good, in RAM and in the I/O range. -/
theorem good_memWrite {s : State} {a : Addr} (hs : s.Good) (he : a.toNat % 2 = 0) (v : Word) : (memWrite a v s).Good := by
  unfold memWrite
  split
  case isTrue hio =>
    refine { hs with outputs_io_words := fun e hmem => ?_ }
    rcases List.mem_append.mp hmem with hmem | hmem
    · exact hs.outputs_io_words e hmem
    · obtain rfl := List.mem_singleton.mp hmem
      exact ⟨hio, he⟩
  case isFalse hio =>
    have hlt : a.toNat < 0xFF000000 := isIo_eq_false.mp (Bool.eq_false_iff.mpr hio)
    refine { good_setWord hs he v with
      written_rising := pairwise_insertAddr hs.written_rising
      written_ram_words := fun k hk => ?_ }
    rcases mem_insertAddr.mp hk with rfl | hk
    · exact ⟨he, hlt⟩
    · exact hs.written_ram_words k hk

/-- The address after an instruction at an even pc is even. -/
theorem pcNext_even {s : State} (h : s.pc.toNat % 2 = 0) (len : Nat) : (pcNext len s).toNat % 2 = 0 := by
  rw [pcNext_eq, BitVec.toNat_add, BitVec.toNat_ofNat]
  omega

/-- The word after a word at an even address is at an even address, at the top of memory too. -/
theorem add_two_even {a : Addr} (h : a.toNat % 2 = 0) : (a + 2).toNat % 2 = 0 := by
  have h2 : (2 : Addr).toNat = 2 := rfl
  rw [BitVec.toNat_add, h2]
  omega

theorem good_advance {s : State} (hs : s.Good) (len : Nat) : (advance len s).Good :=
  good_of_same hs rfl rfl rfl (pcNext_even hs.pc_even len)

theorem good_updatePair {s : State} {u : Bool} {p : Pair} (hs : s.Good) (hu : u = true → p ≠ .pc) (v : Addr) :
    (updatePair u p v s).Good :=
  good_of_same hs (by simp) (by simp) (by simp) (by rw [updatePair_pc hu]; exact hs.pc_even)

theorem good_jump {s : State} (hs : s.Good) {target : Addr} (ht : target.toNat % 2 = 0) :
    State.Good { s with pc := target } :=
  good_of_same hs rfl rfl rfl ht

theorem good_resetCpu {s : State} (hs : s.Good) : (resetCpu s).Good :=
  good_of_same (good_written_nil hs) rfl rfl rfl (rfl : State.reset.pc.toNat % 2 = 0)

/-! ### Instructions, host events, steps -/

/-- Every instruction keeps a good state good. -/
theorem exec_keeps_good {i : Instr} {s t : State} (hs : s.Good) (h : exec i s = .next t) : t.Good := by
  cases exec_does h
  case alu => exact good_advance (good_of_same hs (by simp) (by simp) (by simp) (by simpa using hs.pc_even)) 1
  case load u p sum r v n hu ht =>
    have hr : (writeReg r v { s with draws := s.draws + n }).Good :=
      good_of_same hs (by simp) (by simp) (by simp) (by simpa using hs.pc_even)
    exact good_advance (good_updatePair hr hu sum) _
  case store hu he hs' => exact good_advance (good_updatePair (good_memWrite hs he _) hu _) _
  case call ea target hi lo he ht =>
    exact good_jump (good_memWrite (good_memWrite hs he hi) (add_two_even he) lo) ht
  case jump target ht hj => exact good_jump hs ht
  case pair hu => exact good_advance (good_updatePair hs hu _) _
  case writeSr | writeMdb | writeIvb | setpr | mask | hlt =>
    exact good_of_same hs rfl rfl rfl (pcNext_even hs.pc_even 1)
  case dma => exact good_of_same (good_written_nil hs) rfl rfl rfl (pcNext_even hs.pc_even 1)
  case reset => exact good_resetCpu hs

/-- Every host event keeps a good state good. -/
theorem applyHostEvent_keeps_good {e : HostEvent} {s t : State} (hs : s.Good) (h : applyHostEvent e s = .next t) :
    t.Good := by
  cases e
  case reset => exact Host.Outcome.next.inj h ▸ good_resetCpu hs
  case resume | dmaDone => exact Host.Outcome.next.inj h ▸ good_of_same hs rfl rfl rfl hs.pc_even
  case dmaWrite a v =>
    rw [applyHostEvent] at h
    obtain ⟨he, h⟩ := withEvenAddress_next h
    exact Host.Outcome.next.inj h ▸ good_setWord hs he v

/-- Settles O15: a step lets a host event act, idles, or executes an instruction, and each of the three keeps the invariant;
the host's list and the count of free values are no part of it. -/
theorem stepKeepsGoodStates : Obligations.StepKeepsGoodStates := by
  intro s t hs h
  rcases step_next h with ⟨e, rest, -, -, he⟩ | ⟨-, -, rfl⟩ | ⟨-, -, i, n, -, hi⟩
  · refine applyHostEvent_keeps_good ?_ he
    exact good_of_same hs rfl rfl rfl hs.pc_even
  · exact good_of_same hs rfl rfl rfl hs.pc_even
  · refine exec_keeps_good ?_ hi
    exact good_of_same hs rfl rfl rfl hs.pc_even

/-- Settles O16: memory, the written words and the outputs are empty after reset, and pc is 0. -/
theorem resetStateIsGood : Obligations.ResetStateIsGood where
  memory_canonical := .nil
  memory_in_space := nofun
  memory_whole_words _ _ := Iff.rfl
  pc_even := by decide
  written_rising := .nil
  written_ram_words := nofun
  outputs_io_words := nofun

end Sys2Proof.Proofs
end


section
/-! MDB, IVB and the interrupt masks are never read (41_mov.md R157, 10_state.md R33, 60_exceptions.md R272): every
operation commutes with replacing them, so two machines that differ only there step alike. The statement O60. -/

namespace Sys2Proof.Proofs

open Sys2Proof.Machine

/-- `s` with MDB, IVB and the masks replaced. -/
def withControl (m v : Word) (k : Vector Bool 8) (s : State) : State := { s with mdb := m, ivb := v, im := k }

/-- Two outcomes alike but for MDB, IVB and the masks of the next state. -/
inductive Alike : Out → Out → Prop
  | next (t : State) (m v : Word) (k : Vector Bool 8) : Alike (.next t) (.next (withControl m v k t))
  | refused (why : Refusal) : Alike (.refused why) (.refused why)

section
variable (m v : Word) (k : Vector Bool 8)

/-! ### The updates and reads of the state -/

theorem memRead_withControl (a : Addr) (s : State) :
    memRead a (withControl m v k s) = ((memRead a s).1, withControl m v k (memRead a s).2) := by
  unfold memRead
  split
  case isTrue => rfl
  case isFalse => cases h : s.memory.wordAt a.toNat <;> simp [withControl, h, drawWord]

theorem memWrite_withControl (a : Addr) (w : Word) (s : State) :
    memWrite a w (withControl m v k s) = withControl m v k (memWrite a w s) := by
  unfold memWrite
  split <;> rfl

theorem writeReg_withControl (r : Reg) (w : Word) (s : State) :
    writeReg r w (withControl m v k s) = withControl m v k (writeReg r w s) := by
  obtain ⟨f, n⟩ := r
  cases f
  case gpr => rfl
  case mp => simp only [writeReg_mp, writeMp]; split <;> rfl

theorem updatePair_withControl (u : Bool) (p : Pair) (w : Addr) (s : State) :
    updatePair u p w (withControl m v k s) = withControl m v k (updatePair u p w s) := by
  cases u <;> cases p <;> rfl

theorem readReg_withControl (len : Nat) (r : Reg) (s : State) :
    readReg len r (withControl m v k s) = readReg len r s := rfl

theorem readPair_withControl (len : Nat) (p : Pair) (s : State) :
    readPair len p (withControl m v k s) = readPair len p s := rfl

/-! ### The shared operations -/

theorem Alike.unlessPcHalf {o o' : Out} (r : Reg) (h : Alike o o') : Alike (unlessPcHalf r o) (unlessPcHalf r o') := by
  by_cases hr : InPc r
  · rw [unlessPcHalf_inside hr, unlessPcHalf_inside hr]
    exact .refused _
  · rwa [unlessPcHalf_outside hr, unlessPcHalf_outside hr]

theorem Alike.withEvenAddress {f g : Addr → Out} (a : Addr) (h : ∀ ea, Alike (f ea) (g ea)) :
    Alike (withEvenAddress a f) (withEvenAddress a g) := by
  rcases Nat.mod_two_eq_zero_or_one a.toNat with he | he
  · rw [withEvenAddress_even he, withEvenAddress_even he]
    exact h a
  · rw [withEvenAddress_odd he, withEvenAddress_odd he]
    exact .refused _

theorem Alike.jumpTo (target : Addr) (s : State) : Alike (jumpTo target s) (jumpTo target (withControl m v k s)) := by
  rcases Nat.mod_two_eq_zero_or_one target.toNat with he | he
  · rw [jumpTo_even he, jumpTo_even he]
    exact .next _ m v k
  · rw [jumpTo_odd he, jumpTo_odd he]
    exact .refused _

theorem Alike.assignPair (len : Nat) (p : Pair) (w : Addr) (s : State) :
    Alike (assignPair len p w s) (assignPair len p w (withControl m v k s)) := by
  cases p
  case pc => exact Alike.jumpTo m v k w s
  all_goals exact .next _ m v k

theorem Alike.jumpIf (c : Bool) (off : BitVec 24) (s : State) :
    Alike (jumpIf c off s) (jumpIf c off (withControl m v k s)) := by
  cases c
  case true => exact Alike.jumpTo m v k (jumpTarget off s) s
  case false => exact .next _ m v k

theorem Alike.aluLogic (dst : Option RegNo) (res : Word) (s : State) :
    Alike (aluLogic dst res s) (aluLogic dst res (withControl m v k s)) := by
  cases dst <;> exact .next _ m v k

theorem Alike.aluAdd (dst : Option RegNo) (a b : Word) (cin : Bool) (s : State) :
    Alike (aluAdd dst a b cin s) (aluAdd dst a b cin (withControl m v k s)) := by
  cases dst <;> exact .next _ m v k

theorem Alike.aluSub (dst : Option RegNo) (a b : Word) (bin : Bool) (s : State) :
    Alike (aluSub dst a b bin s) (aluSub dst a b bin (withControl m v k s)) := by
  cases dst <;> exact .next _ m v k

theorem Alike.moveReg (d r : Reg) (s : State) : Alike (moveReg d r s) (moveReg d r (withControl m v k s)) := by
  refine Alike.unlessPcHalf d ?_
  rw [readReg_withControl, writeReg_withControl]
  exact .next _ m v k

theorem Alike.directLoad (r : Reg) (a : BitVec 24) (s : State) :
    Alike (directLoad r a s) (directLoad r a (withControl m v k s)) := by
  refine Alike.unlessPcHalf r ?_
  simp only [memRead_withControl, writeReg_withControl]
  exact .next _ m v k

theorem Alike.directStore (r : Reg) (a : BitVec 24) (s : State) :
    Alike (directStore r a s) (directStore r a (withControl m v k s)) := by
  simp only [Machine.directStore, readReg_withControl, memWrite_withControl]
  exact .next _ m v k

theorem Alike.indirectLoad (u pre : Bool) (len : Nat) (r : Reg) (p : Pair) (off : Addr) (s : State) :
    Alike (indirectLoad u pre len r p off s) (indirectLoad u pre len r p off (withControl m v k s)) := by
  unfold Machine.indirectLoad
  split
  case h_1 => exact .refused _
  case h_2 =>
    refine Alike.unlessPcHalf r (Alike.withEvenAddress _ fun ea => ?_)
    simp only [readPair_withControl, memRead_withControl, writeReg_withControl, updatePair_withControl]
    exact .next _ m v k

theorem Alike.indirectStore (u pre : Bool) (len : Nat) (r : Reg) (p : Pair) (off : Addr) (s : State) :
    Alike (indirectStore u pre len r p off s) (indirectStore u pre len r p off (withControl m v k s)) := by
  unfold Machine.indirectStore
  split
  case h_1 => exact .refused _
  case h_2 =>
    refine Alike.withEvenAddress _ fun ea => ?_
    simp only [readPair_withControl, readReg_withControl, memWrite_withControl, updatePair_withControl]
    exact .next _ m v k

theorem Alike.jsr (off : BitVec 24) (s : State) : Alike (execJsr off s) (execJsr off (withControl m v k s)) := by
  unfold execJsr
  refine Alike.withEvenAddress _ fun a => ?_
  simp only [memWrite_withControl]
  exact Alike.jumpTo m v k _ _

theorem Alike.subc (y a b : RegNo) (s : State) : Alike (execSubc y a b s) (execSubc y a b (withControl m v k s)) := by
  have hb : borrowIn (withControl m v k s).subCarry (withControl m v k s).flags.c = borrowIn s.subCarry s.flags.c := rfl
  unfold execSubc
  rw [hb]
  cases borrowIn s.subCarry s.flags.c
  case none => exact .refused _
  case some bin => exact Alike.aluSub m v k (some y) _ _ bin s

theorem Alike.readSr (d : RegNo) (s : State) : Alike (execMovsRSr d s) (execMovsRSr d (withControl m v k s)) := by
  have hl : (withControl m v k s).srLayout = s.srLayout := rfl
  unfold execMovsRSr
  rw [hl]
  cases s.srLayout <;> exact .next _ m v k

theorem Alike.writeSr (r : RegNo) (s : State) : Alike (execMovsSrR r s) (execMovsSrR r (withControl m v k s)) := by
  have hl : (withControl m v k s).srLayout = s.srLayout := rfl
  unfold execMovsSrR
  rw [hl]
  cases s.srLayout
  case none => exact .refused _
  case some l => exact .next _ m v k

/-! ### Instructions, host events, steps -/

/-- No instruction reads MDB, IVB or a mask. -/
theorem exec_alike (i : Instr) (s : State) : Alike (exec i s) (exec i (withControl m v k s)) := by
  cases i
  case addi | add | addc | cmn => exact Alike.aluAdd m v k _ _ _ _ s
  case subi | sub | cmp => exact Alike.aluSub m v k _ _ _ _ s
  case subc y a b => exact Alike.subc m v k y a b s
  case xori | xnori | ori | orni | andi | andni | xor | xnor | or | orn | and | andn | teq | tcm | tst =>
    exact Alike.aluLogic m v k _ _ s
  case movRR | movMM | movMR | movRM =>
    simp only [exec_movRR_moveReg, exec_movMM, exec_movMR, exec_movRM]
    exact Alike.moveReg m v k _ _ s
  case movsRSr d => exact Alike.readSr m v k d s
  case movsSrR r => exact Alike.writeSr m v k r s
  case movsRMdb | ldir | nop | hlt | dma | setpr => exact .next _ m v k
  case movsMdbR r => exact .next _ (readGpr r s) v k
  case movsIvbR r => exact .next _ m (readGpr r s) k
  case clrim n => exact .next _ m v (k.set n.toNat false n.isLt)
  case setim n => exact .next _ m v (k.set n.toNat true n.isLt)
  case reset => exact .next (resetCpu s) State.reset.mdb State.reset.ivb State.reset.im
  case ldim p w => exact Alike.assignPair m v k 2 p _ s
  case addp p r => exact Alike.assignPair m v k 1 p _ s
  case addpi p off => exact Alike.assignPair m v k 2 p _ s
  case lddR | lddM =>
    simp only [exec_lddR, exec_lddM]
    exact Alike.directLoad m v k _ _ s
  case stdR | stdM => exact Alike.directStore m v k _ _ s
  case ld | ldStar | ldr | ldo | ldpostr | ldposto | ldprer | ldpreo =>
    simp only [exec_ld, exec_ldStar, exec_ldr, exec_ldo, exec_ldpostr, exec_ldposto, exec_ldprer, exec_ldpreo]
    exact Alike.indirectLoad m v k _ _ _ _ _ _ s
  case st | stStar | str | sto | stpostr | stposto | stprer | stpreo =>
    simp only [exec_st, exec_stStar, exec_str, exec_sto, exec_stpostr, exec_stposto, exec_stprer, exec_stpreo]
    exact Alike.indirectStore m v k _ _ _ _ _ _ s
  case j off => exact Alike.jumpIf m v k true off s
  case jz | jn | jo | jc | jnz | jnn | jno | jnc => exact Alike.jumpIf m v k _ _ s
  case jsr off => exact Alike.jsr m v k off s
  all_goals exact .refused _

theorem applyHostEvent_alike (e : HostEvent) (s : State) :
    Alike (applyHostEvent e s) (applyHostEvent e (withControl m v k s)) := by
  cases e
  case reset => exact .next (resetCpu s) State.reset.mdb State.reset.ivb State.reset.im
  case resume | dmaDone => exact .next _ m v k
  case dmaWrite a w => exact Alike.withEvenAddress a fun ea => .next _ m v k

/-- A fetch with the state it answers replaced. -/
def mapFetched {α : Type} (f : State → State) :
    Host.Outcome (α × State) Fault Refusal → Host.Outcome (α × State) Fault Refusal
  | .next (a, s) => .next (a, f s)
  | .fault r => .fault r
  | .refused why => .refused why

theorem fetchWord_withControl (a : Addr) (s : State) :
    fetchWord a (withControl m v k s) = mapFetched (withControl m v k) (fetchWord a s) := by
  by_cases hw : a.toNat ∈ s.written
  · rw [fetchWord_written hw, fetchWord_written (s := withControl m v k s) hw]
    rfl
  · rw [fetchWord_eq hw, fetchWord_eq (s := withControl m v k s) hw, memRead_withControl]
    rfl

theorem decodeFetched_withControl (w1 w2 : Word) (s : State) :
    decodeFetched w1 w2 (withControl m v k s) = mapFetched (withControl m v k) (decodeFetched w1 w2 s) := by
  have hnext : pcNext (lengthWords w1) (withControl m v k s) = pcNext (lengthWords w1) s := rfl
  have hpc : (withControl m v k s).pc = s.pc := rfl
  rw [decodeFetched, decodeFetched, hnext, hpc]
  split <;> rfl

theorem fetchInstr_withControl (s : State) :
    fetchInstr (withControl m v k s) = mapFetched (withControl m v k) (fetchInstr s) := by
  have hpfx : (withControl m v k s).pfx = s.pfx := rfl
  have hpc : (withControl m v k s).pc = s.pc := rfl
  simp only [fetchInstr, hpfx, hpc, fetchWord_withControl]
  split
  case isTrue => rfl
  split
  case isTrue => rfl
  rcases fetchWord (fetchAddr s.pc) s with ⟨w1, s1⟩ | f | why
  case fault | refused => rfl
  simp only [mapFetched, fetchWord_withControl]
  split
  case isTrue => exact decodeFetched_withControl m v k w1 0 s1
  rcases fetchWord (fetchAddr s.pc + 2) s1 with ⟨w2, s2⟩ | f | why
  case fault | refused => rfl
  exact decodeFetched_withControl m v k w1 w2 s2

theorem stepInstr_alike (s : State) : Alike (stepInstr s) (stepInstr (withControl m v k s)) := by
  unfold stepInstr
  rw [fetchInstr_withControl]
  rcases fetchInstr s with ⟨i, s1⟩ | f | why
  case next => exact exec_alike m v k i s1
  case fault => cases f
  case refused => exact .refused why

/-- No step reads MDB, IVB or a mask. -/
theorem step_alike (s : State) : Alike (step s) (step (withControl m v k s)) := by
  have hevent : actingEvent (withControl m v k s) = actingEvent s := rfl
  have hrun : (withControl m v k s).run = s.run := rfl
  unfold step
  rw [hevent, hrun]
  cases actingEvent s
  case some e => exact applyHostEvent_alike m v k e (passHost s)
  case none =>
    cases s.run
    case running => exact stepInstr_alike m v k (passHost s)
    case halted | dma => exact .next (passHost s) m v k

end

/-- Settles O60: the two steps are alike, so they are refused alike, and their next states differ in MDB, IVB and the masks
alone. -/
theorem controlRegistersAreNeverRead : Obligations.ControlRegistersAreNeverRead := by
  intro s m v k
  have halike := step_alike m v k s
  change (∀ why, step s = .refused why → step (withControl m v k s) = .refused why) ∧
    ∀ t, step s = .next t → ∃ t', step (withControl m v k s) = .next t' ∧ _
  revert halike
  generalize step s = o, step (withControl m v k s) = o'
  rintro (⟨t, m', v', k'⟩ | why)
  · refine ⟨nofun, fun t' h => ⟨_, rfl, ?_⟩⟩
    rw [← Host.Outcome.next.inj h]
    rfl
  · exact ⟨fun _ h => h, fun _ h => nomatch h⟩

end Sys2Proof.Proofs
end


section
/-! The decoder against the opcode table (30_encoding.md R81, R84, R88, R89): which format a word has, what each format
decodes to by its fields, and the statements O2 to O5 and O8. -/

namespace Sys2Proof.Proofs

open Sys2Proof.Machine

/-! ### Fields -/

theorem bits_of_getLsbD {v : Word} {k : Nat} {b : Bool} (h : v.getLsbD k = b) : bits v k k = b.toNat := by
  rw [bits_one_eq_getLsbD, h]

theorem bits_14_12_eq (w1 : Word) : bits w1 14 12 = (w1.extractLsb' 12 3).toNat := bits_eq_extract w1 14 12
theorem bits_11_8_eq (w1 : Word) : bits w1 11 8 = (w1.extractLsb' 8 4).toNat := bits_eq_extract w1 11 8
theorem bits_10_9_eq (w1 : Word) : bits w1 10 9 = (w1.extractLsb' 9 2).toNat := bits_eq_extract w1 10 9
theorem bits_10_8_eq (w1 : Word) : bits w1 10 8 = (w1.extractLsb' 8 3).toNat := bits_eq_extract w1 10 8
theorem bits_4_2_eq (w1 : Word) : bits w1 4 2 = (w1.extractLsb' 2 3).toNat := bits_eq_extract w1 4 2
theorem bits_1_0_eq (w1 : Word) : bits w1 1 0 = (w1.extractLsb' 0 2).toNat := bits_eq_extract w1 1 0

/-! ### ALU words -/

theorem decodeAlu_const {w1 : Word} (h11 : w1.getLsbD 11 = true) : decodeAlu w1 = decodeAluConst w1 :=
  if_pos (bits_of_getLsbD h11)

theorem decodeAlu_rsv1 {w1 : Word} (h11 : w1.getLsbD 11 = false) (h4 : w1.getLsbD 4 = true) :
    decodeAlu w1 = .rsv1 (w1.extractLsb' 12 3) := by
  rw [decodeAlu, bits_of_getLsbD h11, bits_of_getLsbD h4, bits_14_12_eq, BitVec.ofNat_toNat, BitVec.setWidth_eq]
  rfl

theorem decodeAlu_reg {w1 : Word} (h11 : w1.getLsbD 11 = false) (h4 : w1.getLsbD 4 = false)
    (h3 : w1.getLsbD 3 = false) : decodeAlu w1 = decodeAluReg w1 := by
  simp [decodeAlu, bits_of_getLsbD h11, bits_of_getLsbD h4, bits_of_getLsbD h3]

theorem decodeAlu_variant {w1 : Word} (h11 : w1.getLsbD 11 = false) (h4 : w1.getLsbD 4 = false)
    (h3 : w1.getLsbD 3 = true) : decodeAlu w1 = decodeAluVariant w1 := by
  simp [decodeAlu, bits_of_getLsbD h11, bits_of_getLsbD h4, bits_of_getLsbD h3]

/-- Settles O2: bits 11, 4 and 3 select the form, and bits 14:12 the row of it. -/
theorem aluWordsFollowTheOpcodeTable : Obligations.AluWordsFollowTheOpcodeTable := by
  intro w1 w2 h15
  dsimp only
  rw [decodeWords_alu h15]
  refine ⟨fun h11 => ?const, fun h11 h4 h3 => ?reg, fun h11 h4 h3 => ?variant, decodeAlu_rsv1⟩
  case const =>
    rw [decodeAlu_const h11, decodeAluConst, bits_14_12_eq, regAt_eq_extract, imm8_eq_extract]
    refine ⟨?_, ?_, ?_, ?_, ?_, ?_, ?_, ?_⟩ <;> (intro hop; rw [hop]; rfl)
  case reg =>
    rw [decodeAlu_reg h11 h4 h3, decodeAluReg, bits_14_12_eq]
    simp only [regAt_eq_extract]
    refine ⟨?_, ?_, ?_, ?_, ?_, ?_, ?_, ?_⟩ <;> (intro hop; rw [hop]; rfl)
  case variant =>
    rw [decodeAlu_variant h11 h4 h3, decodeAluVariant, bits_14_12_eq]
    simp only [regAt_eq_extract]
    refine ⟨?_, ?_, ?_, ?_, ?_, ?_, ?_, ?_⟩ <;> (intro hop; rw [hop]; rfl)

/-! ### Moves -/

theorem decodeMov_eq (w1 : Word) :
    decodeMov w1 =
      if w1.getLsbD 11 then
        if w1.getLsbD 4 then .movMM (w1.extractLsb' 8 3) (w1.extractLsb' 5 3)
        else .movMR (w1.extractLsb' 8 3) (w1.extractLsb' 5 3)
      else if w1.getLsbD 4 then .movRM (w1.extractLsb' 8 3) (w1.extractLsb' 5 3)
      else .movRR (w1.extractLsb' 8 3) (w1.extractLsb' 5 3) := by
  rw [decodeMov, regAt_eq_extract, regAt_eq_extract, bits_one_eq_getLsbD, bits_one_eq_getLsbD]
  cases w1.getLsbD 11 <;> cases w1.getLsbD 4 <;> rfl

/-- A special move with register 00 is reserved, whatever its direction (30_encoding.md R89 RSV3). -/
theorem decodeMovs_rsv3 {w1 : Word} (hreg : w1.extractLsb' 0 2 = 0b00) : decodeMovs w1 = .rsv3 := by
  have hreg' : bits w1 1 0 = 0 := by rw [bits_1_0_eq, hreg]; rfl
  simp [decodeMovs, hreg']

/-- Bit 2 = 0: a read of a special register (41_mov.md R155, R157, R159, R161). -/
theorem decodeMovs_read {w1 : Word} (hdir : w1.getLsbD 2 = false) :
    (w1.extractLsb' 0 2 = 0b01 →
      decodeMovs w1 = if w1.getLsbD 11 then .rsv6ReadSr else .movsRSr (w1.extractLsb' 8 3)) ∧
    (w1.extractLsb' 0 2 = 0b10 →
      decodeMovs w1 = if w1.getLsbD 11 then .rsv6ReadMdb else .movsRMdb (w1.extractLsb' 8 3)) ∧
    (w1.extractLsb' 0 2 = 0b11 →
      decodeMovs w1 = if w1.getLsbD 11 then .rsv6ReadIvb else .movsRIvb (w1.extractLsb' 8 3)) := by
  rw [decodeMovs, bits_of_getLsbD hdir, bits_1_0_eq, bits_one_eq_getLsbD, regAt_eq_extract]
  refine ⟨?_, ?_, ?_⟩ <;> (intro hreg; rw [hreg]; cases w1.getLsbD 11 <;> rfl)

/-- Bit 2 = 1: a write of a special register (41_mov.md R156, R158, R160, R161). -/
theorem decodeMovs_write {w1 : Word} (hdir : w1.getLsbD 2 = true) :
    (w1.extractLsb' 0 2 = 0b01 →
      decodeMovs w1 = if w1.getLsbD 4 then .rsv6WriteSr else .movsSrR (w1.extractLsb' 5 3)) ∧
    (w1.extractLsb' 0 2 = 0b10 →
      decodeMovs w1 = if w1.getLsbD 4 then .rsv6WriteMdb else .movsMdbR (w1.extractLsb' 5 3)) ∧
    (w1.extractLsb' 0 2 = 0b11 →
      decodeMovs w1 = if w1.getLsbD 4 then .rsv6WriteIvb else .movsIvbR (w1.extractLsb' 5 3)) := by
  rw [decodeMovs, bits_of_getLsbD hdir, bits_1_0_eq, bits_one_eq_getLsbD w1 4, regAt_eq_extract w1 5]
  refine ⟨?_, ?_, ?_⟩ <;> (intro hreg; rw [hreg]; cases w1.getLsbD 4 <;> rfl)

/-- Settles O3: bit 3 selects the form; a regular move is its two file bits, a special one its direction and register. -/
theorem movWordsFollowTheOpcodeTable : Obligations.MovWordsFollowTheOpcodeTable := by
  intro w1 w2 hhigh
  have hop : bits w1 15 12 = 3 := bits_of_extractLsb' hhigh (by decide) (by decide)
  have hspecial (h3 : w1.getLsbD 3 = true) : decodeWords w1 w2 = decodeMovs w1 :=
    decodeWords_movs hop (bits_of_getLsbD h3) w2
  refine ⟨fun h3 => ?regular, fun h3 hreg => ?rsv3, fun h3 hdir => ?read, fun h3 hdir => ?write⟩
  case regular =>
    rw [decodeWords_mov hop (bits_of_getLsbD h3), decodeMov_eq]
    refine ⟨?_, ?_, ?_, ?_⟩ <;> (intro hdf hsf; rw [hdf, hsf]; rfl)
  case rsv3 => rw [hspecial h3, decodeMovs_rsv3 hreg]
  case read =>
    rw [hspecial h3]
    exact decodeMovs_read hdir
  case write =>
    rw [hspecial h3]
    exact decodeMovs_write hdir

/-! ### Loads and stores -/

theorem decodeWords_loadImm {w1 : Word} (hop : bits w1 15 12 = 2) (w2 : Word) :
    decodeWords w1 w2 = decodeLoadImm w1 w2 := by
  simp [decodeWords, hop]

theorem decodeWords_direct {w1 : Word} (hop : bits w1 15 12 = 4 ∨ bits w1 15 12 = 5) (w2 : Word) :
    decodeWords w1 w2 = decodeDirect w1 w2 := by
  rcases hop with hop | hop <;> simp [decodeWords, hop]

theorem decodeWords_indirect {w1 : Word} (hop : bits w1 15 12 = 6 ∨ bits w1 15 12 = 7) (w2 : Word) :
    decodeWords w1 w2 = decodeIndirect w1 w2 := by
  rcases hop with hop | hop <;> simp [decodeWords, hop]

theorem decodeLoadImm_eq (w1 w2 : Word) :
    decodeLoadImm w1 w2 =
      if w1.getLsbD 11 then .ldim (Pair.ofIndex (w1.extractLsb' 9 2).toNat) (w1.extractLsb' 0 9 ++ w2)
      else .ldir (w1.extractLsb' 8 3) w2 := by
  rw [decodeLoadImm, bits_one_eq_getLsbD, bits_10_9_eq, regAt_eq_extract, imm25_eq_append]
  cases w1.getLsbD 11 <;> rfl

theorem decodeDirect_load {w1 : Word} (h12 : bits w1 12 12 = 0) (w2 : Word) :
    decodeDirect w1 w2 =
      if w1.getLsbD 11 then .lddM (w1.extractLsb' 8 3) (w1.extractLsb' 0 8 ++ w2)
      else .lddR (w1.extractLsb' 8 3) (w1.extractLsb' 0 8 ++ w2) := by
  rw [decodeDirect, h12, bits_one_eq_getLsbD, regAt_eq_extract, imm24_eq_append]
  cases w1.getLsbD 11 <;> rfl

theorem decodeDirect_store {w1 : Word} (h12 : bits w1 12 12 = 1) (w2 : Word) :
    decodeDirect w1 w2 =
      if w1.getLsbD 11 then .stdM (w1.extractLsb' 8 3) (w1.extractLsb' 0 8 ++ w2)
      else .stdR (w1.extractLsb' 8 3) (w1.extractLsb' 0 8 ++ w2) := by
  rw [decodeDirect, h12, bits_one_eq_getLsbD, regAt_eq_extract, imm24_eq_append]
  cases w1.getLsbD 11 <;> rfl

/-- Settles O4: bits 15:12 select the format; bits 4:2 are the row of an indirect access, the file bit those of the others. -/
theorem loadAndStoreWordsFollowTheOpcodeTable : Obligations.LoadAndStoreWordsFollowTheOpcodeTable := by
  intro w1 w2
  refine ⟨fun hhigh => ?imm, fun hhigh => ?directLoad, fun hhigh => ?directStore, fun hhigh => ?load, fun hhigh => ?store⟩
  case imm =>
    have hop : bits w1 15 12 = 2 := bits_of_extractLsb' hhigh (by decide) (by decide)
    rw [decodeWords_loadImm hop, decodeLoadImm_eq]
  case directLoad =>
    have hop : bits w1 15 12 = 4 := bits_of_extractLsb' hhigh (by decide) (by decide)
    have h12 : bits w1 12 12 = 0 := bits_of_extractLsb' hhigh (by decide) (by decide)
    rw [decodeWords_direct (.inl hop), decodeDirect_load h12]
  case directStore =>
    have hop : bits w1 15 12 = 5 := bits_of_extractLsb' hhigh (by decide) (by decide)
    have h12 : bits w1 12 12 = 1 := bits_of_extractLsb' hhigh (by decide) (by decide)
    rw [decodeWords_direct (.inr hop), decodeDirect_store h12]
  case load =>
    have hop : bits w1 15 12 = 6 := bits_of_extractLsb' hhigh (by decide) (by decide)
    have h12 : bits w1 12 12 = 0 := bits_of_extractLsb' hhigh (by decide) (by decide)
    rw [decodeWords_indirect (.inl hop), decodeIndirect, h12, bits_4_2_eq, bits_1_0_eq, transferReg_eq, regAt_eq_extract]
    refine ⟨?_, ?_, ?_, ?_, ?_, ?_, ?_, ?_⟩ <;> (intro hway; rw [hway]; rfl)
  case store =>
    have hop : bits w1 15 12 = 7 := bits_of_extractLsb' hhigh (by decide) (by decide)
    have h12 : bits w1 12 12 = 1 := bits_of_extractLsb' hhigh (by decide) (by decide)
    rw [decodeWords_indirect (.inr hop), decodeIndirect, h12, bits_4_2_eq, bits_1_0_eq, transferReg_eq, regAt_eq_extract]
    refine ⟨?_, ?_, ?_, ?_, ?_, ?_, ?_, ?_⟩ <;> (intro hway; rw [hway]; rfl)

/-! ### Jumps, Address Arithmetic, miscellaneous -/

theorem decodeWords_jump {w1 : Word} (hop : bits w1 15 12 = 1) (w2 : Word) : decodeWords w1 w2 = decodeJump w1 w2 := by
  simp [decodeWords, hop]

theorem decodeWords_addrArith {w1 : Word} (hop : bits w1 15 12 = 0) (h11 : bits w1 11 11 = 1) (w2 : Word) :
    decodeWords w1 w2 = decodeAddrArith w1 w2 := by
  simp [decodeWords, hop, h11]

/-- Bits 8 and 4 select the form of Address Arithmetic, as 90_conflicts.md C1 resolves them. -/
theorem decodeAddrArith_eq (w1 w2 : Word) :
    decodeAddrArith w1 w2 =
      if w1.getLsbD 8 then .addpi (Pair.ofIndex (w1.extractLsb' 9 2).toNat) (w1.extractLsb' 0 8 ++ w2)
      else if w1.getLsbD 4 then .addpo (Pair.ofIndex (w1.extractLsb' 9 2).toNat) w2
      else .addp (Pair.ofIndex (w1.extractLsb' 9 2).toNat) (w1.extractLsb' 5 3) := by
  rw [decodeAddrArith, bits_10_9_eq, bits_one_eq_getLsbD, bits_one_eq_getLsbD, imm24_eq_append, regAt_eq_extract]
  cases w1.getLsbD 8 <;> cases w1.getLsbD 4 <;> rfl

/-- Settles O5: bits 15:11 select the format; its condition, its bits 8 and 4, or its operation is the row. -/
theorem jumpAndMiscWordsFollowTheOpcodeTable : Obligations.JumpAndMiscWordsFollowTheOpcodeTable := by
  intro w1 w2
  refine ⟨fun hhigh => ?jump, fun hhigh => ?addrArith, fun hhigh => ?misc⟩
  case jump =>
    have hop : bits w1 15 12 = 1 := bits_of_extractLsb' hhigh (by decide) (by decide)
    rw [decodeWords_jump hop, decodeJump, bits_11_8_eq, imm24_eq_append]
    refine ⟨?_, ?_, ?_, ?_, ?_, ?_, ?_, ?_, ?_, ?_, ?_, ?_, ?_, ?_, ?_, ?_⟩ <;> (intro hcond; rw [hcond]; rfl)
  case addrArith =>
    have hop : bits w1 15 12 = 0 := bits_of_extractLsb' hhigh (by decide) (by decide)
    have h11 : bits w1 11 11 = 1 := bits_of_extractLsb' hhigh (by decide) (by decide)
    rw [decodeWords_addrArith hop h11, decodeAddrArith_eq]
    refine ⟨fun h8 => ?_, fun h8 h4 => ?_, fun h8 h4 => ?_⟩
    · rw [h8]; rfl
    · rw [h8, h4]; rfl
    · rw [h8, h4]; rfl
  case misc =>
    have hop : bits w1 15 12 = 0 := bits_of_extractLsb' hhigh (by decide) (by decide)
    have h11 : bits w1 11 11 = 0 := bits_of_extractLsb' hhigh (by decide) (by decide)
    rw [decodeWords_misc hop h11, decodeMisc, bits_10_8_eq, imm8_eq_extract, regAt_eq_extract]
    refine ⟨?_, ?_, ?_, ?_, ?_, ?_, ?_, ?_⟩ <;> (intro hmop; rw [hmop]; rfl)

/-- Settles O8, by evaluation of the decoder on the thirteen words. -/
theorem sampleWordsDecode : Obligations.SampleWordsDecode := by
  unfold Obligations.SampleWordsDecode
  decide

end Sys2Proof.Proofs
end


section
/-! Totality and length of the decoder (30_encoding.md R80, R82): every word decodes to an instruction with an encoding, as
long as the first word says, and pc after it. The statements O6, O7 and O59. -/

namespace Sys2Proof.Proofs

open Sys2Proof.Machine

/-! ### Every format decodes to instructions with an encoding, of the format's length -/

/-- The instruction has an encoding, of `n` words. -/
def EncodedIn (n : Nat) (i : Instr) : Prop := i.wellFormed = true ∧ wordsOf i = n

theorem decodeAluConst_encodedIn (w1 : Word) : EncodedIn 1 (decodeAluConst w1) := by
  unfold decodeAluConst
  split <;> exact ⟨rfl, rfl⟩

theorem decodeAluReg_encodedIn (w1 : Word) : EncodedIn 1 (decodeAluReg w1) := by
  unfold decodeAluReg
  split <;> exact ⟨rfl, rfl⟩

theorem decodeAluVariant_encodedIn (w1 : Word) : EncodedIn 1 (decodeAluVariant w1) := by
  unfold decodeAluVariant
  split <;> exact ⟨rfl, rfl⟩

theorem decodeAlu_encodedIn (w1 : Word) : EncodedIn 1 (decodeAlu w1) := by
  unfold decodeAlu
  split
  · exact decodeAluConst_encodedIn w1
  split
  · exact ⟨rfl, rfl⟩
  split
  · exact decodeAluReg_encodedIn w1
  · exact decodeAluVariant_encodedIn w1

theorem decodeMov_encodedIn (w1 : Word) : EncodedIn 1 (decodeMov w1) := by
  unfold decodeMov
  split <;> split <;> exact ⟨rfl, rfl⟩

theorem decodeMovs_encodedIn (w1 : Word) : EncodedIn 1 (decodeMovs w1) := by
  unfold decodeMovs
  split <;> split <;> first | exact ⟨rfl, rfl⟩ | (split <;> exact ⟨rfl, rfl⟩)

theorem decodeLoadImm_encodedIn (w1 w2 : Word) : EncodedIn 2 (decodeLoadImm w1 w2) := by
  unfold decodeLoadImm
  split <;> exact ⟨rfl, rfl⟩

theorem decodeDirect_encodedIn (w1 w2 : Word) : EncodedIn 2 (decodeDirect w1 w2) := by
  unfold decodeDirect
  split <;> split <;> exact ⟨rfl, rfl⟩

theorem decodeJump_encodedIn (w1 w2 : Word) : EncodedIn 2 (decodeJump w1 w2) := by
  unfold decodeJump
  split <;> exact ⟨rfl, rfl⟩

theorem decodeMisc_encodedIn (w1 : Word) : EncodedIn 1 (decodeMisc w1) := by
  unfold decodeMisc
  split <;> exact ⟨rfl, rfl⟩

theorem decodeAddrArith_encodedIn (w1 w2 : Word) :
    EncodedIn (if w1.getLsbD 8 then 2 else if w1.getLsbD 4 then 2 else 1) (decodeAddrArith w1 w2) := by
  rw [decodeAddrArith_eq]
  split
  · exact ⟨rfl, rfl⟩
  split <;> exact ⟨rfl, rfl⟩

/-- Bit 2 of an indirect access is the lowest of its bits 4:2, and asks for the second word. -/
theorem bits_2_2_of_bits_4_2 (w1 : Word) : bits w1 2 2 = bits w1 4 2 % 2 := by
  simp only [bits]
  omega

theorem decodeIndirect_encodedIn (w1 w2 : Word) : EncodedIn (bits w1 2 2 + 1) (decodeIndirect w1 w2) := by
  have hlt := bits_lt w1 4 2
  rw [bits_2_2_of_bits_4_2]
  unfold decodeIndirect
  generalize bits w1 4 2 = way at hlt ⊢
  interval_cases way <;> split <;> exact ⟨rfl, rfl⟩

/-! ### The length of every word -/

/-- The types of 30_encoding.md R81, by bits 15:12. -/
theorem bits_15_12_cases (w1 : Word) :
    bits w1 15 12 = 0 ∧ bits w1 11 11 = 0 ∨ bits w1 15 12 = 0 ∧ bits w1 11 11 = 1 ∨ bits w1 15 12 = 1 ∨
    bits w1 15 12 = 2 ∨ bits w1 15 12 = 3 ∨ (bits w1 15 12 = 4 ∨ bits w1 15 12 = 5) ∨
    (bits w1 15 12 = 6 ∨ bits w1 15 12 = 7) ∨ 8 ≤ bits w1 15 12 := by
  have h11 := bits_lt w1 11 11
  omega

theorem getLsbD_15_of_bits {w1 : Word} (h : 8 ≤ bits w1 15 12) : w1.getLsbD 15 = true := by
  have h15 := bits_one_eq_getLsbD w1 15
  have hlt := w1.isLt
  simp only [bits] at h h15
  cases hb : w1.getLsbD 15
  · rw [hb, Bool.toNat_false] at h15
    omega
  · rfl

theorem lengthWords_of_addrArith {w1 : Word} (hop : bits w1 15 12 = 0) (h11 : bits w1 11 11 = 1) :
    lengthWords w1 = if w1.getLsbD 8 then 2 else if w1.getLsbD 4 then 2 else 1 := by
  rw [lengthWords, hop, h11, bits_one_eq_getLsbD, bits_one_eq_getLsbD]
  cases w1.getLsbD 8 <;> cases w1.getLsbD 4 <;> rfl

theorem lengthWords_of_two {w1 : Word}
    (hop : bits w1 15 12 = 1 ∨ bits w1 15 12 = 2 ∨ bits w1 15 12 = 4 ∨ bits w1 15 12 = 5) : lengthWords w1 = 2 := by
  rcases hop with hop | hop | hop | hop <;> simp [lengthWords, hop]

theorem lengthWords_of_indirect {w1 : Word} (hop : bits w1 15 12 = 6 ∨ bits w1 15 12 = 7) :
    lengthWords w1 = bits w1 2 2 + 1 := by
  have h2 := bits_lt w1 2 2
  rcases hop with hop | hop <;> rw [lengthWords, hop] <;> simp only <;> split <;> omega

theorem lengthWords_of_alu {w1 : Word} (hop : 8 ≤ bits w1 15 12) : lengthWords w1 = 1 :=
  lengthWords_alu (by rw [bits] at hop; omega)

/-- What any two words decode to has an encoding, as long as the first of them says (30_encoding.md R82). -/
theorem decodeWords_encodedIn (w1 w2 : Word) : EncodedIn (lengthWords w1) (decodeWords w1 w2) := by
  rcases bits_15_12_cases w1 with ⟨hop, h11⟩ | ⟨hop, h11⟩ | hop | hop | hop | hop | hop | hop
  · rw [lengthWords_of_misc hop h11, decodeWords_misc hop h11]
    exact decodeMisc_encodedIn w1
  · rw [lengthWords_of_addrArith hop h11, decodeWords_addrArith hop h11]
    exact decodeAddrArith_encodedIn w1 w2
  · rw [lengthWords_of_two (.inl hop), decodeWords_jump hop]
    exact decodeJump_encodedIn w1 w2
  · rw [lengthWords_of_two (.inr (.inl hop)), decodeWords_loadImm hop]
    exact decodeLoadImm_encodedIn w1 w2
  · rw [lengthWords_of_op3 hop]
    rcases Nat.lt_succ_iff_lt_or_eq.mp (bits_lt w1 3 3) with hform | hform
    · rw [decodeWords_mov hop (Nat.lt_one_iff.mp hform)]
      exact decodeMov_encodedIn w1
    · rw [decodeWords_movs hop hform]
      exact decodeMovs_encodedIn w1
  · rw [lengthWords_of_two (.inr (.inr hop)), decodeWords_direct hop]
    exact decodeDirect_encodedIn w1 w2
  · rw [lengthWords_of_indirect hop, decodeWords_indirect hop]
    exact decodeIndirect_encodedIn w1 w2
  · rw [lengthWords_of_alu hop, decodeWords_alu (getLsbD_15_of_bits hop)]
    exact decodeAlu_encodedIn w1

/-- The length the first word asks for is that of the instruction decoded. -/
theorem wordsOf_decodeWords (w1 w2 : Word) : wordsOf (decodeWords w1 w2) = lengthWords w1 :=
  (decodeWords_encodedIn w1 w2).2

/-- Settles O59: an instruction that cannot jump leaves pc after its own words, and they are those of its first word. -/
theorem onlyJumpsLeaveTheSequence : Obligations.OnlyJumpsLeaveTheSequence := by
  intro w1 w2 s t hj h
  rw [← wordsOf_decodeWords w1 w2]
  exact exec_pc hj h

/-! ### Decoding of bytes -/

theorem decode_one {order : ByteOrder} {b0 b1 : Byte} (h : lengthWords (wordOfBytes order b0 b1) = 1) (bs : List Byte) :
    decode order (b0 :: b1 :: bs) = .ok (decodeWords (wordOfBytes order b0 b1) 0, bs) :=
  if_pos h

theorem decode_two {order : ByteOrder} {b0 b1 : Byte} (h : lengthWords (wordOfBytes order b0 b1) = 2)
    (b2 b3 : Byte) (bs : List Byte) :
    decode order (b0 :: b1 :: b2 :: b3 :: bs) =
      .ok (decodeWords (wordOfBytes order b0 b1) (wordOfBytes order b2 b3), bs) :=
  if_neg (by omega)

theorem decode_two_truncated {order : ByteOrder} {b0 b1 : Byte} (h : lengthWords (wordOfBytes order b0 b1) = 2)
    {bs : List Byte} (hbs : bs.length < 2) : decode order (b0 :: b1 :: bs) = .error .truncated := by
  have hne : ¬ lengthWords (wordOfBytes order b0 b1) = 1 := by omega
  match bs, hbs with
  | [], _ => exact if_neg hne
  | [_], _ => exact if_neg hne

/-- Settles O7: by the length of the first word and the bytes there are; what decodes has an encoding. -/
theorem decodingFailsOnlyOnTooFewBytes : Obligations.DecodingFailsOnlyOnTooFewBytes := by
  intro order b0 b1
  refine ⟨rfl, rfl, fun bs => ⟨fun ⟨hbs, hl⟩ => decode_two_truncated hl hbs, fun h => ?enough⟩⟩
  rcases lengthWords_eq_one_or_two (wordOfBytes order b0 b1) with hl | hl
  · refine ⟨decodeWords (wordOfBytes order b0 b1) 0, (decodeWords_encodedIn _ _).1, ?_⟩
    rw [decode_one hl, hl]
    rfl
  · have hbs : 2 ≤ bs.length := h.resolve_right (by omega)
    match bs, hbs with
    | b2 :: b3 :: rest, _ =>
      refine ⟨decodeWords (wordOfBytes order b0 b1) (wordOfBytes order b2 b3), (decodeWords_encodedIn _ _).1, ?_⟩
      rw [decode_two hl, hl]
      rfl

/-! ### The second word of a one-word instruction -/

/-- An indirect access with way 1 (LD*, ST*) or an even way, one word long, has no use for the next word. -/
theorem decodeIndirect_ignores {w1 : Word} (h : bits w1 2 2 = 0 ∨ bits w1 4 2 = 1) (w2 w2' : Word) :
    decodeIndirect w1 w2 = decodeIndirect w1 w2' := by
  have hlt := bits_lt w1 4 2
  rw [bits_2_2_of_bits_4_2] at h
  unfold decodeIndirect
  generalize bits w1 4 2 = way at hlt h ⊢
  interval_cases way <;> first | rfl | omega

/-- An instruction of one word does not depend on the word after it (30_encoding.md R82). -/
theorem decodeWords_ignores_of_one {w1 : Word} (hl : lengthWords w1 = 1) (w2 w2' : Word) :
    decodeWords w1 w2 = decodeWords w1 w2' := by
  rcases bits_15_12_cases w1 with ⟨hop, h11⟩ | ⟨hop, h11⟩ | hop | hop | hop | hop | hop | hop
  · rw [decodeWords_misc hop h11, decodeWords_misc hop h11]
  · rw [lengthWords_of_addrArith hop h11] at hl
    rw [decodeWords_addrArith hop h11, decodeWords_addrArith hop h11, decodeAddrArith_eq, decodeAddrArith_eq]
    cases h8 : w1.getLsbD 8 <;> cases h4 : w1.getLsbD 4 <;> simp_all
  · rw [lengthWords_of_two (.inl hop)] at hl
    omega
  · rw [lengthWords_of_two (.inr (.inl hop))] at hl
    omega
  · simp only [decodeWords, hop]
  · rw [lengthWords_of_two (.inr (.inr hop))] at hl
    omega
  · rw [lengthWords_of_indirect hop] at hl
    rw [decodeWords_indirect hop, decodeWords_indirect hop]
    exact decodeIndirect_ignores (.inl (by omega)) w2 w2'
  · rw [decodeWords_alu (getLsbD_15_of_bits hop), decodeWords_alu (getLsbD_15_of_bits hop)]

/-! ### The length in the terms of the statement -/

theorem extractLsb'_12_4_iff (w1 : Word) (c : BitVec 4) : w1.extractLsb' 12 4 = c ↔ bits w1 15 12 = c.toNat := by
  rw [bits_eq_extract, BitVec.toNat_inj]

theorem extractLsb'_13_3_iff (w1 : Word) (c : BitVec 3) : w1.extractLsb' 13 3 = c ↔ bits w1 15 12 / 2 = c.toNat := by
  have h : bits w1 15 13 = (w1.extractLsb' 13 3).toNat := bits_eq_extract w1 15 13
  have hbits : bits w1 15 12 / 2 = bits w1 15 13 := by simp only [bits]; omega
  rw [hbits, h, BitVec.toNat_inj]

theorem extractLsb'_11_5_iff (w1 : Word) (c : BitVec 5) :
    w1.extractLsb' 11 5 = c ↔ 2 * bits w1 15 12 + bits w1 11 11 = c.toNat := by
  have h : bits w1 15 11 = (w1.extractLsb' 11 5).toNat := bits_eq_extract w1 15 11
  have hbits : 2 * bits w1 15 12 + bits w1 11 11 = bits w1 15 11 := by simp only [bits]; omega
  rw [hbits, h, BitVec.toNat_inj]

theorem getLsbD_15_iff (w1 : Word) : w1.getLsbD 15 = true ↔ 8 ≤ bits w1 15 12 := by
  refine ⟨fun h => ?_, getLsbD_15_of_bits⟩
  have h15 := bits_of_getLsbD h
  simp only [bits, Bool.toNat_true] at h15 ⊢
  omega

/-- Settles O6: the length by the types of R81, and the formats that use no second word. -/
theorem lengthComesFromTheFirstWord : Obligations.LengthComesFromTheFirstWord := by
  intro w1
  refine ⟨?length, ?ignores⟩
  case ignores =>
    rintro (hl | ⟨hhigh, hway⟩) w2 w2'
    · exact decodeWords_ignores_of_one hl w2 w2'
    · have hop := bits_of_extractLsb' hhigh (hi := 15) (lo := 13) (by decide) (by decide)
      have hop' : bits w1 15 12 = 6 ∨ bits w1 15 12 = 7 := by
        have h3 : bits w1 15 13 = 3 := hop
        simp only [bits] at h3 ⊢
        omega
      have hway' : bits w1 4 2 = 1 := by rw [bits_4_2_eq, hway]; rfl
      rw [decodeWords_indirect hop', decodeWords_indirect hop']
      exact decodeIndirect_ignores (.inr hway') w2 w2'
  case length =>
    simp only [getLsbD_15_iff, extractLsb'_12_4_iff, extractLsb'_13_3_iff, extractLsb'_11_5_iff]
    rcases bits_15_12_cases w1 with ⟨hop, h11⟩ | ⟨hop, h11⟩ | hop | hop | hop | (hop | hop) | hop | hop
    · simp [lengthWords_of_misc hop h11, hop, h11]
    · simp [lengthWords_of_addrArith hop h11, hop, h11]
    · simp [lengthWords_of_two (.inl hop), hop]
    · simp [lengthWords_of_two (.inr (.inl hop)), hop]
    · simp [lengthWords_of_op3 hop, hop]
    · simp [lengthWords_of_two (.inr (.inr (.inl hop))), hop]
    · simp [lengthWords_of_two (.inr (.inr (.inr hop))), hop]
    · rw [lengthWords_of_indirect hop, bits_one_eq_getLsbD]
      rcases hop with hop | hop <;> cases w1.getLsbD 2 <;> simp [hop]
    · simp [lengthWords_of_alu hop, hop]

end Sys2Proof.Proofs
end


section
/-! Decoding undoes encoding (30_encoding.md R84, R88, R89): one lemma per format, which reads the fields of the encoder's
word back and gives the row its operation selects; the statement O1 puts the formats together. -/

namespace Sys2Proof.Proofs

open Sys2Proof.Machine

/-! ### Fields of an encoded word -/

/-- A register field that holds the number of a register is that register. -/
theorem regAt_of_bits {v : Word} {lo : Nat} {r : RegNo} (h : bits v (lo + 2) lo = r.toNat) : regAt v lo = r := by
  rw [regAt, h, BitVec.ofNat_toNat, BitVec.setWidth_eq]

theorem imm8_of_bits {v : Word} {c : Byte} (h : bits v 7 0 = c.toNat) : imm8 v = c := by
  rw [imm8, h, BitVec.ofNat_toNat, BitVec.setWidth_eq]

/-- A word made of a number is its low 16 bits. -/
theorem word_toNat_mod (n : Nat) : (word n).toNat = n % 2 ^ 16 := BitVec.toNat_ofNat n 16

/-- An immediate of 24 bits split over two words and put together again. -/
theorem imm24_split {v : Word} {a : BitVec 24} (h : bits v 7 0 = a.toNat / 2 ^ 16) : imm24 v (word a.toNat) = a := by
  apply BitVec.eq_of_toNat_eq
  rw [imm24, h, BitVec.toNat_ofNat, word_toNat_mod]
  omega

/-- An immediate of 25 bits split over two words and put together again. -/
theorem imm25_split {v : Word} {a : BitVec 25} (h : bits v 8 0 = a.toNat / 2 ^ 16) : imm25 v (word a.toNat) = a := by
  apply BitVec.eq_of_toNat_eq
  rw [imm25, h, BitVec.toNat_ofNat, word_toNat_mod]
  omega

theorem Reg.nibble_mod (r : Reg) : r.nibble % 8 = r.num.toNat := by
  have := r.num.isLt
  unfold Reg.nibble
  split <;> omega

theorem Reg.nibble_div (r : Reg) : r.nibble / 8 = match r.file with | .gpr => 0 | .mp => 1 := by
  have := r.num.isLt
  unfold Reg.nibble
  cases r.file <;> simp only <;> omega

/-- The 4-bit field of a transferred register gives the register back. -/
theorem transferReg_of_bits {v : Word} {r : Reg} (h : bits v 11 8 = r.nibble) : transferReg v = r := by
  have hnum : bits v 10 8 = r.num.toNat := by
    rw [← Reg.nibble_mod, ← h]
    simp only [bits]
    omega
  have hfile : bits v 11 11 = r.nibble / 8 := by
    rw [← h]
    simp only [bits]
    omega
  rw [transferReg, regAt_of_bits hnum, hfile, Reg.nibble_div]
  obtain ⟨f, n⟩ := r
  cases f <;> rfl

/-! ### The formats

Each lemma lists the rows of a format by its operation field, and gives the row of an encoded word. -/

/-- Format F-ALUI. -/
theorem decodeWords_aluConst_word (op : Fin 8) (a : RegNo) (c : Byte) (w2 : Word) :
    decodeWords (word (0x8800 + op.val * 2 ^ 12 + a.toNat * 2 ^ 8 + c.toNat)) w2 =
      [.addi a c, .subi a c, .xori a c, .xnori a c, .ori a c, .orni a c, .andi a c, .andni a c][op] := by
  have ha := a.isLt
  have hc := c.isLt
  have hop := op.isLt
  generalize hw : word _ = w
  have hn : w.toNat = 0x8800 + op.val * 2 ^ 12 + a.toNat * 2 ^ 8 + c.toNat := hw ▸ word_toNat _ (by omega)
  have h15 : 8 ≤ bits w 15 12 := by rw [bits, hn]; omega
  have h11 : bits w 11 11 = 1 := by rw [bits, hn]; omega
  have h14 : bits w 14 12 = op.val := by rw [bits, hn]; omega
  have hra : regAt w 8 = a := regAt_of_bits (by rw [bits, hn]; omega)
  have hrc : imm8 w = c := imm8_of_bits (by rw [bits, hn]; omega)
  rw [decodeWords_alu (getLsbD_15_of_bits h15), decodeAlu, if_pos h11, decodeAluConst, h14, hra, hrc]
  fin_cases op <;> rfl

/-- Format F-ALUR with bits 4 and 3 = 0. -/
theorem decodeWords_aluReg_word (op : Fin 8) (y a b : RegNo) (w2 : Word) :
    decodeWords (word (0x8000 + op.val * 2 ^ 12 + y.toNat * 2 ^ 8 + a.toNat * 2 ^ 5 + b.toNat)) w2 =
      [.add y a b, .sub y a b, .xor y a b, .xnor y a b, .or y a b, .orn y a b, .and y a b, .andn y a b][op] := by
  have hy := y.isLt
  have ha := a.isLt
  have hb := b.isLt
  have hop := op.isLt
  generalize hw : word _ = w
  have hn : w.toNat = 0x8000 + op.val * 2 ^ 12 + y.toNat * 2 ^ 8 + a.toNat * 2 ^ 5 + b.toNat :=
    hw ▸ word_toNat _ (by omega)
  have h15 : 8 ≤ bits w 15 12 := by rw [bits, hn]; omega
  have h11 : bits w 11 11 = 0 := by rw [bits, hn]; omega
  have h14 : bits w 14 12 = op.val := by rw [bits, hn]; omega
  have h4 : bits w 4 4 = 0 := by rw [bits, hn]; omega
  have h3 : bits w 3 3 = 0 := by rw [bits, hn]; omega
  have hry : regAt w 8 = y := regAt_of_bits (by rw [bits, hn]; omega)
  have hra : regAt w 5 = a := regAt_of_bits (by rw [bits, hn]; omega)
  have hrb : regAt w 0 = b := regAt_of_bits (by rw [bits, hn]; omega)
  rw [decodeWords_alu (getLsbD_15_of_bits h15), decodeAlu, h11, h4, if_pos h3, decodeAluReg, h14, hry, hra, hrb]
  fin_cases op <;> rfl

/-- Format F-ALUR with bit 4 = 0 and the variant bit 3 = 1; the tests have no destination, and the last two are RSV2. -/
theorem decodeWords_aluVariant_word (op : Fin 8) (y a b : RegNo) (w2 : Word) :
    decodeWords (word (0x8008 + op.val * 2 ^ 12 + y.toNat * 2 ^ 8 + a.toNat * 2 ^ 5 + b.toNat)) w2 =
      [.addc y a b, .subc y a b, .teq a b, .tcm a b, .cmn a b, .cmp a b, .rsv2op6, .rsv2op7][op] := by
  have hy := y.isLt
  have ha := a.isLt
  have hb := b.isLt
  have hop := op.isLt
  generalize hw : word _ = w
  have hn : w.toNat = 0x8008 + op.val * 2 ^ 12 + y.toNat * 2 ^ 8 + a.toNat * 2 ^ 5 + b.toNat :=
    hw ▸ word_toNat _ (by omega)
  have h15 : 8 ≤ bits w 15 12 := by rw [bits, hn]; omega
  have h11 : bits w 11 11 = 0 := by rw [bits, hn]; omega
  have h14 : bits w 14 12 = op.val := by rw [bits, hn]; omega
  have h4 : bits w 4 4 = 0 := by rw [bits, hn]; omega
  have h3 : ¬ bits w 3 3 = 0 := by rw [bits, hn]; omega
  have hry : regAt w 8 = y := regAt_of_bits (by rw [bits, hn]; omega)
  have hra : regAt w 5 = a := regAt_of_bits (by rw [bits, hn]; omega)
  have hrb : regAt w 0 = b := regAt_of_bits (by rw [bits, hn]; omega)
  rw [decodeWords_alu (getLsbD_15_of_bits h15), decodeAlu, h11, h4, if_neg h3, decodeAluVariant, h14, hry, hra, hrb]
  fin_cases op <;> rfl

/-- RSV1, format F-ALUR with bit 4 = 1. -/
theorem decodeWords_rsv1_word (op : BitVec 3) (w2 : Word) :
    decodeWords (word (0x8010 + op.toNat * 2 ^ 12)) w2 = .rsv1 op := by
  have hop := op.isLt
  generalize hw : word _ = w
  have hn : w.toNat = 0x8010 + op.toNat * 2 ^ 12 := hw ▸ word_toNat _ (by omega)
  have h15 : 8 ≤ bits w 15 12 := by rw [bits, hn]; omega
  have h11 : bits w 11 11 = 0 := by rw [bits, hn]; omega
  have h4 : bits w 4 4 = 1 := by rw [bits, hn]; omega
  have h14 : bits w 14 12 = op.toNat := by rw [bits, hn]; omega
  rw [decodeWords_alu (getLsbD_15_of_bits h15), decodeAlu, h11, if_pos h4, h14, BitVec.ofNat_toNat, BitVec.setWidth_eq]
  rfl

/-- Format F-MOV, by its file bits 11 and 4. -/
theorem decodeWords_mov_word (df sf : Fin 2) (d s : RegNo) (w2 : Word) :
    decodeWords (word (0x3000 + df.val * 2 ^ 11 + sf.val * 2 ^ 4 + d.toNat * 2 ^ 8 + s.toNat * 2 ^ 5)) w2 =
      [[.movRR d s, .movRM d s][sf], [.movMR d s, .movMM d s][sf]][df] := by
  have hd := d.isLt
  have hs := s.isLt
  have hdf := df.isLt
  have hsf := sf.isLt
  generalize hw : word _ = w
  have hn : w.toNat = 0x3000 + df.val * 2 ^ 11 + sf.val * 2 ^ 4 + d.toNat * 2 ^ 8 + s.toNat * 2 ^ 5 :=
    hw ▸ word_toNat _ (by omega)
  have h15 : bits w 15 12 = 3 := by rw [bits, hn]; omega
  have h11 : bits w 11 11 = df.val := by rw [bits, hn]; omega
  have h4 : bits w 4 4 = sf.val := by rw [bits, hn]; omega
  have h3 : bits w 3 3 = 0 := by rw [bits, hn]; omega
  have hrd : regAt w 8 = d := regAt_of_bits (by rw [bits, hn]; omega)
  have hrs : regAt w 5 = s := regAt_of_bits (by rw [bits, hn]; omega)
  rw [decodeWords_mov h15 h3, decodeMov, h11, h4, hrd, hrs]
  fin_cases df <;> fin_cases sf <;> rfl

/-- Format F-MOVS, reads of a special register, by the file bit of the destination. -/
theorem decodeWords_movsRead_word (df : Fin 2) (reg : Fin 4) (d : RegNo) (w2 : Word) :
    decodeWords (word (0x3008 + df.val * 2 ^ 11 + reg.val + d.toNat * 2 ^ 8)) w2 =
      [[.rsv3, .movsRSr d, .movsRMdb d, .movsRIvb d][reg], [.rsv3, .rsv6ReadSr, .rsv6ReadMdb, .rsv6ReadIvb][reg]][df] := by
  have hd := d.isLt
  have hdf := df.isLt
  have hreg := reg.isLt
  generalize hw : word _ = w
  have hn : w.toNat = 0x3008 + df.val * 2 ^ 11 + reg.val + d.toNat * 2 ^ 8 := hw ▸ word_toNat _ (by omega)
  have h15 : bits w 15 12 = 3 := by rw [bits, hn]; omega
  have h11 : bits w 11 11 = df.val := by rw [bits, hn]; omega
  have h3 : bits w 3 3 = 1 := by rw [bits, hn]; omega
  have h2 : bits w 2 2 = 0 := by rw [bits, hn]; omega
  have h1 : bits w 1 0 = reg.val := by rw [bits, hn]; omega
  have hrd : regAt w 8 = d := regAt_of_bits (by rw [bits, hn]; omega)
  rw [decodeWords_movs h15 h3, decodeMovs, if_pos h2, h1, h11, hrd]
  fin_cases df <;> fin_cases reg <;> rfl

/-- Format F-MOVS, writes of a special register, by the file bit of the source. -/
theorem decodeWords_movsWrite_word (sf : Fin 2) (reg : Fin 4) (s : RegNo) (w2 : Word) :
    decodeWords (word (0x300C + sf.val * 2 ^ 4 + reg.val + s.toNat * 2 ^ 5)) w2 =
      [[.rsv3, .movsSrR s, .movsMdbR s, .movsIvbR s][reg],
       [.rsv3, .rsv6WriteSr, .rsv6WriteMdb, .rsv6WriteIvb][reg]][sf] := by
  have hs := s.isLt
  have hsf := sf.isLt
  have hreg := reg.isLt
  generalize hw : word _ = w
  have hn : w.toNat = 0x300C + sf.val * 2 ^ 4 + reg.val + s.toNat * 2 ^ 5 := hw ▸ word_toNat _ (by omega)
  have h15 : bits w 15 12 = 3 := by rw [bits, hn]; omega
  have h4 : bits w 4 4 = sf.val := by rw [bits, hn]; omega
  have h3 : bits w 3 3 = 1 := by rw [bits, hn]; omega
  have h2 : ¬ bits w 2 2 = 0 := by rw [bits, hn]; omega
  have h1 : bits w 1 0 = reg.val := by rw [bits, hn]; omega
  have hrs : regAt w 5 = s := regAt_of_bits (by rw [bits, hn]; omega)
  rw [decodeWords_movs h15 h3, decodeMovs, if_neg h2, h1, h4, hrs]
  fin_cases sf <;> fin_cases reg <;> rfl

/-- Format F-LDIR. -/
theorem decodeWords_ldir_word (d : RegNo) (v : Word) : decodeWords (word (0x2000 + d.toNat * 2 ^ 8)) v = .ldir d v := by
  have hd := d.isLt
  generalize hw : word _ = w
  have hn : w.toNat = 0x2000 + d.toNat * 2 ^ 8 := hw ▸ word_toNat _ (by omega)
  have h15 : bits w 15 12 = 2 := by rw [bits, hn]; omega
  have h11 : bits w 11 11 = 0 := by rw [bits, hn]; omega
  have hrd : regAt w 8 = d := regAt_of_bits (by rw [bits, hn]; omega)
  rw [decodeWords_loadImm h15, decodeLoadImm, if_pos h11, hrd]

/-- Format F-LDIM. -/
theorem decodeWords_ldim_word (p : Pair) (v : BitVec 25) :
    decodeWords (word (0x2800 + p.index * 2 ^ 9 + v.toNat / 2 ^ 16)) (word v.toNat) = .ldim p v := by
  have hp := p.index_lt
  have hv := v.isLt
  generalize hw : word (0x2800 + _ + _) = w
  have hn : w.toNat = 0x2800 + p.index * 2 ^ 9 + v.toNat / 2 ^ 16 := hw ▸ word_toNat _ (by omega)
  have h15 : bits w 15 12 = 2 := by rw [bits, hn]; omega
  have h11 : ¬ bits w 11 11 = 0 := by rw [bits, hn]; omega
  have h10 : bits w 10 9 = p.index := by rw [bits, hn]; omega
  have himm : imm25 w (word v.toNat) = v := imm25_split (by rw [bits, hn]; omega)
  rw [decodeWords_loadImm h15, decodeLoadImm, if_neg h11, h10, himm, Pair.ofIndex_index]

/-- Format F-DIR, by its store and file bits. -/
theorem decodeWords_direct_word (st mp : Fin 2) (r : RegNo) (a : BitVec 24) :
    decodeWords (word (0x4000 + st.val * 2 ^ 12 + mp.val * 2 ^ 11 + r.toNat * 2 ^ 8 + a.toNat / 2 ^ 16)) (word a.toNat) =
      [[.lddR r a, .lddM r a][mp], [.stdR r a, .stdM r a][mp]][st] := by
  have hr := r.isLt
  have ha := a.isLt
  have hst := st.isLt
  have hmp := mp.isLt
  generalize hw : word (0x4000 + _ + _ + _ + _) = w
  have hn : w.toNat = 0x4000 + st.val * 2 ^ 12 + mp.val * 2 ^ 11 + r.toNat * 2 ^ 8 + a.toNat / 2 ^ 16 :=
    hw ▸ word_toNat _ (by omega)
  have h15 : bits w 15 12 = 4 ∨ bits w 15 12 = 5 := by rw [bits, hn]; omega
  have h12 : bits w 12 12 = st.val := by rw [bits, hn]; omega
  have h11 : bits w 11 11 = mp.val := by rw [bits, hn]; omega
  have hrr : regAt w 8 = r := regAt_of_bits (by rw [bits, hn]; omega)
  have himm : imm24 w (word a.toNat) = a := imm24_split (by rw [bits, hn]; omega)
  rw [decodeWords_direct h15, decodeDirect, h12, h11, hrr, himm]
  fin_cases st <;> fin_cases mp <;> rfl

/-- Format F-IND, by its store bit and its bits 4:2. -/
theorem decodeWords_indirect_word (st : Fin 2) (way : Fin 8) (r : Reg) (p : Pair) (o : RegNo) (w2 : Word) :
    decodeWords (word (0x6000 + st.val * 2 ^ 12 + way.val * 2 ^ 2 + r.nibble * 2 ^ 8 + o.toNat * 2 ^ 5 + p.index)) w2 =
      [[.ld r p, .ldStar r p, .ldr r p o, .ldo r p w2, .ldpostr r p o, .ldposto r p w2, .ldprer r p o,
        .ldpreo r p w2][way],
       [.st r p, .stStar r p, .str r p o, .sto r p w2, .stpostr r p o, .stposto r p w2, .stprer r p o,
        .stpreo r p w2][way]][st] := by
  have hr := r.nibble_lt
  have hp := p.index_lt
  have ho := o.isLt
  have hst := st.isLt
  have hway := way.isLt
  generalize hw : word _ = w
  have hn : w.toNat = 0x6000 + st.val * 2 ^ 12 + way.val * 2 ^ 2 + r.nibble * 2 ^ 8 + o.toNat * 2 ^ 5 + p.index :=
    hw ▸ word_toNat _ (by omega)
  have h15 : bits w 15 12 = 6 ∨ bits w 15 12 = 7 := by rw [bits, hn]; omega
  have h12 : bits w 12 12 = st.val := by rw [bits, hn]; omega
  have h4 : bits w 4 2 = way.val := by rw [bits, hn]; omega
  have h1 : bits w 1 0 = p.index := by rw [bits, hn]; omega
  have hrr : transferReg w = r := transferReg_of_bits (by rw [bits, hn]; omega)
  have hro : regAt w 5 = o := regAt_of_bits (by rw [bits, hn]; omega)
  rw [decodeWords_indirect h15, decodeIndirect, h12, h4, h1, hrr, hro, Pair.ofIndex_index]
  fin_cases st <;> fin_cases way <;> rfl

/-- Format F-JMP, by its condition; the unassigned ones are RSV5. -/
theorem decodeWords_jump_word (cond : Fin 16) (off : BitVec 24) :
    decodeWords (word (0x1000 + cond.val * 2 ^ 8 + off.toNat / 2 ^ 16)) (word off.toNat) =
      [.j off, .jz off, .jn off, .rsv5c3, .jo off, .rsv5c5, .rsv5c6, .jnc off, .jc off, .rsv5c9, .rsv5c10, .jno off,
       .rsv5c12, .jnn off, .jnz off, .jsr off][cond] := by
  have hoff := off.isLt
  have hcond := cond.isLt
  generalize hw : word (0x1000 + _ + _) = w
  have hn : w.toNat = 0x1000 + cond.val * 2 ^ 8 + off.toNat / 2 ^ 16 := hw ▸ word_toNat _ (by omega)
  have h15 : bits w 15 12 = 1 := by rw [bits, hn]; omega
  have h11 : bits w 11 8 = cond.val := by rw [bits, hn]; omega
  have himm : imm24 w (word off.toNat) = off := imm24_split (by rw [bits, hn]; omega)
  rw [decodeWords_jump h15, decodeJump, h11, himm]
  fin_cases cond <;> rfl

/-- Format F-AA with bits 8 and 4 = 0. -/
theorem decodeWords_addp_word (p : Pair) (r : RegNo) (w2 : Word) :
    decodeWords (word (0x0800 + p.index * 2 ^ 9 + r.toNat * 2 ^ 5)) w2 = .addp p r := by
  have hp := p.index_lt
  have hr := r.isLt
  generalize hw : word _ = w
  have hn : w.toNat = 0x0800 + p.index * 2 ^ 9 + r.toNat * 2 ^ 5 := hw ▸ word_toNat _ (by omega)
  have h15 : bits w 15 12 = 0 := by rw [bits, hn]; omega
  have h11 : bits w 11 11 = 1 := by rw [bits, hn]; omega
  have h10 : bits w 10 9 = p.index := by rw [bits, hn]; omega
  have h8 : bits w 8 8 = 0 := by rw [bits, hn]; omega
  have h4 : bits w 4 4 = 0 := by rw [bits, hn]; omega
  have hrr : regAt w 5 = r := regAt_of_bits (by rw [bits, hn]; omega)
  rw [decodeWords_addrArith h15 h11, decodeAddrArith, h8, if_pos h4, h10, hrr, Pair.ofIndex_index]
  rfl

/-- Format F-AA with bit 8 = 0 and bit 4 = 1. -/
theorem decodeWords_addpo_word (p : Pair) (off : Word) :
    decodeWords (word (0x0810 + p.index * 2 ^ 9)) off = .addpo p off := by
  have hp := p.index_lt
  generalize hw : word _ = w
  have hn : w.toNat = 0x0810 + p.index * 2 ^ 9 := hw ▸ word_toNat _ (by omega)
  have h15 : bits w 15 12 = 0 := by rw [bits, hn]; omega
  have h11 : bits w 11 11 = 1 := by rw [bits, hn]; omega
  have h10 : bits w 10 9 = p.index := by rw [bits, hn]; omega
  have h8 : bits w 8 8 = 0 := by rw [bits, hn]; omega
  have h4 : bits w 4 4 = 1 := by rw [bits, hn]; omega
  rw [decodeWords_addrArith h15 h11, decodeAddrArith, h8, h4, h10, Pair.ofIndex_index]
  rfl

/-- Format F-AA with bit 8 = 1. -/
theorem decodeWords_addpi_word (p : Pair) (off : BitVec 24) :
    decodeWords (word (0x0900 + p.index * 2 ^ 9 + off.toNat / 2 ^ 16)) (word off.toNat) = .addpi p off := by
  have hp := p.index_lt
  have hoff := off.isLt
  generalize hw : word (0x0900 + _ + _) = w
  have hn : w.toNat = 0x0900 + p.index * 2 ^ 9 + off.toNat / 2 ^ 16 := hw ▸ word_toNat _ (by omega)
  have h15 : bits w 15 12 = 0 := by rw [bits, hn]; omega
  have h11 : bits w 11 11 = 1 := by rw [bits, hn]; omega
  have h10 : bits w 10 9 = p.index := by rw [bits, hn]; omega
  have h8 : bits w 8 8 = 1 := by rw [bits, hn]; omega
  have himm : imm24 w (word off.toNat) = off := imm24_split (by rw [bits, hn]; omega)
  rw [decodeWords_addrArith h15 h11, decodeAddrArith, if_pos h8, h10, himm, Pair.ofIndex_index]

/-- EINT, whose number takes the place of format F-MISC's field and the bits below it. -/
theorem decodeWords_eint_word (i : Byte) (w2 : Word) : decodeWords (word (0x0400 + i.toNat)) w2 = .eint i := by
  have hi := i.isLt
  generalize hw : word _ = w
  have hn : w.toNat = 0x0400 + i.toNat := hw ▸ word_toNat _ (by omega)
  have h15 : bits w 15 12 = 0 := by rw [bits, hn]; omega
  have h11 : bits w 11 11 = 0 := by rw [bits, hn]; omega
  have h10 : bits w 10 8 = 4 := by rw [bits, hn]; omega
  have himm : imm8 w = i := imm8_of_bits (by rw [bits, hn]; omega)
  rw [decodeWords_misc h15 h11, decodeMisc, h10, himm]
  rfl

/-- Format F-MISC; the number of EINT is the field with the bits below it. -/
theorem decodeWords_misc_word (op : Fin 8) (n : RegNo) (w2 : Word) :
    decodeWords (word (0x0000 + op.val * 2 ^ 8 + n.toNat * 2 ^ 5)) w2 =
      [.nop, .hlt, .reset, .dma, .eint (BitVec.ofNat 8 (n.toNat * 2 ^ 5)), .setpr n, .clrim n, .setim n][op] := by
  have hn' := n.isLt
  have hlt := op.isLt
  generalize hw : word _ = w
  have hn : w.toNat = 0x0000 + op.val * 2 ^ 8 + n.toNat * 2 ^ 5 := hw ▸ word_toNat _ (by omega)
  have h15 : bits w 15 12 = 0 := by rw [bits, hn]; omega
  have h11 : bits w 11 11 = 0 := by rw [bits, hn]; omega
  have h10 : bits w 10 8 = op.val := by rw [bits, hn]; omega
  have hrn : regAt w 5 = n := regAt_of_bits (by rw [bits, hn]; omega)
  have h7 : bits w 7 0 = n.toNat * 2 ^ 5 := by rw [bits, hn]; omega
  rw [decodeWords_misc h15 h11, decodeMisc, h10, hrn, imm8, h7]
  fin_cases op <;> rfl

/-! ### All instructions -/

/-- The instruction has words, and they decode to it. -/
def DecodesBack (i : Instr) : Prop :=
  (∃ w1, encode i = some [w1] ∧ decodeWords w1 0 = i) ∨ ∃ w1 w2, encode i = some [w1, w2] ∧ decodeWords w1 w2 = i

theorem DecodesBack.one {i : Instr} {w1 : Word} (he : encode i = some [w1]) (hd : decodeWords w1 0 = i) :
    DecodesBack i := .inl ⟨w1, he, hd⟩

theorem DecodesBack.two {i : Instr} {w1 w2 : Word} (he : encode i = some [w1, w2]) (hd : decodeWords w1 w2 = i) :
    DecodesBack i := .inr ⟨w1, w2, he, hd⟩

/-- Every instruction with an encoding decodes from its own words: the row of its format. -/
theorem decodesBack_of_wellFormed (i : Instr) (h : i.wellFormed = true) : DecodesBack i := by
  cases i
  case tst => exact Bool.noConfusion h
  case addi a c => exact .one rfl (decodeWords_aluConst_word 0 a c 0)
  case subi a c => exact .one rfl (decodeWords_aluConst_word 1 a c 0)
  case xori a c => exact .one rfl (decodeWords_aluConst_word 2 a c 0)
  case xnori a c => exact .one rfl (decodeWords_aluConst_word 3 a c 0)
  case ori a c => exact .one rfl (decodeWords_aluConst_word 4 a c 0)
  case orni a c => exact .one rfl (decodeWords_aluConst_word 5 a c 0)
  case andi a c => exact .one rfl (decodeWords_aluConst_word 6 a c 0)
  case andni a c => exact .one rfl (decodeWords_aluConst_word 7 a c 0)
  case add y a b => exact .one rfl (decodeWords_aluReg_word 0 y a b 0)
  case sub y a b => exact .one rfl (decodeWords_aluReg_word 1 y a b 0)
  case xor y a b => exact .one rfl (decodeWords_aluReg_word 2 y a b 0)
  case xnor y a b => exact .one rfl (decodeWords_aluReg_word 3 y a b 0)
  case or y a b => exact .one rfl (decodeWords_aluReg_word 4 y a b 0)
  case orn y a b => exact .one rfl (decodeWords_aluReg_word 5 y a b 0)
  case and y a b => exact .one rfl (decodeWords_aluReg_word 6 y a b 0)
  case andn y a b => exact .one rfl (decodeWords_aluReg_word 7 y a b 0)
  case addc y a b => exact .one rfl (decodeWords_aluVariant_word 0 y a b 0)
  case subc y a b => exact .one rfl (decodeWords_aluVariant_word 1 y a b 0)
  case teq a b => exact .one rfl (decodeWords_aluVariant_word 2 0 a b 0)
  case tcm a b => exact .one rfl (decodeWords_aluVariant_word 3 0 a b 0)
  case cmn a b => exact .one rfl (decodeWords_aluVariant_word 4 0 a b 0)
  case cmp a b => exact .one rfl (decodeWords_aluVariant_word 5 0 a b 0)
  case rsv2op6 => exact .one rfl (decodeWords_aluVariant_word 6 0 0 0 0)
  case rsv2op7 => exact .one rfl (decodeWords_aluVariant_word 7 0 0 0 0)
  case rsv1 op => exact .one rfl (decodeWords_rsv1_word op 0)
  case movRR d s => exact .one rfl (decodeWords_mov_word 0 0 d s 0)
  case movRM d s => exact .one rfl (decodeWords_mov_word 0 1 d s 0)
  case movMR d s => exact .one rfl (decodeWords_mov_word 1 0 d s 0)
  case movMM d s => exact .one rfl (decodeWords_mov_word 1 1 d s 0)
  case rsv3 => exact .one rfl (decodeWords_movsRead_word 0 0 0 0)
  case movsRSr d => exact .one rfl (decodeWords_movsRead_word 0 1 d 0)
  case movsRMdb d => exact .one rfl (decodeWords_movsRead_word 0 2 d 0)
  case movsRIvb d => exact .one rfl (decodeWords_movsRead_word 0 3 d 0)
  case rsv6ReadSr => exact .one rfl (decodeWords_movsRead_word 1 1 0 0)
  case rsv6ReadMdb => exact .one rfl (decodeWords_movsRead_word 1 2 0 0)
  case rsv6ReadIvb => exact .one rfl (decodeWords_movsRead_word 1 3 0 0)
  case movsSrR s => exact .one rfl (decodeWords_movsWrite_word 0 1 s 0)
  case movsMdbR s => exact .one rfl (decodeWords_movsWrite_word 0 2 s 0)
  case movsIvbR s => exact .one rfl (decodeWords_movsWrite_word 0 3 s 0)
  case rsv6WriteSr => exact .one rfl (decodeWords_movsWrite_word 1 1 0 0)
  case rsv6WriteMdb => exact .one rfl (decodeWords_movsWrite_word 1 2 0 0)
  case rsv6WriteIvb => exact .one rfl (decodeWords_movsWrite_word 1 3 0 0)
  case ldir d v => exact .two rfl (decodeWords_ldir_word d v)
  case ldim p v => exact .two rfl (decodeWords_ldim_word p v)
  case lddR r a => exact .two rfl (decodeWords_direct_word 0 0 r a)
  case lddM r a => exact .two rfl (decodeWords_direct_word 0 1 r a)
  case stdR r a => exact .two rfl (decodeWords_direct_word 1 0 r a)
  case stdM r a => exact .two rfl (decodeWords_direct_word 1 1 r a)
  case ld r p => exact .one rfl (decodeWords_indirect_word 0 0 r p 0 0)
  case ldStar r p => exact .two rfl (decodeWords_indirect_word 0 1 r p 0 0)
  case ldr r p o => exact .one rfl (decodeWords_indirect_word 0 2 r p o 0)
  case ldo r p off => exact .two rfl (decodeWords_indirect_word 0 3 r p 0 off)
  case ldpostr r p o => exact .one rfl (decodeWords_indirect_word 0 4 r p o 0)
  case ldposto r p off => exact .two rfl (decodeWords_indirect_word 0 5 r p 0 off)
  case ldprer r p o => exact .one rfl (decodeWords_indirect_word 0 6 r p o 0)
  case ldpreo r p off => exact .two rfl (decodeWords_indirect_word 0 7 r p 0 off)
  case st r p => exact .one rfl (decodeWords_indirect_word 1 0 r p 0 0)
  case stStar r p => exact .two rfl (decodeWords_indirect_word 1 1 r p 0 0)
  case str r p o => exact .one rfl (decodeWords_indirect_word 1 2 r p o 0)
  case sto r p off => exact .two rfl (decodeWords_indirect_word 1 3 r p 0 off)
  case stpostr r p o => exact .one rfl (decodeWords_indirect_word 1 4 r p o 0)
  case stposto r p off => exact .two rfl (decodeWords_indirect_word 1 5 r p 0 off)
  case stprer r p o => exact .one rfl (decodeWords_indirect_word 1 6 r p o 0)
  case stpreo r p off => exact .two rfl (decodeWords_indirect_word 1 7 r p 0 off)
  case j off => exact .two rfl (decodeWords_jump_word 0 off)
  case jz off => exact .two rfl (decodeWords_jump_word 1 off)
  case jn off => exact .two rfl (decodeWords_jump_word 2 off)
  case jo off => exact .two rfl (decodeWords_jump_word 4 off)
  case jnc off => exact .two rfl (decodeWords_jump_word 7 off)
  case jc off => exact .two rfl (decodeWords_jump_word 8 off)
  case jno off => exact .two rfl (decodeWords_jump_word 11 off)
  case jnn off => exact .two rfl (decodeWords_jump_word 13 off)
  case jnz off => exact .two rfl (decodeWords_jump_word 14 off)
  case jsr off => exact .two rfl (decodeWords_jump_word 15 off)
  case rsv5c3 => exact .two rfl (decodeWords_jump_word 3 0)
  case rsv5c5 => exact .two rfl (decodeWords_jump_word 5 0)
  case rsv5c6 => exact .two rfl (decodeWords_jump_word 6 0)
  case rsv5c9 => exact .two rfl (decodeWords_jump_word 9 0)
  case rsv5c10 => exact .two rfl (decodeWords_jump_word 10 0)
  case rsv5c12 => exact .two rfl (decodeWords_jump_word 12 0)
  case addp p r => exact .one rfl (decodeWords_addp_word p r 0)
  case addpo p off => exact .two rfl (decodeWords_addpo_word p off)
  case addpi p off => exact .two rfl (decodeWords_addpi_word p off)
  case nop => exact .one rfl (decodeWords_misc_word 0 0 0)
  case hlt => exact .one rfl (decodeWords_misc_word 1 0 0)
  case reset => exact .one rfl (decodeWords_misc_word 2 0 0)
  case dma => exact .one rfl (decodeWords_misc_word 3 0 0)
  case eint i => exact .one rfl (decodeWords_eint_word i 0)
  case setpr n => exact .one rfl (decodeWords_misc_word 5 n 0)
  case clrim n => exact .one rfl (decodeWords_misc_word 6 n 0)
  case setim n => exact .one rfl (decodeWords_misc_word 7 n 0)

/-- Settles O1: the words decode to the instruction, so the first of them asks for as many as there are, and their bytes are
read back in the order they are laid out in. -/
theorem encodedInstructionDecodesToItself : Obligations.EncodedInstructionDecodesToItself := by
  intro i hwf order rest
  rcases decodesBack_of_wellFormed i hwf with ⟨w1, he, hd⟩ | ⟨w1, w2, he, hd⟩
  · have hl : lengthWords w1 = 1 := by rw [← wordsOf_decodeWords w1 0, hd, wordsOf, he]; rfl
    exact ⟨[w1], he, by simp [hl], by rw [decode_one_word order hl, hd]⟩
  · have hl : lengthWords w1 = 2 := by rw [← wordsOf_decodeWords w1 w2, hd, wordsOf, he]; rfl
    exact ⟨[w1, w2], he, by simp [hl], by rw [decode_two_words order hl, hd]⟩

end Sys2Proof.Proofs
end


section
/-! The step (70_reset_and_hazards.md R309, R310): what it runs, what it refuses before it executes, and what the events of
the host do. The statements O10 to O14, O17, O43, O49, O50 and O51. -/

namespace Sys2Proof.Proofs

open Sys2Proof.Machine

/-! ### What a step runs -/

/-- A refused fetch is a refused step. -/
theorem step_refused {s : State} {why : Refusal} (h0 : s.Undisturbed) (hrun : s.run = .running)
    (h : fetchInstr (passHost s) = .refused why) : step s = .refused why := by
  rw [step_running h0 hrun, stepInstr, h]

/-- The address after an instruction that does not run past the top of memory. -/
theorem pcNext_toNat {s : State} {len : Nat} (h : s.pc.toNat + 2 * len < 2 ^ 32) :
    (pcNext len s).toNat = s.pc.toNat + 2 * len := by
  rw [pcNext_eq, BitVec.toNat_add, BitVec.toNat_ofNat]
  omega

/-- An instruction that runs past the top of memory, or up to it, has a wrapped address after it. -/
theorem pcNext_wraps {s : State} {len : Nat} (hlen : len ≤ 2) (h : 2 ^ 32 ≤ s.pc.toNat + 2 * len) :
    (pcNext len s).toNat < s.pc.toNat := by
  have hpc := s.pc.isLt
  rw [pcNext_eq, BitVec.toNat_add, BitVec.toNat_ofNat]
  omega

theorem add_two_toNat {a : Addr} (h : a.toNat + 2 < 2 ^ 32) : (a + 2).toNat = a.toNat + 2 := by
  have h2 : (2 : Addr).toNat = 2 := rfl
  rw [BitVec.toNat_add, h2]
  omega

/-- Settles O11: the fetch of one word and of two, below the top of memory; the second word of a one-word instruction plays
no part. -/
theorem unwrittenWordsRunAsFreeWords : Obligations.UnwrittenWordsRunAsFreeWords := by
  intro s w1 w2 n m h0 hrun hpfx heven hw hr
  refine ⟨fun hl htop => ?one, fun hl htop hw2 hr2 => ?two⟩
  case one =>
    have hnext : s.pc.toNat ≤ (pcNext 1 (passHost s)).toNat :=
      (pcNext_toNat (s := passHost s) (len := 1) htop).symm ▸ Nat.le_add_right ..
    rw [decodeWords_ignores_of_one hl w2 0]
    exact step_fetched h0 hrun (fetchInstr_one (s := passHost s) hpfx heven hw hr hl hnext)
  case two =>
    have hnext : s.pc.toNat ≤ (pcNext 2 (passHost s)).toNat :=
      (pcNext_toNat (s := passHost s) (len := 2) htop).symm ▸ Nat.le_add_right ..
    rw [← add_two_toNat (by omega)] at hw2
    exact step_fetched h0 hrun (fetchInstr_two (s := passHost s) hpfx heven hw hr hl hw2 hr2 hnext)

/-- Settles O10: written words outside the I/O range are read with no free value drawn. -/
theorem stepRunsTheDecodedInstruction : Obligations.StepRunsTheDecodedInstruction := by
  intro s w1 w2 h0 hrun hpfx heven hram hw hword
  have hr : ReadsWord s s.pc w1 0 := .inl ⟨hram, hword, rfl⟩
  have hruns (m : Nat) := unwrittenWordsRunAsFreeWords s w1 w2 0 m h0 hrun hpfx heven hw hr
  refine ⟨fun hl => (hruns 0).1 hl (by omega), fun hl hram2 hw2 hword2 => ?_⟩
  have hpc2 : (s.pc + 2).toNat = s.pc.toNat + 2 := add_two_toNat (by omega)
  exact (hruns 0).2 hl (by omega) hw2 (.inl ⟨hpc2 ▸ hram2, hpc2 ▸ hword2, rfl⟩)

/-- Settles O12: the checks of the fetch, in its order. -/
theorem stepRefusesBeforeExecuting : Obligations.StepRefusesBeforeExecuting := by
  intro s h0 hrun
  refine ⟨fun hpfx => ?_, fun hpfx hodd => ?_, fun hpfx heven hw => ?_,
    fun w1 n hpfx heven hw hr => ⟨fun hl hw2 => ?_, fun htop hw2 => ?_⟩⟩
  · exact step_refused h0 hrun (fetchInstr_prefixed (s := passHost s) hpfx)
  · exact step_refused h0 hrun (fetchInstr_odd (s := passHost s) hpfx hodd)
  · exact step_refused h0 hrun (fetchInstr_written_first (s := passHost s) hpfx heven hw)
  · exact step_refused h0 hrun (fetchInstr_written_second (s := passHost s) hpfx heven hw hr hl hw2)
  · have hlen : lengthWords w1 ≤ 2 := by rcases lengthWords_eq_one_or_two w1 with h | h <;> omega
    exact step_refused h0 hrun
      (fetchInstr_wraps (s := passHost s) hpfx heven hw hr hw2 (pcNext_wraps (s := passHost s) hlen htop))

/-! ### An instruction placed at pc -/

/-- The two words a table word is made of. -/
theorem decodeTableWord_eq_some {nbits w : Nat} {i : Instr} (h : decodeTableWord nbits w = some i) :
    decodeWords (BitVec.ofNat 16 (w % 2 ^ nbits)) (BitVec.ofNat 16 (w % 2 ^ nbits / 2 ^ 16)) = i := by
  generalize hw1 : BitVec.ofNat 16 (w % 2 ^ nbits) = w1
  generalize hw2 : BitVec.ofNat 16 (w % 2 ^ nbits / 2 ^ 16) = w2
  rcases lengthWords_eq_one_or_two w1 with hl | hl
  · have hd : decode .big (bytesOfWords .big [w1, w2]) = .ok (decodeWords w1 0, bytesOfWords .big [w2]) :=
      decode_one_word .big hl (bytesOfWords .big [w2])
    simp only [decodeTableWord, hw1, hw2, hd] at h
    rw [decodeWords_ignores_of_one hl w2 0]
    exact Option.some.inj h
  · have hd : decode .big (bytesOfWords .big [w1, w2]) = .ok (decodeWords w1 w2, []) := decode_two_words .big hl []
    simp only [decodeTableWord, hw1, hw2, hd] at h
    exact Option.some.inj h

/-- The words placed at pc and after it. -/
theorem withFetchWord_wordAt {s : State} (h : s.pc.toNat + 2 < 2 ^ 32) (nbits w : Nat) :
    (s.withFetchWord nbits w).memory.wordAt s.pc.toNat = some (BitVec.ofNat 16 (w % 2 ^ nbits)) ∧
    (s.withFetchWord nbits w).memory.wordAt (s.pc.toNat + 2) = some (BitVec.ofNat 16 (w % 2 ^ nbits / 2 ^ 16)) := by
  simp only [State.withFetchWord, add_two_toNat h]
  refine ⟨?_, Memory.wordAt_setWord_same ..⟩
  rw [Memory.wordAt_setWord_other _ _ (.inr le_rfl), Memory.wordAt_setWord_same]

/-- The placed words do not count as written by the program. -/
theorem withFetchWord_not_written {s : State} (h : s.pc.toNat + 2 < 2 ^ 32) (nbits w : Nat) :
    s.pc.toNat ∉ (s.withFetchWord nbits w).written ∧ s.pc.toNat + 2 ∉ (s.withFetchWord nbits w).written := by
  simp only [State.withFetchWord, add_two_toNat h, List.mem_filter]
  simp

/-- Settles O14: the placed words are written, are not counted as written by the program, and no host event is to come. -/
theorem placedInstructionRunsNext : Obligations.PlacedInstructionRunsNext := by
  intro s nbits w i heven hram hi
  obtain ⟨hfirst, hsecond⟩ := withFetchWord_wordAt (s := s) (by omega) nbits w
  obtain ⟨hw, hw2⟩ := withFetchWord_not_written (s := s) (by omega) nbits w
  have h0 : (s.withFetchWord nbits w).Undisturbed := nofun
  have hstep := stepRunsTheDecodedInstruction (s.withFetchWord nbits w) _ (BitVec.ofNat 16 (w % 2 ^ nbits / 2 ^ 16)) h0
    rfl rfl heven (Nat.lt_of_le_of_lt (Nat.le_add_right ..) hram) hw hfirst
  rw [decodeTableWord_eq_some hi] at hstep
  rcases lengthWords_eq_one_or_two (BitVec.ofNat 16 (w % 2 ^ nbits)) with hl | hl
  · exact hstep.1 hl
  · exact hstep.2 hl hram hw2 hsecond

/-! ### Events of the host -/

/-- A step in which no host event acts: an instruction if the CPU runs, and else nothing. -/
theorem step_idles {s : State} {rest : List (Option HostEvent)} (h0 : s.Undisturbed) (hrest : s.hostEvents.tail = rest) :
    (s.run = .running → step s = stepInstr { s with hostEvents := rest }) ∧
    (s.run ≠ .running → step s = .next { s with hostEvents := rest }) := by
  subst hrest
  exact ⟨step_running h0, step_stopped h0⟩

/-- The entry of this step may not act in this run state. -/
theorem undisturbed_of_entry {s : State} {e : HostEvent} {rest : List (Option HostEvent)}
    (h : s.hostEvents = some e :: rest) (he : ¬ e.MayAct s.run) : s.Undisturbed := by
  intro e' he'
  rw [h] at he'
  obtain rfl := Option.some.inj (Option.some.inj he')
  exact he

/-- Settles O13: each event by its row of the table of R309, where it acts and where it does not. -/
theorem hostEventsAct : Obligations.HostEventsAct := by
  intro s rest
  have idles {e : HostEvent} (h : s.hostEvents = some e :: rest) (he : ¬ e.MayAct s.run) :=
    step_idles (undisturbed_of_entry h he) (congrArg List.tail h)
  refine ⟨fun h => ?reset, fun h => ⟨fun hrun => ?resume, fun hrun => idles h ?_⟩,
    fun h => ⟨fun hrun => ?dmaDone, fun hrun => idles h ?_⟩,
    fun a v h => ⟨fun hrun hodd => ?odd, fun hrun heven => ?even, fun hrun => idles h ?_⟩, fun h => ?nothing⟩
  case reset =>
    rw [step_event h (.inl rfl)]
    rfl
  case resume =>
    rw [step_event h (.inr (.inl ⟨rfl, hrun⟩))]
    rfl
  case dmaDone =>
    rw [step_event h (.inr (.inr (.inl ⟨rfl, hrun⟩)))]
    rfl
  case odd =>
    rw [step_event h (.inr (.inr (.inr ⟨⟨a, v, rfl⟩, hrun⟩))), applyHostEvent]
    exact withEvenAddress_odd hodd _
  case even =>
    rw [step_event h (.inr (.inr (.inr ⟨⟨a, v, rfl⟩, hrun⟩))), applyHostEvent, withEvenAddress_even heven]
    exact ⟨_, rfl, rfl, Memory.wordAt_setWord_same .., fun b h0 h1 => Memory.read_setWord_other _ _ h0 h1⟩
  case nothing =>
    have h0 : s.Undisturbed := by
      intro e he
      rcases h with h | ⟨h, -⟩ <;> rw [h] at he <;> simp at he
    have hrest : s.hostEvents.tail = rest := by
      rcases h with h | ⟨h, rfl⟩ <;> rw [h] <;> rfl
    exact step_idles h0 hrest
  all_goals simp [HostEvent.MayAct, hrun]

/-! ### Stops and resets -/

/-- Settles O17, by evaluation of the state after reset. -/
theorem resetValues : Obligations.ResetValues := by
  refine ⟨by decide, rfl, rfl, rfl, rfl, rfl, rfl, rfl, rfl, by decide, rfl, rfl, rfl, rfl, rfl, Memory.read_nil⟩

/-- Settles O50: RESET leaves what reset does, but for memory and what lies outside the CPU. -/
theorem resetClearsTheCpu : Obligations.ResetClearsTheCpu := by
  intro s
  obtain ⟨hx, hpc, hsp, hfp, hbp, hflags, hsr, hmdb, hivb, him, hpfx, hrun, hwritten, -⟩ := resetValues
  exact ⟨resetCpu s, rfl, hx, hpc, hsp, hfp, hbp, hflags, hsr, hmdb, hivb, him, hpfx, hrun, hwritten, rfl, rfl, rfl, rfl,
    rfl, rfl⟩

/-- Settles O51: SETPR records its number in `pfx`, and nothing is fetched while one stands there. -/
theorem setprRecordsThePrefix : Obligations.SetprRecordsThePrefix := by
  intro s n
  refine ⟨rfl, fun t h h0 hrun => ?_⟩
  have hpfx : t.pfx ≠ none := by
    rw [← Host.Outcome.next.inj h]
    exact Option.some_ne_none n
  exact (stepRefusesBeforeExecuting t h0 hrun).1 hpfx

theorem run_succ_of_next {M : Host.Core} {s t : M.State} (h : M.step s = .next t) (k : Nat) :
    M.run (k + 1) s = M.run k t := by
  rw [Host.Core.run, h]

/-- A run from a final state uses up entries of the host, which do not act, and changes nothing else. -/
theorem run_final {s : State} (h : s.Final) (k : Nat) :
    Sys2Proof.core.run k s = .next { s with hostEvents := s.hostEvents.drop k } := by
  induction k generalizing s with
  | zero => rfl
  | succ k ih =>
    obtain ⟨hstep, hfinal⟩ := step_final h
    rw [run_succ_of_next (M := Sys2Proof.core) hstep, ih hfinal, passHost_hostEvents, List.drop_tail]
    rfl

/-- Settles O49: the two stops, a stopped step, and a run from a final state. -/
theorem hltAndDmaStopTheClock : Obligations.HltAndDmaStopTheClock := by
  intro s
  refine ⟨rfl, rfl, fun h0 hrun => ?stopped, fun hnone => ?ends, fun hfinal k => run_final hfinal k⟩
  case stopped => exact step_stopped h0 (by rcases hrun with hrun | hrun <;> simp [hrun])
  case ends =>
    have hhost : s.NoHost := fun e he => by simp [hnone] at he
    exact ⟨fun hrun => ⟨hrun, hhost⟩, fun hrun => ⟨hrun, hhost⟩⟩

/-! ### Words the program stored -/

/-- Every instruction that changes a byte counts its word as written, and only DMA and RESET take words out of the count. -/
theorem exec_records {i : Instr} {s t : State} (h : exec i s = .next t) :
    (∀ b, t.memory.read b ≠ s.memory.read b → b / 2 * 2 ∈ t.written) ∧
    (i ≠ .dma → i ≠ .reset → ∀ k ∈ s.written, k ∈ t.written) := by
  cases exec_does h
  case store ea v hu he hs =>
    have hrec := (memWrite_stores ea v s).recorded he
    simpa using ⟨hrec.1, fun _ _ => hrec.2⟩
  case call off ea target hi lo he ht =>
    have hfirst := (memWrite_stores ea hi s).recorded he
    have hsecond := (memWrite_stores (ea + 2) lo (memWrite ea hi s)).recorded (add_two_even he)
    refine ⟨fun b hb => ?_, fun _ _ k hk => hsecond.2 k (hfirst.2 k hk)⟩
    by_cases hmid : (memWrite ea hi s).memory.read b = s.memory.read b
    · exact hsecond.1 b (hmid ▸ hb)
    · exact hsecond.2 _ (hfirst.1 b hmid)
  all_goals simp

/-- The state whose next step fetches at `a`: running, with `pfx` empty and no host event to come. -/
def fetchingAt (a : Addr) (t : State) : State := { t with pc := a, pfx := none, run := .running, hostEvents := [] }

theorem fetchingAt_undisturbed (a : Addr) (t : State) : (fetchingAt a t).Undisturbed := nofun

/-- A stored word of RAM is refused as a first word. -/
theorem step_at_stored {s t : State} {ea : Addr} {v : Word} (h : StoresWord s ea v t) (hram : ea.toNat < 0xFF000000)
    (heven : ea.toNat % 2 = 0) : step (fetchingAt ea t) = .refused .selfModifyingCode := by
  obtain ⟨-, -, hmem⟩ := h
  obtain ⟨-, -, -, hwritten⟩ := hmem hram
  obtain ⟨-, -, hfirst, -⟩ := stepRefusesBeforeExecuting (fetchingAt ea t) (fetchingAt_undisturbed ea t) rfl
  exact hfirst rfl heven ((hwritten _).mpr (.inl rfl))

/-- A stored word of RAM is refused as a second word. -/
theorem step_before_stored {s t : State} {ea : Addr} {v : Word} (h : StoresWord s ea v t) (hram : ea.toNat < 0xFF000000)
    (heven : ea.toNat % 2 = 0) {w1 : Word} {n : Nat} (hw : (ea - 2).toNat ∉ t.written)
    (hr : ReadsWord (fetchingAt (ea - 2) t) (ea - 2) w1 n) (hl : lengthWords w1 = 2) :
    step (fetchingAt (ea - 2) t) = .refused .selfModifyingCode := by
  obtain ⟨-, -, hmem⟩ := h
  obtain ⟨-, -, -, hwritten⟩ := hmem hram
  have hback : ea - 2 + 2 = ea := BitVec.sub_add_cancel ea 2
  have heven2 : (ea - 2).toNat % 2 = 0 := by
    have h2 : (2 : Addr).toNat = 2 := rfl
    rw [BitVec.toNat_sub, h2]
    omega
  obtain ⟨-, -, -, hsecond⟩ := stepRefusesBeforeExecuting (fetchingAt (ea - 2) t) (fetchingAt_undisturbed _ t) rfl
  exact (hsecond w1 n rfl heven2 hw hr).1 hl ((hwritten _).mpr (.inl (congrArg BitVec.toNat hback)))

/-- Settles O43: stores are recorded, and recorded words are refused by the fetch. -/
theorem storedWordsAreNotFetched : Obligations.StoredWordsAreNotFetched := by
  refine ⟨fun i s t h => exec_records h, fun s t ea v hst hram heven => ⟨?first, fun w1 n hw hr hl => ?second⟩,
    fun s r a ha => ?direct, fun s => ⟨⟨_, rfl, rfl⟩, ⟨_, rfl, rfl⟩⟩⟩
  case first =>
    have hstop := step_at_stored hst hram heven
    exact hstop
  case second =>
    have hstop := step_before_stored hst hram heven hw hr hl
    exact hstop
  case direct =>
    have hram : (directAddr a).toNat < 0xFF000000 := by
      rw [directAddr_toNat, if_pos ha]
      omega
    have hstop := step_at_stored (memWrite_stores (directAddr a) (readReg 2 ⟨.gpr, r⟩ s) s) hram (directAddr_even a)
    exact ⟨_, rfl, hstop⟩

end Sys2Proof.Proofs
end


section
/-! The ALU (40_alu.md R111 to R134): every addition, subtraction and logic operation as one equation of its shared
operation, in exact arithmetic or bit by bit, and the statements O18 to O23. -/

namespace Sys2Proof.Proofs

open Sys2Proof.Machine

/-! ### Constants -/

theorem constWord_toNat (c : Byte) : (constWord c).toNat = c.toNat := by
  have hc := c.isLt
  rw [constWord, BitVec.zeroExtend_eq_setWidth, BitVec.toNat_setWidth]
  omega

theorem constWord_toInt (c : Byte) : (constWord c).toInt = c.toNat := by
  have hc := c.isLt
  have hcases := toInt16_cases (constWord c)
  rw [constWord_toNat] at hcases
  omega

theorem constWord_getLsbD (c : Byte) {k : Nat} (hk : k < 16) : (constWord c).getLsbD k = c.getLsbD k := by
  simp [constWord, hk]

/-! ### Additions -/

theorem aluAdd_eq (dst : Option RegNo) (a b : Word) (cin : Bool) (s : State) :
    aluAdd dst a b cin s = .next (advance 1
      { writeResult dst (BitVec.ofInt 16 (a.toInt + b.toInt + cin.toNat)) s with
        flags := exactFlags (decide (65536 ≤ a.toNat + b.toNat + cin.toNat)) (a.toInt + b.toInt + cin.toNat) }) := by
  rw [aluAdd, addOp_exact]

/-- An addition without a carry in. -/
theorem aluAdd_false_eq (dst : Option RegNo) (a b : Word) (s : State) :
    aluAdd dst a b false s = .next (advance 1
      { writeResult dst (BitVec.ofInt 16 (a.toInt + b.toInt)) s with
        flags := exactFlags (decide (65536 ≤ a.toNat + b.toNat)) (a.toInt + b.toInt) }) := by
  simpa only [Bool.toNat_false, Nat.add_zero, Nat.cast_zero, Int.add_zero] using aluAdd_eq dst a b false s

/-- Settles O18: each addition is the exact sum of its operands. -/
theorem additionsAreExact : Obligations.AdditionsAreExact := by
  intro s y a b c
  refine ⟨?addi, ?add, ?addc, ?cmn⟩
  case addi =>
    have hadd := aluAdd_false_eq (some a) (readGpr a s) (constWord c) s
    rw [constWord_toNat, constWord_toInt] at hadd
    exact hadd
  case add => exact aluAdd_false_eq (some y) (readGpr a s) (readGpr b s) s
  case addc => exact aluAdd_eq (some y) (readGpr a s) (readGpr b s) s.flags.c s
  case cmn => exact aluAdd_false_eq none (readGpr a s) (readGpr b s) s

/-! ### Subtractions -/

theorem aluSub_eq (dst : Option RegNo) (a b : Word) (bin : Bool) (s : State) :
    aluSub dst a b bin s = .next (advance 1
      { writeResult dst (BitVec.ofInt 16 (a.toInt - b.toInt - bin.toNat)) { s with draws := s.draws + 1 } with
        flags := exactFlags
          (carryOfBorrow s.subCarry (decide (a.toNat < b.toNat + bin.toNat)) (Config.freeBit s.draws))
          (a.toInt - b.toInt - bin.toNat) }) := by
  simp only [aluSub, drawBit, subOp_exact]

/-- A subtraction without a borrow in. -/
theorem aluSub_false_eq (dst : Option RegNo) (a b : Word) (s : State) :
    aluSub dst a b false s = .next (advance 1
      { writeResult dst (BitVec.ofInt 16 (a.toInt - b.toInt)) { s with draws := s.draws + 1 } with
        flags := exactFlags (carryOfBorrow s.subCarry (decide (a.toNat < b.toNat)) (Config.freeBit s.draws))
          (a.toInt - b.toInt) }) := by
  simpa only [Bool.toNat_false, Nat.add_zero, Nat.cast_zero, Int.sub_zero] using aluSub_eq dst a b false s

/-- Settles O19: each subtraction is the exact difference of its operands, with C as SUB_CARRY makes it of the borrow. -/
theorem subtractionsAreExact : Obligations.SubtractionsAreExact := by
  intro s y a b c
  refine ⟨?subi, ?sub, ?cmp⟩
  case subi =>
    have hsub := aluSub_false_eq (some a) (readGpr a s) (constWord c) s
    rw [constWord_toNat, constWord_toInt] at hsub
    exact hsub
  case sub => exact aluSub_false_eq (some y) (readGpr a s) (readGpr b s) s
  case cmp => exact aluSub_false_eq none (readGpr a s) (readGpr b s) s

/-- SUBC where SUB_CARRY gives the borrow to take in. -/
theorem exec_subc_of_some {y a b : RegNo} {s : State} {bin : Bool} (h : borrowIn s.subCarry s.flags.c = some bin) :
    exec (.subc y a b) s = aluSub (some y) (readGpr a s) (readGpr b s) bin s := by
  change execSubc y a b s = _
  rw [execSubc, h]

/-- SUBC where SUB_CARRY is unspecified. -/
theorem exec_subc_of_none {y a b : RegNo} {s : State} (h : borrowIn s.subCarry s.flags.c = none) :
    exec (.subc y a b) s = .refused .subcNeedsSubCarry := by
  change execSubc y a b s = _
  rw [execSubc, h]

/-- Settles O20: the borrow in and the C out by the value of SUB_CARRY. -/
theorem subtractionWithCarryIsExact : Obligations.SubtractionWithCarryIsExact := by
  intro s y a b
  refine ⟨fun hp => ?borrow, fun hp => ?notBorrow, fun hp => exec_subc_of_none (by rw [hp]; rfl)⟩
  case borrow =>
    have hin : borrowIn s.subCarry s.flags.c = some s.flags.c := by rw [hp]; rfl
    rw [exec_subc_of_some hin, aluSub_eq, hp]
    rfl
  case notBorrow =>
    have hin : borrowIn s.subCarry s.flags.c = some (!s.flags.c) := by rw [hp]; rfl
    rw [exec_subc_of_some hin, aluSub_eq, hp]
    rfl

/-! ### Logic operations -/

/-- C or O after a logic operation, from its old value and a free bit, as LOGIC_CO says (log 9). -/
def afterLogic (old free : Bool) : Bool :=
  match Config.logicCo with
  | .cleared => false
  | .unchanged => old
  | .unspecified => free

theorem logicFlags_eq (old : Flags) (freeC freeO : Bool) (res : Word) :
    logicFlags old freeC freeO res =
      ⟨afterLogic old.c freeC, afterLogic old.o freeO, res.getLsbD 15, decide (res.toNat = 0)⟩ := by
  have hn : res.msb = res.getLsbD 15 := BitVec.msb_eq_getLsbD_last res
  have hz : (res == 0) = decide (res.toNat = 0) := by
    rw [Bool.eq_iff_iff, beq_iff_eq, decide_eq_true_eq, ← BitVec.toNat_inj]
    rfl
  unfold logicFlags afterLogic
  cases Config.logicCo <;> simp only [flagsOf, hn, hz]

theorem aluLogic_eq (dst : Option RegNo) (res : Word) (s : State) :
    aluLogic dst res s = .next (advance 1
      { writeResult dst res { s with draws := s.draws + 2 } with
        flags := ⟨afterLogic s.flags.c (Config.freeBit s.draws), afterLogic s.flags.o (Config.freeBit (s.draws + 1)),
          res.getLsbD 15, decide (res.toNat = 0)⟩ }) := by
  rw [← logicFlags_eq]
  rfl

/-- The complement comes after the extension (decision D9). -/
theorem notConst_eq (c : Byte) : notConst c = ~~~(constWord c) := rfl

theorem xnorConst_eq (a : Word) (c : Byte) : xnorConst a c = ~~~(a ^^^ constWord c) := rfl

/-- Settles O21: the results bit by bit, and the state after a logic operation. -/
theorem logicWithConstantsIsBitwise : Obligations.LogicWithConstantsIsBitwise := by
  intro s a c
  have hafter (res : Word) := aluLogic_eq (some a) res s
  refine ⟨⟨_, fun k hk => ?_, hafter _⟩, ⟨_, fun k hk => ?_, hafter _⟩, ⟨_, fun k hk => ?_, hafter _⟩,
    ⟨_, fun k hk => ?_, hafter _⟩, ⟨_, fun k hk => ?_, hafter _⟩, ⟨_, fun k hk => ?_, hafter _⟩⟩ <;>
  simp only [xnorConst_eq, notConst_eq, BitVec.getLsbD_xor, BitVec.getLsbD_not, BitVec.getLsbD_or, BitVec.getLsbD_and,
    constWord_getLsbD c hk, hk, decide_true, Bool.true_and, readGpr]

/-- Settles O22: the results bit by bit, and the state after a logic operation. -/
theorem logicBetweenRegistersIsBitwise : Obligations.LogicBetweenRegistersIsBitwise := by
  intro s y a b
  have hafter (res : Word) := aluLogic_eq (some y) res s
  refine ⟨⟨_, fun k hk => ?_, hafter _⟩, ⟨_, fun k hk => ?_, hafter _⟩, ⟨_, fun k hk => ?_, hafter _⟩,
    ⟨_, fun k hk => ?_, hafter _⟩, ⟨_, fun k hk => ?_, hafter _⟩, ⟨_, fun k hk => ?_, hafter _⟩⟩ <;>
  simp [readGpr, hk]

/-! ### Tests -/

theorem xor_toNat_eq_zero_iff (p q : Word) : (p ^^^ q).toNat = 0 ↔ p = q := by
  rw [← BitVec.xor_eq_zero_iff, ← BitVec.toNat_inj]
  rfl

theorem xnor_toNat_eq_zero_iff (p q : Word) : (~~~(p ^^^ q)).toNat = 0 ↔ p = ~~~q := by
  rw [BitVec.not_xor_right, xor_toNat_eq_zero_iff]

/-- Two words share no 1 bit exactly if their AND is 0. -/
theorem and_toNat_eq_zero_iff (p q : Word) :
    (p &&& q).toNat = 0 ↔ ∀ k : Fin 16, ¬ (p.getLsbD k = true ∧ q.getLsbD k = true) := by
  have hbits : (p &&& q).toNat = 0 ↔ ∀ k, k < 16 → (p &&& q).getLsbD k = (0 : Word).getLsbD k :=
    (BitVec.toNat_inj (y := 0)).trans ⟨fun h k _ => by rw [h], fun h => BitVec.eq_of_getLsbD_eq h⟩
  rw [hbits]
  simp only [BitVec.getLsbD_and, BitVec.ofNat_eq_ofNat, BitVec.getLsbD_zero, ← Bool.and_eq_true, Bool.not_eq_true]
  exact ⟨fun h k => h k k.isLt, fun h k hk => h ⟨k, hk⟩⟩

/-- Settles O23: the result of each test, by its top bit and when it is 0. -/
theorem testsSetFlagsAlone : Obligations.TestsSetFlagsAlone := by
  intro s a b
  have hafter {res : Word} {n z : Bool} (hn : res.getLsbD 15 = n) (hz : decide (res.toNat = 0) = z) :=
    hn ▸ hz ▸ aluLogic_eq none res s
  refine ⟨hafter (BitVec.getLsbD_xor ..) ?teq, hafter ?tcmSign ?tcm, hafter (BitVec.getLsbD_and ..) ?tst⟩
  case teq => exact decide_eq_decide.mpr (xor_toNat_eq_zero_iff _ _)
  case tcmSign => rw [BitVec.getLsbD_not, BitVec.getLsbD_xor]; rfl
  case tcm => exact decide_eq_decide.mpr (xnor_toNat_eq_zero_iff _ _)
  case tst => exact decide_eq_decide.mpr (and_toNat_eq_zero_iff _ _)

end Sys2Proof.Proofs
end


section
/-! Operands as values, the moves, the immediate loads, the jumps, Address Arithmetic and the miscellaneous instructions:
one equation per shared operation, and the statements O9, O25, O26, O28, O29, O32, O33, O44 to O48, O53 and O54. -/

namespace Sys2Proof.Proofs

open Sys2Proof.Machine

/-! ### Signed offsets -/

/-- Adding a signed number modulo 2^32. -/
theorem add_ofInt (a : Addr) (z : Int) : a + BitVec.ofInt 32 z = BitVec.ofInt 32 (a.toNat + z) := by
  rw [BitVec.ofInt_add, BitVec.ofInt_natCast, BitVec.ofNat_toNat, BitVec.setWidth_eq]

theorem add_offset16 (a : Addr) (v : Word) : a + offset16 v = BitVec.ofInt 32 (a.toNat + v.toInt) := add_ofInt a v.toInt

theorem add_offset24 (a : Addr) (v : BitVec 24) : a + offset24 v = BitVec.ofInt 32 (a.toNat + v.toInt) :=
  add_ofInt a v.toInt

/-- The address after an instruction plus a signed number, in one sum modulo 2^32. -/
theorem pcNext_add_ofInt (len : Nat) (s : State) (z : Int) :
    pcNext len s + BitVec.ofInt 32 z = BitVec.ofInt 32 (s.pc.toNat + (2 * len : Nat) + z) := by
  rw [pcNext_eq, BitVec.ofInt_add, BitVec.ofInt_add, BitVec.ofInt_natCast, BitVec.ofInt_natCast, BitVec.ofNat_toNat,
    BitVec.setWidth_eq]

theorem jumpTarget_eq (off : BitVec 24) (s : State) :
    jumpTarget off s = BitVec.ofInt 32 (s.pc.toNat + 4 + off.toInt) := pcNext_add_ofInt 2 s off.toInt

/-- Settles O9: each operand form by its value. -/
theorem operandsBecomeTheseValues : Obligations.OperandsBecomeTheseValues := by
  refine ⟨fun v => BitVec.toInt_signExtend_of_le (by decide), fun v => BitVec.toInt_signExtend_of_le (by decide),
    constWord_toNat, fun a => ⟨directAddr_even a, fun h => ?low, fun h => ?high⟩, fun v => ?ldim,
    fun len s => ⟨?pc, rfl, rfl, rfl⟩, fun off s => ?target⟩
  case low => rw [directAddr_toNat, if_pos h]
  case high => rw [directAddr_toNat, if_neg (by omega)]
  case ldim =>
    have hv := v.isLt
    change (v.zeroExtend 32).toNat = v.toNat
    rw [BitVec.zeroExtend_eq_setWidth, BitVec.toNat_setWidth]
    omega
  case pc =>
    rw [readPair_pc, pcNext_eq, BitVec.toNat_add, BitVec.toNat_ofNat]
    omega
  case target =>
    rw [jumpTarget_eq, BitVec.toNat_ofInt]
    omega

/-! ### Moves -/

/-- A move outside PC is one write of the destination with what the source reads. -/
theorem moveReg_eq {d r : Reg} (hd : ¬ InPc d) (s : State) :
    moveReg d r s = .next (advance 1 (withReg d (regWord 1 r s) s)) := by
  rw [moveReg, unlessPcHalf_outside hd, readReg_eq_regWord, writeReg_eq_withReg hd]

/-- A move into a half of PC is refused. -/
theorem moveReg_pcHalf {d r : Reg} (hd : InPc d) (s : State) : moveReg d r s = .refused .halfWriteOfPc :=
  unlessPcHalf_inside hd _

theorem gpr_not_inPc (d : RegNo) : ¬ InPc ⟨.gpr, d⟩ := fun h => nomatch h.1

theorem mp_not_inPc {d : RegNo} (h : 2 ≤ d.toNat) : ¬ InPc ⟨.mp, d⟩ := fun hd => absurd hd.2 (Nat.not_lt.mpr h)

/-- pc and a register outside PC are written independently. -/
theorem advance_withReg (len : Nat) (r : Reg) (v : Word) (s : State) :
    advance len (withReg r v s) = withReg r v (advance len s) := by
  obtain ⟨f, n⟩ := r
  cases f
  case gpr => rfl
  case mp =>
    simp only [withReg, withMp]
    split <;> rfl

/-- Settles O25: a GPR is no half of PC. -/
theorem movReadsMemoryPointerHalves : Obligations.MovReadsMemoryPointerHalves := by
  intro s d r
  rw [exec_movRM, moveReg_eq (gpr_not_inPc d)]
  rfl

/-- Settles O26: mp2 to mp7 are no halves of PC. -/
theorem movWritesMemoryPointerHalves : Obligations.MovWritesMemoryPointerHalves := by
  intro s d r hd
  rw [exec_movMR, exec_movMM, moveReg_eq (mp_not_inPc hd), moveReg_eq (mp_not_inPc hd), advance_withReg, advance_withReg]
  exact ⟨rfl, rfl⟩

/-! ### Moves with SR and MDB -/

theorem exec_movsRMdb (d : RegNo) (s : State) :
    exec (.movsRMdb d) s = .next (advance 1 (writeGpr d (Config.freeWord s.draws) { s with draws := s.draws + 1 })) := rfl

theorem exec_movsMdbR (r : RegNo) (s : State) :
    exec (.movsMdbR r) s = .next (advance 1 { s with mdb := readGpr r s }) := rfl

theorem exec_movsRSr_open {s : State} (h : s.srLayout = none) (d : RegNo) :
    exec (.movsRSr d) s = exec (.movsRMdb d) s := by
  change execMovsRSr d s = execMovsRMdb d s
  rw [execMovsRSr, h]
  rfl

theorem exec_movsRSr_given {s : State} {l : SrLayout} (h : s.srLayout = some l) (d : RegNo) :
    exec (.movsRSr d) s = .next (advance 1 (writeGpr d (srImage l s) s)) := by
  change execMovsRSr d s = _
  rw [execMovsRSr, h]

theorem exec_movsSrR_open {s : State} (h : s.srLayout = none) (r : RegNo) :
    exec (.movsSrR r) s = .refused .srLayoutUnknown := by
  change execMovsSrR r s = _
  rw [execMovsSrR, h]

theorem exec_movsSrR_given {s : State} {l : SrLayout} (h : s.srLayout = some l) (r : RegNo) :
    exec (.movsSrR r) s =
      .next (advance 1 { s with flags := srFlags l (readGpr r s), srRest := srOther l (readGpr r s) }) := by
  change execMovsSrR r s = _
  rw [execMovsSrR, h]

/-- Where no two flags share a bit, the flags of a word in which they are placed are those placed. -/
theorem srFlags_placeFlags {l : SrLayout} (hl : l.Distinct) (f : Flags) (w : Word) : srFlags l (placeFlags l f w) = f := by
  simp only [SrLayout.Distinct, SrLayout.positions, List.nodup_cons, List.mem_cons, List.not_mem_nil, or_false,
    not_or] at hl
  obtain ⟨⟨hco, hcn, hcz⟩, ⟨hon, hoz⟩, hnz, -⟩ := hl
  simp only [srFlags, placeFlags_getLsbD, if_true, Ne.symm hco, Ne.symm hcn, Ne.symm hcz, Ne.symm hon, Ne.symm hoz,
    Ne.symm hnz, if_false]

/-- The bits of a word with the flags placed that are no flag's. -/
theorem placeFlags_getLsbD_other {l : SrLayout} {i : BitVec 4} (hi : i ∉ l.positions) (f : Flags) (w : Word) :
    (placeFlags l f w).getLsbD i.toNat = w.getLsbD i.toNat := by
  simp only [SrLayout.positions, List.mem_cons, List.not_mem_nil, or_false, not_or] at hi
  obtain ⟨hc, ho, hn, hz⟩ := hi
  rw [placeFlags_getLsbD, if_neg hc, if_neg ho, if_neg hn, if_neg hz]

theorem srOther_getLsbD (l : SrLayout) (w : Word) (i : BitVec 4) :
    (srOther l w).getLsbD i.toNat = (decide (i ∉ l.positions) && w.getLsbD i.toNat) := by
  by_cases hi : i ∈ l.positions
  · have hi' := hi
    simp only [SrLayout.positions, List.mem_cons, List.not_mem_nil, or_false] at hi'
    rw [srOther, placeFlags_getLsbD, decide_eq_false (not_not.mpr hi), Bool.false_and]
    split
    · rfl
    split
    · rfl
    split
    · rfl
    split
    · rfl
    · simp_all
  · rw [srOther, placeFlags_getLsbD_other hi, decide_eq_true hi, Bool.true_and]

/-- Settles O28: SR while SR_LAYOUT is open, and with a layout its bits one by one, and that moves to and from SR undo each
other. -/
theorem srMovesAndMdbReads : Obligations.SrMovesAndMdbReads := by
  intro s d r
  refine ⟨exec_movsRMdb d s, fun hopen => ⟨exec_movsRSr_open hopen d, exec_movsSrR_open hopen r⟩, fun l hl => ⟨?read,
    ?write, fun t ht => ?writeRead, fun hdistinct t ht => ?readWrite⟩⟩
  case read =>
    refine ⟨srImage l s, exec_movsRSr_given hl d, fun hdistinct => ?_, fun i hi => placeFlags_getLsbD_other hi _ _⟩
    have hflags := srFlags_placeFlags hdistinct s.flags s.srRest
    exact ⟨congrArg Flags.c hflags, congrArg Flags.o hflags, congrArg Flags.n hflags, congrArg Flags.z hflags⟩
  case write => exact ⟨srOther l (readGpr r s), exec_movsSrR_given hl r, srOther_getLsbD l _⟩
  case writeRead =>
    rw [exec_movsSrR_given hl] at ht
    obtain rfl := Host.Outcome.next.inj ht
    have hlayout : (advance 1 { s with flags := srFlags l (readGpr r s), srRest := srOther l (readGpr r s) }).srLayout =
      some l := hl
    refine ⟨_, exec_movsRSr_given hlayout d, ?_⟩
    change readGpr d (writeGpr d _ _) = _
    rw [readGpr_writeGpr_same]
    exact placeFlags_srFlags l (readGpr r s)
  case readWrite =>
    rw [exec_movsRSr_given hl] at ht
    obtain rfl := Host.Outcome.next.inj ht
    have hlayout : (advance 1 (writeGpr d (srImage l s) s)).srLayout = some l := hl
    refine ⟨_, exec_movsSrR_given hlayout d, ?_⟩
    change srFlags l (readGpr d (writeGpr d (srImage l s) s)) = s.flags
    rw [readGpr_writeGpr_same]
    exact srFlags_placeFlags hdistinct s.flags s.srRest

/-- Settles O29: the fixed bits 0011 and 0 1110 select the special form, its write direction and MDB from a GPR; a read of MDB
is a free word. -/
theorem mdbIsWrittenFromAGpr : Obligations.MdbIsWrittenFromAGpr := by
  refine ⟨?layout, by decide, fun s d r => ⟨exec_movsMdbR r s, _, exec_movsRMdb d s, fun m => rfl⟩⟩
  intro w1 w2 hhigh hlow
  have hop : bits w1 15 12 = 3 := bits_of_extractLsb' hhigh (by decide) (by decide)
  have hform : bits w1 3 3 = 1 := bits_of_extractLsb' hlow (by decide) (by decide)
  have hdir : bits w1 2 2 = 1 := bits_of_extractLsb' hlow (by decide) (by decide)
  have hreg : bits w1 1 0 = 2 := bits_of_extractLsb' hlow (by decide) (by decide)
  have hsf : bits w1 4 4 = 0 := bits_of_extractLsb' hlow (by decide) (by decide)
  rw [decodeWords_movs hop hform, decodeMovs, hdir, hreg, hsf, regAt_eq_extract w1 5]
  exact ⟨lengthWords_of_op3 hop, rfl⟩

/-! ### Immediate loads -/

theorem exec_ldir (d : RegNo) (v : Word) (s : State) : exec (.ldir d v) s = .next (advance 2 (writeGpr d v s)) := rfl

theorem exec_ldim (p : Pair) (v : BitVec 25) (s : State) : exec (.ldim p v) s = assignPair 2 p (ldimValue v) s := rfl

/-- Nothing runs after SETPR (decision D12). -/
theorem step_prefixed {s : State} (h0 : s.Undisturbed) (hrun : s.run = .running) (hpfx : s.pfx ≠ none) :
    step s = .refused .prefixedInstruction :=
  (stepRefusesBeforeExecuting s h0 hrun).1 hpfx

/-- Settles O32: the fixed bits 0010 0 select LDir, two words long, which is one write of a GPR. -/
theorem ldirLoadsTheSecondWord : Obligations.LdirLoadsTheSecondWord := by
  refine ⟨fun w1 w2 hhigh => ?layout, by decide, fun s d v => exec_ldir d v s, fun s => step_prefixed⟩
  have hop : bits w1 15 12 = 2 := bits_of_extractLsb' hhigh (by decide) (by decide)
  have h11 : bits w1 11 11 = 0 := bits_of_extractLsb' hhigh (by decide) (by decide)
  rw [decodeWords_loadImm hop, decodeLoadImm, if_pos h11, regAt_eq_extract]
  exact ⟨lengthWords_of_two (.inr (.inl hop)), rfl⟩

/-- The value of LDim is zero-extended (decision D8). -/
theorem ldimValue_eq (v : BitVec 25) : ldimValue v = BitVec.ofNat 32 v.toNat := (BitVec.ofNat_toNat 32 v).symm

/-- Settles O33: a write of a pair, which for PC is a jump. -/
theorem ldimLoadsAPairOrJumps : Obligations.LdimLoadsAPairOrJumps := by
  intro s v
  have hv : (BitVec.ofNat 32 v.toNat).toNat = v.toNat := by
    have := v.isLt
    rw [BitVec.toNat_ofNat]
    omega
  simp only [exec_ldim, ldimValue_eq]
  exact ⟨rfl, rfl, rfl, fun he => jumpTo_even (hv.symm ▸ he) s, fun ho => jumpTo_odd (hv.symm ▸ ho) s⟩

/-! ### Jumps -/

/-- Settles O44: an unconditional jump is a write of PC. -/
theorem jumpGoesToTheTarget : Obligations.JumpGoesToTheTarget := by
  intro s off
  dsimp only
  rw [← jumpTarget_eq, exec_j]
  exact ⟨fun he => jumpTo_even he s, fun ho => jumpTo_odd ho s⟩

/-- Settles O45: each of the eight is a jump on its own condition. -/
theorem conditionalJumpsTestOneFlag : Obligations.ConditionalJumpsTestOneFlag := by
  intro s off
  dsimp only
  intro c hc
  have hexec : exec c.1 s = jumpIf c.2 off s := by
    simp only [List.mem_cons, List.not_mem_nil, or_false] at hc
    rcases hc with rfl | rfl | rfl | rfl | rfl | rfl | rfl | rfl <;> rfl
  rw [← jumpTarget_eq, hexec]
  refine ⟨fun h => ?_, fun h he => ?_, fun h ho => ?_⟩
  · rw [h]; rfl
  · rw [h]; exact jumpTo_even he s
  · rw [h]; exact jumpTo_odd ho s

/-- Giving SP the value it has changes nothing. -/
theorem withSp_of_sp {s : State} {v : Addr} (h : s.sp = v) : { s with sp := v } = s := by
  subst h
  rfl

/-- JSR at an even SP: two stores, then a write of PC. -/
theorem exec_jsr_eq {s : State} (hsp : s.sp.toNat % 2 = 0) (off : BitVec 24) :
    exec (.jsr off) s = jumpTo (jumpTarget off s)
      (memWrite (s.sp + 2) (lowHalf (pcNext 2 s)) (memWrite s.sp (highHalf (pcNext 2 s)) s)) := by
  change execJsr off s = _
  rw [execJsr, show jsrStoreAddr s = s.sp from rfl, show jsrSpAfter s = s.sp from rfl,
    withEvenAddress_even hsp]
  exact congrArg (jumpTo (jumpTarget off s)) (withSp_of_sp (by simp))

/-- Settles O46: the two stores by what a store does, then the jump. -/
theorem jsrStoresTheReturnAddress : Obligations.JsrStoresTheReturnAddress := by
  intro s off hsp
  dsimp only
  rw [← jumpTarget_eq, exec_jsr_eq hsp]
  refine ⟨rfl, fun he => ⟨_, _, memWrite_stores .., memWrite_stores .., ?_⟩, fun ho => jumpTo_odd ho _⟩
  rw [jumpTo_even he, highHalf_eq, lowHalf_eq]
  rfl

/-! ### Address Arithmetic -/

theorem exec_addp (p : Pair) (r : RegNo) (s : State) :
    exec (.addp p r) s = assignPair 1 p (readPair 1 p s + offset16 (readGpr r s)) s := rfl

theorem exec_addpi (p : Pair) (off : BitVec 24) (s : State) :
    exec (.addpi p off) s = assignPair 2 p (readPair 2 p s + offset24 off) s := rfl

/-- Settles O47: a write of the pair with the sum; with PC as the pair ADDpi is the jump of J. -/
theorem addressArithmeticAddsToThePair : Obligations.AddressArithmeticAddsToThePair := by
  intro s r off
  have htarget : readPair 1 .pc s + offset16 (readGpr r s) =
      BitVec.ofInt 32 (s.pc.toNat + 2 + (readGpr r s).toInt) := pcNext_add_ofInt 1 s _
  simp only [exec_addp, exec_addpi, htarget]
  simp only [add_offset16, add_offset24, readPair_sp, readPair_fp, readPair_bp]
  refine ⟨rfl, rfl, rfl, rfl, rfl, rfl, fun he => jumpTo_even he s, fun ho => jumpTo_odd ho s, ?_⟩
  rw [← add_offset24]
  rfl

/-! ### Miscellaneous -/

theorem exec_nop (s : State) : exec .nop s = .next (advance 1 s) := rfl

theorem exec_clrim (m : RegNo) (s : State) : exec (.clrim m) s = .next (advance 1 (writeMask m false s)) := rfl

/-- Settles O48: the fixed bits 0000 0000 select the miscellaneous form and NOP. -/
theorem nopAdvancesOneWord : Obligations.NopAdvancesOneWord := by
  refine ⟨fun w1 w2 hhigh => ?layout, exec_nop, fun s => step_prefixed⟩
  have hop : bits w1 15 12 = 0 := bits_of_extractLsb' hhigh (by decide) (by decide)
  have h11 : bits w1 11 11 = 0 := bits_of_extractLsb' hhigh (by decide) (by decide)
  have hmop : bits w1 10 8 = 0 := bits_of_extractLsb' hhigh (by decide) (by decide)
  rw [decodeWords_misc hop h11, decodeMisc, hmop]
  exact ⟨lengthWords_of_misc hop h11, rfl⟩

/-- Settles O53: one write of a mask. -/
theorem clrimClearsOneMask : Obligations.ClrimClearsOneMask := fun s m =>
  ⟨(writeMask m false s).im, exec_clrim m s, fun k => writeMask_im_getElem m k false s⟩

/-- Settles O54: each stop by its own meaning. -/
theorem reservedAndContestedWordsAreRefused : Obligations.ReservedAndContestedWordsAreRefused := by
  intro s
  refine ⟨fun op => rfl, fun i hi => ?_, fun n => rfl, fun p off => rfl⟩
  simp only [List.mem_cons, List.not_mem_nil, or_false] at hi
  rcases hi with rfl | rfl | rfl | rfl | rfl | rfl | rfl | rfl | rfl | rfl | rfl | rfl | rfl | rfl | rfl <;> rfl

end Sys2Proof.Proofs
end


section
/-! The loads and stores, direct and through a pair: one equation per outcome of each shared operation, and the statements
O27 and O34 to O42 read off them. -/

namespace Sys2Proof.Proofs

open Sys2Proof.Machine

/-! ### What is written and pc are independent -/

theorem advance_withPair (len : Nat) (p : Pair) (v : Addr) (s : State) :
    advance len (withPair p v s) = withPair p v (advance len s) := by
  cases p <;> rfl

/-- After a store pc moves on from where it was before it. -/
theorem advance_memWrite (len : Nat) (a : Addr) (v : Word) (s : State) :
    advance len (memWrite a v s) = { memWrite a v s with pc := s.pc + BitVec.ofNat 32 (2 * len) } := by
  change { memWrite a v s with pc := (memWrite a v s).pc + BitVec.ofNat 32 (2 * len) } = _
  rw [memWrite_pc]

/-! ### Direct accesses -/

theorem directLoad_eq {r : Reg} (hr : ¬ InPc r) (a : BitVec 24) (s : State) :
    ∃ v n, ReadsWord s (directAddr a) v n ∧
      directLoad r a s = .next (withReg r v { s with pc := s.pc + 4, draws := s.draws + n }) := by
  obtain ⟨n, hread, hdrawn⟩ := memRead_reads (directAddr a) s
  refine ⟨_, n, hread, ?_⟩
  change unlessPcHalf r (.next (advance 2 (writeReg r (memRead (directAddr a) s).1 (memRead (directAddr a) s).2))) = _
  rw [unlessPcHalf_outside hr, writeReg_eq_withReg hr, advance_withReg, hdrawn]
  rfl

theorem directLoad_pcHalf {r : Reg} (hr : InPc r) (a : BitVec 24) (s : State) :
    directLoad r a s = .refused .halfWriteOfPc := unlessPcHalf_inside hr _

theorem directStore_eq (r : Reg) (a : BitVec 24) (s : State) :
    directStore r a s = .next { memWrite (directAddr a) (regWord 2 r s) s with pc := s.pc + 4 } := by
  change Host.Outcome.next (advance 2 (memWrite (directAddr a) (readReg 2 r s) s)) = _
  rw [readReg_eq_regWord, advance_memWrite]
  rfl

/-- Settles O34: a GPR and mp2 to mp7 are no halves of PC. -/
theorem directLoadsReadTheWord : Obligations.DirectLoadsReadTheWord := fun s d a =>
  ⟨directLoad_eq (gpr_not_inPc d) a s, fun hd => directLoad_eq (mp_not_inPc hd) a s⟩

/-- Settles O35: one store of what the register reads. -/
theorem directStoresWriteTheWord : Obligations.DirectStoresWriteTheWord := fun s r a =>
  ⟨⟨_, memWrite_stores .., (exec_stdR r a s).trans (directStore_eq ..)⟩,
    ⟨_, memWrite_stores .., (exec_stdM r a s).trans (directStore_eq ..)⟩⟩

/-- A store outside the I/O range replaces one word of memory. -/
theorem memWrite_ram {a : Addr} (h : a.toNat < 0xFF000000) (v : Word) (s : State) :
    memWrite a v s =
      { s with memory := s.memory.setWord a.toNat v, written := insertAddr a.toNat s.written } := by
  rw [memWrite, isIo_eq_false.mpr h]
  rfl

/-- Settles O42: the stored word is read back at a direct address of RAM, and its bytes lie in the configured order. -/
theorem loadReturnsTheStoredWord : Obligations.LoadReturnsTheStoredWord := by
  intro s r d a ha
  have hram : (directAddr a).toNat < 0xFF000000 := by
    rw [directAddr_toNat, if_pos ha]
    omega
  obtain ⟨v, n, hread, hload⟩ := directLoad_eq (gpr_not_inPc d) a
    { memWrite (directAddr a) (s.x[r.toNat]'r.isLt) s with pc := s.pc + 4 }
  have hback : ReadsWord { memWrite (directAddr a) (s.x[r.toNat]'r.isLt) s with pc := s.pc + 4 } (directAddr a)
      (s.x[r.toNat]'r.isLt) 0 := .inl ⟨hram, ((memWrite_stores _ _ s).2.2 hram).2.1, rfl⟩
  obtain ⟨rfl, rfl⟩ := hread.unique hback
  refine ⟨_, _, (exec_stdR r a s).trans (directStore_eq ..), (exec_lddR d a _).trans hload, ?_, ?_, ?_⟩
  · change (memWrite (directAddr a) (s.x[r.toNat]'r.isLt) s).x.set d.toNat (s.x[r.toNat]'r.isLt) d.isLt = _
    rw [memWrite_x]
  · exact memWrite_draws ..
  · change (memWrite (directAddr a) (s.x[r.toNat]'r.isLt) s).memory.byteAt _ = _ ∧
      (memWrite (directAddr a) (s.x[r.toNat]'r.isLt) s).memory.byteAt _ = _
    rw [memWrite_ram hram]
    exact Memory.byteAt_setWord _ _ (directAddr_even a)

/-! ### Accesses through a pair -/

section
variable {u pre : Bool} {len : Nat} {r : Reg} {p : Pair} {off : Addr} {s : State}

theorem indirectLoad_refused {why : Refusal} (h : updateRefusal u r p = some why) :
    indirectLoad u pre len r p off s = .refused why := by
  rw [indirectLoad, h]

theorem indirectStore_refused {why : Refusal} (h : updateRefusal u r p = some why) :
    indirectStore u pre len r p off s = .refused why := by
  rw [indirectStore, h]

theorem indirectLoad_pcHalf (hu : u = true → p ≠ .pc) (hr : InPc r) :
    indirectLoad u pre len r p off s = .refused .halfWriteOfPc := by
  have hpair : u = true → p ≠ .pc ∧ ¬ InPair r p := fun h => by
    refine ⟨hu h, fun hin => ?_⟩
    obtain ⟨-, hlow⟩ := hr
    obtain ⟨-, hindex⟩ := hin
    have hzero : p.index = 0 := by omega
    exact hu h (by cases p <;> first | rfl | cases hzero)
  rw [indirectLoad, (updateRefusal_none_iff u r p).mpr hpair]
  exact unlessPcHalf_inside hr _

theorem indirectLoad_odd (hu : u = true → p ≠ .pc ∧ ¬ InPair r p) (hr : ¬ InPc r)
    (ho : (accessAddr pre (readPair len p s) off).toNat % 2 = 1) :
    indirectLoad u pre len r p off s = .refused .oddAddress := by
  rw [indirectLoad, (updateRefusal_none_iff u r p).mpr hu]
  exact (unlessPcHalf_outside hr _).trans (withEvenAddress_odd ho _)

theorem indirectStore_odd (hu : u = true → p ≠ .pc ∧ ¬ InPair r p)
    (ho : (accessAddr pre (readPair len p s) off).toNat % 2 = 1) :
    indirectStore u pre len r p off s = .refused .oddAddress := by
  rw [indirectStore, (updateRefusal_none_iff u r p).mpr hu]
  exact withEvenAddress_odd ho _

/-- A load without update: the word into a register outside PC. -/
theorem indirectLoad_keeps (hr : ¬ InPc r) (he : (accessAddr pre (readPair len p s) off).toNat % 2 = 0) :
    ∃ v n, ReadsWord s (accessAddr pre (readPair len p s) off) v n ∧
      indirectLoad false pre len r p off s =
        .next (withReg r v { s with pc := s.pc + BitVec.ofNat 32 (2 * len), draws := s.draws + n }) := by
  obtain ⟨v, n, hread, hload⟩ := indirectLoad_eq (u := false) (fun h => nomatch h) hr he
  refine ⟨v, n, hread, hload.trans ?_⟩
  rw [updatePair_false, writeReg_eq_withReg hr, advance_withReg]
  rfl

/-- A load with update: the word into a register outside PC and the pair, and the sum into the pair. -/
theorem indirectLoad_updates (hp : p ≠ .pc) (hi : ¬ InPair r p) (hr : ¬ InPc r)
    (he : (accessAddr pre (readPair len p s) off).toNat % 2 = 0) :
    ∃ v n, ReadsWord s (accessAddr pre (readPair len p s) off) v n ∧
      indirectLoad true pre len r p off s = .next (withPair p (readPair len p s + off)
        (withReg r v { s with pc := s.pc + BitVec.ofNat 32 (2 * len), draws := s.draws + n })) := by
  obtain ⟨v, n, hread, hload⟩ := indirectLoad_eq (u := true) (fun _ => ⟨hp, hi⟩) hr he
  refine ⟨v, n, hread, hload.trans ?_⟩
  rw [updatePair_true, writePair_eq_withPair hp, writeReg_eq_withReg hr, advance_withPair, advance_withReg]
  rfl

/-- A store without update. -/
theorem indirectStore_keeps (he : (accessAddr pre (readPair len p s) off).toNat % 2 = 0) :
    ∃ t, StoresWord s (accessAddr pre (readPair len p s) off) (regWord len r s) t ∧
      indirectStore false pre len r p off s = .next { t with pc := s.pc + BitVec.ofNat 32 (2 * len) } := by
  refine ⟨_, memWrite_stores .., (indirectStore_eq (u := false) (fun h => nomatch h) he).trans ?_⟩
  rw [updatePair_false, readReg_eq_regWord, advance_memWrite]

/-- A store with update: the word of a register outside the pair, and the sum into the pair. -/
theorem indirectStore_updates (hp : p ≠ .pc) (hi : ¬ InPair r p)
    (he : (accessAddr pre (readPair len p s) off).toNat % 2 = 0) :
    ∃ t, StoresWord s (accessAddr pre (readPair len p s) off) (regWord len r s) t ∧
      indirectStore true pre len r p off s = .next (withPair p (readPair len p s + off)
        { t with pc := s.pc + BitVec.ofNat 32 (2 * len) }) := by
  refine ⟨_, memWrite_stores .., (indirectStore_eq (fun _ => ⟨hp, hi⟩) he).trans ?_⟩
  rw [updatePair_true, writePair_eq_withPair hp, readReg_eq_regWord, advance_withPair, advance_memWrite]

end

/-- Settles O36: each form is the load without update, at its address. -/
theorem indirectLoadsKeepThePair : Obligations.IndirectLoadsKeepThePair := fun _ _ _ _ _ hr =>
  ⟨fun he => indirectLoad_keeps (pre := false) (off := 0) hr he,
    fun he => indirectLoad_keeps (pre := false) (off := 0) hr he,
    fun he => indirectLoad_keeps (pre := true) hr he, fun he => indirectLoad_keeps (pre := true) hr he⟩

/-- Settles O37: each form is the load with update, at its address. -/
theorem indirectLoadsUpdateThePair : Obligations.IndirectLoadsUpdateThePair := fun _ _ _ _ _ hr hi hp =>
  ⟨fun he => indirectLoad_updates (pre := false) hp hi hr he, fun he => indirectLoad_updates (pre := false) hp hi hr he,
    fun he => indirectLoad_updates (pre := true) hp hi hr he, fun he => indirectLoad_updates (pre := true) hp hi hr he⟩

/-- Settles O38: each form is the store without update, at its address. -/
theorem indirectStoresKeepThePair : Obligations.IndirectStoresKeepThePair := fun _ _ _ _ _ =>
  ⟨fun he => indirectStore_keeps (pre := false) (off := 0) he,
    fun he => indirectStore_keeps (pre := false) (off := 0) he,
    fun he => indirectStore_keeps (pre := true) he, fun he => indirectStore_keeps (pre := true) he⟩

/-- Settles O39: each form is the store with update, at its address. -/
theorem indirectStoresUpdateThePair : Obligations.IndirectStoresUpdateThePair := fun _ _ _ _ _ hi hp =>
  ⟨fun he => indirectStore_updates (pre := false) hp hi he, fun he => indirectStore_updates (pre := false) hp hi he,
    fun he => indirectStore_updates (pre := true) hp hi he, fun he => indirectStore_updates (pre := true) hp hi he⟩

/-! ### Refusals -/

theorem updateRefusal_pc (r : Reg) : updateRefusal true r .pc = some .updateOfPcByIndirectAccess := rfl

theorem updateRefusal_inside {r : Reg} {p : Pair} (hp : p ≠ .pc) (hi : InPair r p) :
    updateRefusal true r p = some .transferredRegisterInsideUpdatedPair := by
  rw [updateRefusal, (insidePair_iff r p).mpr hi, if_neg (by simpa using hp)]
  rfl

/-- A refused update refuses the eight forms that update. -/
theorem exec_updating_refused {r : Reg} {p : Pair} {why : Refusal} (h : updateRefusal true r p = some why) (o : RegNo)
    (off : Word) (s : State) :
    ∀ i ∈ [Instr.ldpostr r p o, .ldposto r p off, .ldprer r p o, .ldpreo r p off,
           .stpostr r p o, .stposto r p off, .stprer r p o, .stpreo r p off], exec i s = .refused why := by
  simp only [List.forall_mem_cons, List.not_mem_nil, false_imp_iff, implies_true, and_true]
  exact ⟨indirectLoad_refused h, indirectLoad_refused h, indirectLoad_refused h, indirectLoad_refused h,
    indirectStore_refused h, indirectStore_refused h, indirectStore_refused h, indirectStore_refused h⟩

/-- Settles O40: the two checks before an address is formed. -/
theorem updatingAccessesAreRefused : Obligations.UpdatingAccessesAreRefused := by
  intro s r p o off i hi
  refine ⟨?_, fun hp hin => exec_updating_refused (updateRefusal_inside hp hin) o off s i hi⟩
  rintro rfl
  exact exec_updating_refused (updateRefusal_pc r) o off s i hi

/-- Settles O27: every write of a register into a half of PC is stopped by the same check. -/
theorem halfWritesOfPcAreRefused : Obligations.HalfWritesOfPcAreRefused := by
  intro s r d m o p off a hd hr
  have hmp : InPc ⟨.mp, d⟩ := ⟨rfl, hd⟩
  simp only [List.forall_mem_cons, List.not_mem_nil, false_imp_iff, implies_true, and_true]
  refine ⟨⟨moveReg_pcHalf hmp s, moveReg_pcHalf hmp s, directLoad_pcHalf hmp a s, ?_⟩, fun hp => ?_⟩
  · have hkeep (pre : Bool) (len : Nat) (ofs : Addr) : indirectLoad false pre len r p ofs s = .refused .halfWriteOfPc :=
      indirectLoad_pcHalf (fun h => nomatch h) hr
    exact ⟨hkeep .., hkeep .., hkeep .., hkeep ..⟩
  · have hupdate (pre : Bool) (len : Nat) (ofs : Addr) : indirectLoad true pre len r p ofs s = .refused .halfWriteOfPc :=
      indirectLoad_pcHalf (fun _ => hp) hr
    exact ⟨hupdate .., hupdate .., hupdate .., hupdate ..⟩

/-- JSR at an odd SP. -/
theorem exec_jsr_odd {s : State} (hsp : s.sp.toNat % 2 = 1) (off : BitVec 24) :
    exec (.jsr off) s = .refused .oddAddress := by
  change execJsr off s = _
  rw [execJsr]
  exact withEvenAddress_odd (a := jsrStoreAddr s) hsp _

/-- Settles O41: the check of the address, behind the other checks of each form. -/
theorem oddDataAddressesAreRefused : Obligations.OddDataAddressesAreRefused := by
  intro s r p o off joff
  simp only [List.forall_mem_cons, List.not_mem_nil, false_imp_iff, implies_true, and_true]
  have hkeep : false = true → p ≠ .pc ∧ ¬ InPair r p := fun h => nomatch h
  refine ⟨?store, fun hr => ?load, fun hp hi => ?storeUpdate, fun hp hi hr => ?loadUpdate,
    fun hsp => exec_jsr_odd hsp joff⟩
  case store =>
    exact ⟨indirectStore_odd (pre := false) (off := 0) hkeep, indirectStore_odd (pre := false) (off := 0) hkeep,
      indirectStore_odd (pre := true) hkeep, indirectStore_odd (pre := true) hkeep⟩
  case load =>
    exact ⟨indirectLoad_odd (pre := false) (off := 0) hkeep hr, indirectLoad_odd (pre := false) (off := 0) hkeep hr,
      indirectLoad_odd (pre := true) hkeep hr, indirectLoad_odd (pre := true) hkeep hr⟩
  case storeUpdate =>
    have hu : true = true → p ≠ .pc ∧ ¬ InPair r p := fun _ => ⟨hp, hi⟩
    exact ⟨indirectStore_odd (pre := false) hu, indirectStore_odd (pre := false) hu,
      indirectStore_odd (pre := true) hu, indirectStore_odd (pre := true) hu⟩
  case loadUpdate =>
    have hu : true = true → p ≠ .pc ∧ ¬ InPair r p := fun _ => ⟨hp, hi⟩
    exact ⟨indirectLoad_odd (pre := false) hu hr, indirectLoad_odd (pre := false) hu hr,
      indirectLoad_odd (pre := true) hu hr, indirectLoad_odd (pre := true) hu hr⟩

end Sys2Proof.Proofs
end
